-- ==== Sys2Proof/Word.lean ====
section
/-! DEFINITION. The word types of the core (00_scope.md R6, R7): bytes, command words, control and status registers. -/

namespace Sys2Proof

/-- A byte: `SYM_W` = 8 bits (00_scope.md R6). Symbols and buffer elements are bytes (30_encoding.md R50). -/
abbrev Byte := BitVec 8

/-- A command word: `CMD_W` = 16 bits (30_encoding.md R43). -/
abbrev CmdWord := BitVec 16

/-- A node index: `IDX_W` = 16 bits (00_scope.md R6). -/
abbrev Idx := BitVec 16

/-- A control and status register value: `CSR_W` = 32 bits (00_scope.md R6). -/
abbrev Csr := BitVec 32

end Sys2Proof
end

