-- ==== Sys2Proof/Config.lean ====
section
/-! DEFINITION. What an implementation fixes (00_scope.md R6; 92_eei_decisions.md section 2): the four OPEN
parameters, the derived capacity and the fixed constants. There is no free value: 93_implementation_defined.md
section 1 says that no behaviour of the core is `any value`. -/

namespace Sys2Proof

/-- The four OPEN parameters of 00_scope.md R6. DESIGN CHOICE (log 1): a value of this type is carried in State, so that
a statement about every state is a statement about every choice of the parameters. -/
structure Params where
  /-- `TEXT_CAP`: capacity of TEXT in bytes. -/
  textCap : Nat
  /-- `PAY_CAP`: capacity of PAY in bytes. -/
  payCap : Nat
  /-- `NODE_CAP`: number of entries of the node arena. -/
  nodeCap : Nat
  /-- `CNT_W`: width of a frequency counter and of a node's `freq` field. -/
  cntW : Nat
  deriving DecidableEq, Repr

/-- The reference values of 00_scope.md R6. -/
def Params.reference : Params where
  textCap := 2 ^ 32 - 1
  payCap := 2 ^ 32 - 65542
  nodeCap := 65535
  cntW := 32

/-- The small test instantiation of 92_eei_decisions.md section 2. -/
def Params.small : Params where
  textCap := 1024
  payCap := 1024
  nodeCap := 255
  cntW := 11

/-- `TREEB_CAP` = 65535, from the container's 2-byte length field (00_scope.md R6). -/
def treebCap : Nat := 65535

/-- `CONT_CAP` = 6 + TREEB_CAP + PAY_CAP (00_scope.md R6). -/
def Params.contCap (p : Params) : Nat := 6 + treebCap + p.payCap

end Sys2Proof
end

