-- ==== Sys2Proof/Syntax.lean ====
section
/-! DEFINITION. The instruction set: the seventeen commands of 30_encoding.md R44, one constructor per row of
spec/opcode_table.json. The only operand is the byte `imm8` of the PUSH commands (30_encoding.md R45). -/

namespace Sys2Proof

/-- A command of the core (30_encoding.md R44). -/
inductive Instr where
  /-- `NOP` (R62). -/
  | nop
  /-- `CLR` (R63). -/
  | clr
  /-- `PUSH.T imm8` (R64). -/
  | pushT (imm8 : Byte)
  /-- `PUSH.S imm8` (R65). -/
  | pushS (imm8 : Byte)
  /-- `PUSH.P imm8` (R66). -/
  | pushP (imm8 : Byte)
  /-- `PUSH.C imm8` (R67). -/
  | pushC (imm8 : Byte)
  /-- `COUNT` (R75). -/
  | count
  /-- `BUILD` (R80). -/
  | build
  /-- `GENCODE` (R85). -/
  | gencode
  /-- `PACK` (R90). -/
  | pack
  /-- `UNPACK` (R96). -/
  | unpack
  /-- `TSER` (R102). -/
  | tser
  /-- `TDES` (R105). -/
  | tdes
  /-- `CENC` (R110). -/
  | cenc
  /-- `CDEC` (R112). -/
  | cdec
  /-- `COMPRESS` (R116). -/
  | compress
  /-- `DECOMPRESS` (R119). -/
  | decompress
  deriving DecidableEq, Repr

end Sys2Proof
end

