-- ==== Sys2Proof/WellFormed.lean ====
section
/-! DEFINITION. Well-formedness: which commands and which parameters the spec admits. -/

namespace Sys2Proof

/-- Every command of the type is a row of 30_encoding.md R44: `imm8` may be any byte 0x00 to 0xFF (R43, R45), and no
other command has an operand, so no term of `Instr` is ill-formed. -/
def Instr.wellFormed : Instr → Bool
  | .nop | .clr => true
  | .pushT _ | .pushS _ | .pushP _ | .pushC _ => true
  | .count | .build | .gencode | .pack | .unpack | .tser | .tdes | .cenc | .cdec => true
  | .compress | .decompress => true

/-- `1 ≤ TEXT_CAP ≤ 2^32 − 1` (00_scope.md R6). -/
def Params.textCapOk (p : Params) : Bool := decide (1 ≤ p.textCap) && decide (p.textCap ≤ 2 ^ 32 - 1)

/-- `1 ≤ PAY_CAP ≤ 2^32 − 65542` (00_scope.md R6). -/
def Params.payCapOk (p : Params) : Bool := decide (1 ≤ p.payCap) && decide (p.payCap ≤ 2 ^ 32 - 65542)

/-- `255 ≤ NODE_CAP ≤ 65535` (00_scope.md R6). -/
def Params.nodeCapOk (p : Params) : Bool := decide (255 ≤ p.nodeCap) && decide (p.nodeCap ≤ 65535)

/-- `2^CNT_W > TEXT_CAP` (00_scope.md R6). -/
def Params.cntWOk (p : Params) : Bool := decide (p.textCap < 2 ^ p.cntW)

/-- The constraints of 00_scope.md R6 on the OPEN parameters. -/
def Params.legal (p : Params) : Bool := p.textCapOk && p.payCapOk && p.nodeCapOk && p.cntWOk

end Sys2Proof
end

