-- ==== Sys2Proof/Decode.lean ====
section
/-! DEFINITION. Decoding and encoding of command words (30_encoding.md R43 to R47): the table of R44 row by row, the
decoder over it, the named rejections of R46, and the encoder written from the same encodings. -/

namespace Sys2Proof

/-- `w[15:8]`, the opcode field `op` (30_encoding.md R43). -/
def opField (w : CmdWord) : BitVec 8 := w.extractLsb' 8 8

/-- `w[7:0]`: the field `zero` of format C, the operand `imm8` of format P (30_encoding.md R43, R45). -/
def immField (w : CmdWord) : Byte := w.extractLsb' 0 8

/-- One row of the opcode map: a word is the command of the row iff `w & mask = match` (30_encoding.md R44). -/
structure OpRow where
  pattern : CmdWord
  mask : CmdWord
  command : Byte → Instr

/-- `w & mask = match` (30_encoding.md R44). -/
def OpRow.matches (r : OpRow) (w : CmdWord) : Bool := w &&& r.mask == r.pattern

/-- The control group, `op[7:4]` = 0 (30_encoding.md R44). -/
def controlRows : List OpRow :=
  [⟨0x0000, 0xFFFF, fun _ => .nop⟩, ⟨0x0100, 0xFFFF, fun _ => .clr⟩]

/-- The data-entry group, `op[7:4]` = 1, format P (30_encoding.md R44). -/
def entryRows : List OpRow :=
  [⟨0x1000, 0xFF00, .pushT⟩, ⟨0x1100, 0xFF00, .pushS⟩, ⟨0x1200, 0xFF00, .pushP⟩, ⟨0x1300, 0xFF00, .pushC⟩]

/-- The component group, `op[7:4]` = 2 (30_encoding.md R44). -/
def componentRows : List OpRow :=
  [⟨0x2000, 0xFFFF, fun _ => .count⟩, ⟨0x2100, 0xFFFF, fun _ => .build⟩, ⟨0x2200, 0xFFFF, fun _ => .gencode⟩,
   ⟨0x2300, 0xFFFF, fun _ => .pack⟩, ⟨0x2400, 0xFFFF, fun _ => .unpack⟩, ⟨0x2500, 0xFFFF, fun _ => .tser⟩,
   ⟨0x2600, 0xFFFF, fun _ => .tdes⟩, ⟨0x2700, 0xFFFF, fun _ => .cenc⟩, ⟨0x2800, 0xFFFF, fun _ => .cdec⟩]

/-- The pipeline group, `op[7:4]` = 3 (30_encoding.md R44). -/
def pipelineRows : List OpRow :=
  [⟨0x3000, 0xFFFF, fun _ => .compress⟩, ⟨0x3100, 0xFFFF, fun _ => .decompress⟩]

/-- The opcode map of 30_encoding.md R44. -/
def opRows : List OpRow := controlRows ++ entryRows ++ componentRows ++ pipelineRows

/-- Why a word is no command (30_encoding.md R46); all of them raise IllegalCommand when issued. -/
inductive Reject where
  /-- The opcode is a format C command's and the low byte is not 0x00. -/
  | lowByteNotZero
  /-- No row has the opcode: `op` 0x02 to 0x0F, 0x14 to 0x1F, 0x29 to 0x2F, 0x32 to 0xFF. -/
  | noSuchOpcode
  deriving DecidableEq, Repr

/-- The name of the rejection of a word that matches no row (30_encoding.md R46). -/
def rejectOf (w : CmdWord) : Reject :=
  if opRows.any (fun r => r.pattern.extractLsb' 8 8 == opField w) then .lowByteNotZero else .noSuchOpcode

/-- The decoder: the row that matches, with the operand of the word (30_encoding.md R44, R45), or the rejection. A word is
always consumed whole (30_encoding.md R47). -/
def decode (w : CmdWord) : Except Reject Instr :=
  match opRows.find? (·.matches w) with
  | some r => .ok (r.command (immField w))
  | none => .error (rejectOf w)

/-- A format C word: `op`, then 0x00 (30_encoding.md R43). -/
def formatC (op : BitVec 8) : CmdWord := op ++ (0x00 : BitVec 8)

/-- A format P word: 0x1, 00, the buffer id `b`, then `imm8` (30_encoding.md R43). -/
def formatP (b : BitVec 2) (imm8 : Byte) : CmdWord := (0x1 : BitVec 4) ++ (0 : BitVec 2) ++ b ++ imm8

/-- The encoder: the `op` column of 30_encoding.md R44 in the formats of R43. -/
def encode : Instr → CmdWord
  | .nop => formatC 0x00
  | .clr => formatC 0x01
  | .pushT v => formatP 0 v
  | .pushS v => formatP 1 v
  | .pushP v => formatP 2 v
  | .pushC v => formatP 3 v
  | .count => formatC 0x20
  | .build => formatC 0x21
  | .gencode => formatC 0x22
  | .pack => formatC 0x23
  | .unpack => formatC 0x24
  | .tser => formatC 0x25
  | .tdes => formatC 0x26
  | .cenc => formatC 0x27
  | .cdec => formatC 0x28
  | .compress => formatC 0x30
  | .decompress => formatC 0x31

/-- The instruction the decoder reads from a command word given as a number, bit 0 the least significant bit; the bits at
and above `nbits` are 0. A command is one 16-bit word and is not stored as bytes anywhere, so no byte order enters
(20_memory.md R33; log 13). -/
def decodeTableWord (nbits w : Nat) : Option Instr :=
  match decode (BitVec.ofNat 16 (w % 2 ^ nbits)) with
  | .ok i => some i
  | .error _ => none

end Sys2Proof
end

