-- ==== Sys2Proof/Machine/State.lean ====
section
/-! DEFINITION. The state of the core as plain data (10_state.md R10 to R25), its value after reset, and the reasons a
step can stop. -/

namespace Sys2Proof.Machine

/-- The four byte buffers (10_state.md R13; 20_memory.md R30). -/
inductive BufId where
  | text
  | treeb
  | pay
  | cont
  deriving DecidableEq, Repr

/-- The contents of the byte buffers. A buffer is a byte sequence whose length IS its length register (10_state.md R13):
offset `i` holds a byte iff `i` is below the length, and an offset at or above it holds nothing (log 4). -/
structure Memory where
  text : List Byte
  treeb : List Byte
  pay : List Byte
  cont : List Byte
  deriving DecidableEq, Repr

/-- One record of the node arena (10_state.md R15). `freq` is a count of CNT_W bits, held as a natural number (log 6). -/
structure Node where
  freq : Nat
  leaf : Bool
  sym : Byte
  left : Idx
  right : Idx
  deriving DecidableEq, Repr

/-- One record of the code table (10_state.md R17): PAT_W = 127 bits of pattern, 7 bits of length. -/
structure CodeEntry where
  valid : Bool
  pat : BitVec 127
  len : BitVec 7
  deriving DecidableEq, Repr

/-- The entry of a symbol without a code (10_state.md R17, R25). -/
def CodeEntry.invalid : CodeEntry := ⟨false, 0, 0⟩

/-- The Frequency Table: 128 counters (10_state.md R14), each a count of CNT_W bits held as a natural number (log 6). -/
abbrev FreqTable := Vector Nat 128

/-- The Code Table: 128 records (10_state.md R17). -/
abbrev CodeTable := Vector CodeEntry 128

/-- `V_TREE`: the origin of the tree in the arena (10_state.md R18); the value 3 never occurs. -/
inductive TreeOrigin where
  | none
  | built
  | deser
  deriving DecidableEq, Repr

/-- A host operation (00_scope.md R5; 40_control_and_host.md R61, R69 to R74): a command word issued, a read port asked,
or reset applied. -/
inductive HostOp where
  | issue (w : CmdWord)
  | rdcsr (k : Nat)
  | rdbuf (b : Nat) (i : BitVec 32)
  | rdfreq (s : Nat)
  | rdnode (i : Idx)
  | rdcode (s : Nat)
  | reset
  deriving DecidableEq, Repr

/-- What a read port answers (30_encoding.md R55): a value, or a refusal (40_control_and_host.md R68). -/
inductive PortReply where
  | refused
  | csr (v : Csr)
  | byte (v : Byte)
  | count (n : Nat)
  | node (n : Node)
  | code (c : CodeEntry)
  deriving DecidableEq, Repr

/-- The state. The fields from `mem` to `errInfo` are the architectural state of 10_state.md R10, all of it and nothing
else; TEXT_LEN, TREEB_LEN, PAY_LEN, CONT_LEN and NNODES are the lengths of the sequences (10_state.md R13, R29; log 4,
log 5). `params`, `host` and `reply` are the model's own: the parameters (log 1), the host operations still to come
(log 2) and what the last port read answered (log 3). -/
structure State where
  /-- The OPEN parameters of 00_scope.md R6. -/
  params : Params
  /-- TEXT, TREEB, PAY, CONT with their lengths (R13). -/
  mem : Memory
  /-- FREQ[0..127] (R14). -/
  freq : FreqTable
  /-- NSYM (R20). -/
  nsym : BitVec 8
  /-- NODE[0 .. NNODES − 1] (R15, R16). -/
  nodes : List Node
  /-- ROOT (R16). -/
  root : Idx
  /-- CODE[0..127] (R17). -/
  code : CodeTable
  /-- V_FREQ (R18). -/
  vFreq : Bool
  /-- V_TREE (R18). -/
  vTree : TreeOrigin
  /-- V_CODE (R18). -/
  vCode : Bool
  /-- ERR (R19). -/
  err : BitVec 8
  /-- ERRINFO (R19). -/
  errInfo : BitVec 32
  /-- The host operations still to come, the next one first. -/
  host : List HostOp
  /-- What the last port read answered, if one was made. -/
  reply : Option PortReply
  deriving DecidableEq, Repr

/-- Empty buffers (10_state.md R25). -/
def Memory.empty : Memory := ⟨[], [], [], []⟩

/-- The state after reset of a core with parameters `p` (10_state.md R25; 70_reset_and_hazards.md R140), no host operation
pending and no port read made. -/
def State.resetWith (p : Params) : State where
  params := p
  mem := Memory.empty
  freq := Vector.replicate 128 0
  nsym := 0
  nodes := []
  root := 0
  code := Vector.replicate 128 CodeEntry.invalid
  vFreq := false
  vTree := .none
  vCode := false
  err := 0
  errInfo := 0
  host := []
  reply := none

/-- The machine right after reset, with the spec's reference parameters (00_scope.md R6; log 1). -/
def State.reset : State := State.resetWith Params.reference

/-- What the spec says cannot happen. None is an error of the core (those are next states: 60_exceptions.md R123); each is
SAFE: the model stops where the spec gives no value, and only in states that break 10_state.md R26 (log 8). -/
inductive Fault where
  /-- `MemRead` outside the length (20_memory.md R31: "it must not invent a byte"); raised by `memRead`. Safe. -/
  | memReadRange
  /-- A read of an arena entry at or above NNODES, which has no value (10_state.md R15); raised by `readNode`. Safe. -/
  | noNode
  /-- A traversal deeper than the arena has entries, so a cyclic arena (70_reset_and_hazards.md R143); raised by the walks
  of GENCODE and TSER. Safe. -/
  | endlessWalk
  /-- A leaf symbol above 127 in a tree marked BUILT, which has no entry in CODE (10_state.md R26 e); raised by GENCODE.
  Safe. -/
  | leafSymbol
  deriving DecidableEq, Repr

/-- Why an instruction has no meaning in this model. -/
inductive Refusal where
  /-- The instruction has no meaning yet; raised by an arm of `exec` only, and no arm raises it. Safe. -/
  | notModelled (mnemonic : String)
  deriving DecidableEq, Repr

end Sys2Proof.Machine
end

