-- ==== Sys2Proof/Machine/Ops.lean ====
section
/-! DEFINITION. The named operations over memory and registers (00_scope.md R8), the error kinds with their codes
(60_exceptions.md R122), raising an error and the return from it (60_exceptions.md R123, R138), and the running of a
command's steps (48_pipeline.md R117). -/

namespace Sys2Proof.Machine

/-! ### Buffers -/

/-- `id(b)`: TEXT 0, TREEB 1, PAY 2, CONT 3 (20_memory.md R30). -/
def BufId.id : BufId → Nat
  | .text => 0
  | .treeb => 1
  | .pay => 2
  | .cont => 3

/-- The content of buffer `b`. -/
def Memory.get (m : Memory) : BufId → List Byte
  | .text => m.text
  | .treeb => m.treeb
  | .pay => m.pay
  | .cont => m.cont

/-- The memory with the content of buffer `b` replaced by `bs`. -/
def Memory.set (m : Memory) (b : BufId) (bs : List Byte) : Memory :=
  match b with
  | .text => { m with text := bs }
  | .treeb => { m with treeb := bs }
  | .pay => { m with pay := bs }
  | .cont => { m with cont := bs }

/-- `LEN[b]` (00_scope.md R8). -/
abbrev Memory.len (m : Memory) (b : BufId) : Nat := (m.get b).length

/-- The read of one byte: byte `i` of buffer `b`, nothing at or above the length (10_state.md R13). -/
def Memory.read (m : Memory) (b : BufId) (i : Nat) : Option Byte := (m.get b)[i]?

/-- `CAP[b]` (00_scope.md R6, R8). -/
def cap (p : Params) : BufId → Nat
  | .text => p.textCap
  | .treeb => treebCap
  | .pay => p.payCap
  | .cont => p.contCap

/-- The form the memory keeps: every buffer within its capacity. A buffer has no other form to keep: equal contents are
equal sequences (log 4). -/
def Memory.wf (p : Params) (m : Memory) : Bool :=
  decide (m.len .text ≤ cap p .text) && decide (m.len .treeb ≤ cap p .treeb) && decide (m.len .pay ≤ cap p .pay) &&
    decide (m.len .cont ≤ cap p .cont)

/-- A buffer as address and byte pairs, from offset `off` on: the cells that hold a byte, addresses rising. -/
def bufferCells : Nat → List Byte → List Host.Cell
  | _, [] => []
  | off, v :: vs => (off, v) :: bufferCells (off + 1) vs

/-! ### Errors -/

/-- The twelve error kinds, each with its detail (60_exceptions.md R122). -/
inductive CoreError where
  | emptyInput
  | truncatedInput (section_ : Nat)
  | unrepresentableSymbol (node : Nat)
  | singleSymbolInput (sym : Byte)
  | malformedTree (pos : Nat)
  | degenerateTree (offset : Nat)
  | invalidSymbol (offset : Nat)
  | missingCode (offset : Nat)
  | bufferOverflow (b : BufId)
  | nodeOverflow (pos : Nat)
  | sequence (prerequisite : Nat)
  | illegalCommand (w : CmdWord)
  deriving DecidableEq, Repr

/-- The code written to ERR (60_exceptions.md R122). -/
def CoreError.code : CoreError → BitVec 8
  | .emptyInput => 1
  | .truncatedInput _ => 2
  | .unrepresentableSymbol _ => 3
  | .singleSymbolInput _ => 4
  | .malformedTree _ => 5
  | .degenerateTree _ => 6
  | .invalidSymbol _ => 7
  | .missingCode _ => 8
  | .bufferOverflow _ => 9
  | .nodeOverflow _ => 10
  | .sequence _ => 11
  | .illegalCommand _ => 12

/-- The detail written to ERRINFO (60_exceptions.md R122). Offsets and positions are below 2^32 (log 11). -/
def CoreError.info : CoreError → BitVec 32
  | .emptyInput => 0
  | .truncatedInput k => BitVec.ofNat 32 k
  | .unrepresentableSymbol i => BitVec.ofNat 32 i
  | .singleSymbolInput s => s.setWidth 32
  | .malformedTree pos => BitVec.ofNat 32 pos
  | .degenerateTree i => BitVec.ofNat 32 i
  | .invalidSymbol i => BitVec.ofNat 32 i
  | .missingCode i => BitVec.ofNat 32 i
  | .bufferOverflow b => BitVec.ofNat 32 b.id
  | .nodeOverflow pos => BitVec.ofNat 32 pos
  | .sequence k => BitVec.ofNat 32 k
  | .illegalCommand w => w.setWidth 32

/-- How a command's computation ends short of its commit: by `raise` (00_scope.md R8), or in a fault of the model. -/
inductive Stop where
  | raise (e : CoreError)
  | fault (f : Fault)
  deriving DecidableEq, Repr

/-- `raise E(info)` (00_scope.md R8). -/
def raise {α : Type} (e : CoreError) : Except Stop α := .error (.raise e)

/-- A fault of the model, where the spec gives no value (log 8). -/
def stuck {α : Type} (f : Fault) : Except Stop α := .error (.fault f)

/-! ### Updates of the state -/

/-- TAKING AN EXCEPTION, item (c) of 60_exceptions.md R123: ERR and ERRINFO are written and nothing else is. -/
def State.raiseError (s : State) (e : CoreError) : State := { s with err := e.code, errInfo := e.info }

/-- THE RETURN FROM AN ERROR (60_exceptions.md R138), the effect of CLR and of reset (40_control_and_host.md R63;
70_reset_and_hazards.md R140): every piece of state takes its reset value. -/
def State.clear (s : State) : State := { State.resetWith s.params with host := s.host, reply := s.reply }

/-- `Commit(b, out)` (00_scope.md R8): the whole content of buffer `b` becomes `out`. -/
def State.commit (s : State) (b : BufId) (out : List Byte) : State := { s with mem := s.mem.set b out }

/-- COUNT's writes: FREQ, NSYM, V_FREQ = 1 (41_symbol_table.md R75). -/
def State.setFreq (s : State) (f : FreqTable) (n : BitVec 8) : State := { s with freq := f, nsym := n, vFreq := true }

/-- The writes of BUILD and TDES: NODE and NNODES, ROOT, V_TREE (42_tree_builder.md R80; 46_tree_codec.md R105). -/
def State.setTree (s : State) (ns : List Node) (root : Nat) (origin : TreeOrigin) : State :=
  { s with nodes := ns, root := BitVec.ofNat 16 root, vTree := origin }

/-- GENCODE's writes: CODE, V_CODE = 1 (43_code_table.md R85). -/
def State.setCode (s : State) (c : CodeTable) : State := { s with code := c, vCode := true }

/-- The host's side: the operations still to come. -/
def State.setHost (s : State) (ops : List HostOp) : State := { s with host := ops }

/-- The host's side: the answer of a port read. -/
def State.setReply (s : State) (r : PortReply) : State := { s with reply := some r }

/-! ### Reads and emission -/

/-- A byte sequence as one unsigned integer, first byte most significant (20_memory.md R33). -/
def bigEndian (bs : List Byte) : Nat := bs.foldl (fun acc v => acc * 256 + v.toNat) 0

/-- `MemRead(b, addr, n)` on the content of the buffer (00_scope.md R8): defined only when `addr + n ≤ LEN[b]`
(20_memory.md R31). -/
def memRead (bs : List Byte) (addr n : Nat) : Except Stop Nat :=
  if addr + n ≤ bs.length then .ok (bigEndian ((bs.drop addr).take n)) else stuck .memReadRange

/-- `NODE[i]` (00_scope.md R8): an entry at or above NNODES has no value (10_state.md R15). -/
def readNode (ns : List Node) (i : Nat) : Except Stop Node :=
  match ns[i]? with
  | some n => .ok n
  | none => stuck .noNode

/-- `Emit(out, b, v)` (00_scope.md R8), `capacity` being `CAP[b]`. -/
def emit (b : BufId) (capacity : Nat) (out : List Byte) (v : Byte) : Except Stop (List Byte) :=
  if out.length = capacity then raise (.bufferOverflow b) else .ok (out ++ [v])

/-- `Emit` of each byte of a sequence in order. -/
def emitAll (b : BufId) (capacity : Nat) : List Byte → List Byte → Except Stop (List Byte)
  | out, [] => .ok out
  | out, v :: vs =>
    match emit b capacity out v with
    | .ok out' => emitAll b capacity out' vs
    | .error e => .error e

/-- Bits `8 k + 7` down to `8 k` of a register value (00_scope.md R7). -/
def byteOf (v : Csr) (k : Nat) : Byte := v.extractLsb' (8 * k) 8

/-- The bits of a byte, most significant first (20_memory.md R34). -/
def bitsMsb (v : Byte) : List Bool := [7, 6, 5, 4, 3, 2, 1, 0].map v.getLsbD

/-! ### Running a command -/

/-- What one step of a command computes: the state after its commit, or how it stopped. -/
abbrev CmdStep := State → Except Stop State

/-- A command stops at state `s`: an error is recorded there (60_exceptions.md R123), a fault stops the machine. -/
def stopAt (s : State) : Stop → Host.Outcome State Fault Refusal
  | .raise e => .next (s.raiseError e)
  | .fault f => .fault f

/-- Steps in order as one atomic operation, stopping at the first that raises; completed steps keep their effects and the
failing step writes nothing (48_pipeline.md R117). A component command is the case of one step. -/
def runSteps : List CmdStep → State → Host.Outcome State Fault Refusal
  | [], s => .next s
  | f :: fs, s =>
    match f s with
    | .ok s' => runSteps fs s'
    | .error e => stopAt s e

end Sys2Proof.Machine
end

