-- ==== Sys2Proof/Machine/Operands.lean ====
section
/-! DEFINITION. The operand forms (30_encoding.md R45): the only operand of a command is the byte `imm8`, used unsigned and
unscaled, and the buffer a PUSH selects by `w[9:8]`. -/

namespace Sys2Proof.Machine

/-- The buffer of the id field `b` = `w[9:8]` (30_encoding.md R43, R45). -/
def bufOfField (b : BitVec 2) : BufId :=
  match b.toNat with
  | 0 => .text
  | 1 => .treeb
  | 2 => .pay
  | _ => .cont

/-- The buffer of a port's operand `b`, where it is one: `b ≤ 3` (40_control_and_host.md R70). -/
def bufOfNat : Nat → Option BufId
  | 0 => some .text
  | 1 => some .treeb
  | 2 => some .pay
  | 3 => some .cont
  | _ => none

/-- The byte a PUSH appends is `imm8` as it stands: no sign extension, scaling or shifting (30_encoding.md R45). -/
def immByte (imm8 : Byte) : Byte := imm8

/-- `Push(b, v)` (40_control_and_host.md section 3): append `v` at the current length, or BufferOverflow(b) when the buffer
is full. -/
def pushStep (b : BufId) (v : Byte) : CmdStep := fun s =>
  if s.mem.len b = cap s.params b then raise (.bufferOverflow b) else .ok (s.commit b (s.mem.get b ++ [v]))

end Sys2Proof.Machine
end

