-- ==== Sys2Proof/Machine/Control.lean ====
section
/-! DEFINITION. The control and data-entry commands NOP, CLR, PUSH.T, PUSH.S, PUSH.P, PUSH.C (40_control_and_host.md
sections 2 and 3). -/

namespace Sys2Proof.Machine

/-- NOP: no effect (R62). -/
def execNop (s : State) : Host.Outcome State Fault Refusal := .next s

/-- CLR: every piece of state to its reset value (R63). -/
def execClr (s : State) : Host.Outcome State Fault Refusal := .next s.clear

/-- PUSH.T imm8: `Push(0, imm8)` (R64). -/
def execPushT (imm8 : Byte) (s : State) : Host.Outcome State Fault Refusal :=
  runSteps [pushStep (bufOfField 0) (immByte imm8)] s

/-- PUSH.S imm8: `Push(1, imm8)` (R65). -/
def execPushS (imm8 : Byte) (s : State) : Host.Outcome State Fault Refusal :=
  runSteps [pushStep (bufOfField 1) (immByte imm8)] s

/-- PUSH.P imm8: `Push(2, imm8)` (R66). -/
def execPushP (imm8 : Byte) (s : State) : Host.Outcome State Fault Refusal :=
  runSteps [pushStep (bufOfField 2) (immByte imm8)] s

/-- PUSH.C imm8: `Push(3, imm8)` (R67). -/
def execPushC (imm8 : Byte) (s : State) : Host.Outcome State Fault Refusal :=
  runSteps [pushStep (bufOfField 3) (immByte imm8)] s

end Sys2Proof.Machine
end

