-- ==== Sys2Proof/Machine/Flags.lean ====
section
/-! DEFINITION. The flags: the three valid flags, their prerequisites (10_state.md R18; 60_exceptions.md R134), and the
STATUS register they and ERR are read through (10_state.md R22). There are no arithmetic flags. -/

namespace Sys2Proof.Machine

/-- The 2-bit value of `V_TREE`: 0 NONE, 1 BUILT, 2 DESER (10_state.md R18). -/
def TreeOrigin.bits : TreeOrigin → BitVec 2
  | .none => 0
  | .built => 1
  | .deser => 2

/-- STATUS (10_state.md R22): ERR in [7:0], V_FREQ in [8], V_CODE in [9], V_TREE in [11:10], 0 above. -/
def statusWord (s : State) : Csr :=
  (0 : BitVec 20) ++ s.vTree.bits ++ BitVec.ofBool s.vCode ++ BitVec.ofBool s.vFreq ++ s.err

/-- BUILD's prerequisite `V_FREQ = 1`, else Sequence 1 (60_exceptions.md R134). -/
def requireFreq (s : State) : Except Stop Unit :=
  if s.vFreq = false then raise (.sequence 1) else .ok ()

/-- The prerequisite `V_TREE ≠ 0` of UNPACK and TSER, else Sequence 2 (60_exceptions.md R134). -/
def requireTree (s : State) : Except Stop Unit :=
  if s.vTree = .none then raise (.sequence 2) else .ok ()

/-- GENCODE's prerequisite `V_TREE = 1`: Sequence 2 without a tree, Sequence 4 with a deserialized one, tested in that
order (60_exceptions.md R134, R137 c). -/
def requireBuilt (s : State) : Except Stop Unit :=
  match s.vTree with
  | .none => raise (.sequence 2)
  | .deser => raise (.sequence 4)
  | .built => .ok ()

/-- PACK's prerequisite `V_CODE = 1`, else Sequence 3 (60_exceptions.md R134). -/
def requireCode (s : State) : Except Stop Unit :=
  if s.vCode = false then raise (.sequence 3) else .ok ()

/-- The number of symbols present in a frequency table, the value of NSYM (10_state.md R14, R20). -/
def presentCount (f : FreqTable) : Nat := f.toList.countP (fun n => decide (0 < n))

end Sys2Proof.Machine
end

