-- ==== Sys2Proof/Machine/BitPacker.lean ====
section
/-! DEFINITION. The Bit Packer: PACK (44_bit_packer.md). -/

namespace Sys2Proof.Machine

/-- The working values of PACK: the accumulator of ACC_W = 134 bits, its count of valid low bits, the bytes emitted (R90). -/
structure PackState where
  acc : BitVec 134
  nbits : Nat
  out : List Byte
  deriving DecidableEq, Repr

/-- The top 8 of the `nbits` valid bits of the accumulator, `(acc >> (nbits − 8)) & 0xFF` (R90). -/
def topByte (acc : BitVec 134) (nbits : Nat) : Byte := (acc >>> (nbits - 8)).setWidth 8

/-- The remainder kept after an emission, `acc & ((1 << nbits) − 1)` (R90). -/
def keepLow (acc : BitVec 134) (nbits : Nat) : BitVec 134 := acc &&& (((1 : BitVec 134) <<< nbits) - 1)

/-- The loop `while nbits >= 8` of PACK (R90, R91). It runs `nbits / 8` times, so a fuel of `nbits` never runs out. -/
def drain (capacity : Nat) : Nat → PackState → Except Stop PackState
  | 0, p => .ok p
  | fuel + 1, p =>
    if 8 ≤ p.nbits then
      match emit .pay capacity p.out (topByte p.acc p.nbits) with
      | .error e => .error e
      | .ok out => drain capacity fuel ⟨keepLow p.acc (p.nbits - 8), p.nbits - 8, out⟩
    else .ok p

/-- Shift the code word into the accumulator: `(acc << len) | pat` (R90). -/
def shiftIn (p : PackState) (e : CodeEntry) : PackState :=
  ⟨(p.acc <<< e.len.toNat) ||| e.pat.setWidth 134, p.nbits + e.len.toNat, p.out⟩

/-- The symbol loop of PACK (R90), from offset `i` on: InvalidSymbol before MissingCode at one offset, the bytes of a symbol
emitted before the next symbol is looked at (60_exceptions.md R137 d). -/
def packFrom (code : CodeTable) (capacity : Nat) : List Byte → Nat → PackState → Except Stop PackState
  | [], _, p => .ok p
  | v :: vs, i, p =>
    if h : v.toNat < 128 then
      if code[v.toNat].valid = false then raise (.missingCode i)
      else
        match drain capacity (shiftIn p code[v.toNat]).nbits (shiftIn p code[v.toNat]) with
        | .error e => .error e
        | .ok p' => packFrom code capacity vs (i + 1) p'
    else raise (.invalidSymbol i)

/-- The final partial byte, `(acc << (8 − nbits)) & 0xFF`, when bits remain (R92). -/
def padLast (capacity : Nat) (p : PackState) : Except Stop (List Byte) :=
  if 0 < p.nbits then emit .pay capacity p.out ((p.acc <<< (8 - p.nbits)).setWidth 8) else .ok p.out

/-- PACK (R90): TEXT encoded with CODE replaces PAY. -/
def packStep : CmdStep := fun s =>
  match requireCode s with
  | .error e => .error e
  | .ok () =>
    match packFrom s.code (cap s.params .pay) s.mem.text 0 ⟨0, 0, []⟩ with
    | .error e => .error e
    | .ok p =>
      match padLast (cap s.params .pay) p with
      | .error e => .error e
      | .ok out => .ok (s.commit .pay out)

/-- PACK issued as a command (R90). -/
def execPack (s : State) : Host.Outcome State Fault Refusal := runSteps [packStep] s

end Sys2Proof.Machine
end

