-- ==== Sys2Proof/Machine/BitUnpacker.lean ====
section
/-! DEFINITION. The Bit Unpacker: UNPACK (45_bit_unpacker.md). -/

namespace Sys2Proof.Machine

/-- The working values of UNPACK: the current node and the symbols emitted (R96). -/
structure UnpackState where
  cur : Nat
  out : List Byte
  deriving DecidableEq, Repr

/-- One bit of UNPACK (R96) of payload byte `i`: DegenerateTree at a leaf (R97), else 0 moves left and 1 right; a leaf
reached emits its symbol and returns to the root. -/
def unpackBit (ns : List Node) (root capacity i : Nat) (u : UnpackState) (bit : Bool) : Except Stop UnpackState :=
  match readNode ns u.cur with
  | .error e => .error e
  | .ok n =>
    if n.leaf then raise (.degenerateTree i)
    else
      let next := if bit then n.right.toNat else n.left.toNat
      match readNode ns next with
      | .error e => .error e
      | .ok c =>
        if c.leaf then
          match emit .text capacity u.out c.sym with
          | .error e => .error e
          | .ok out => .ok ⟨root, out⟩
        else .ok ⟨next, u.out⟩

/-- The bits of one payload byte in stream order (R96). -/
def unpackBits (ns : List Node) (root capacity i : Nat) : List Bool → UnpackState → Except Stop UnpackState
  | [], u => .ok u
  | b :: bs, u =>
    match unpackBit ns root capacity i u b with
    | .error e => .error e
    | .ok u' => unpackBits ns root capacity i bs u'

/-- The payload bytes from offset `i` on (R96, R99). -/
def unpackFrom (ns : List Node) (root capacity : Nat) : List Byte → Nat → UnpackState → Except Stop UnpackState
  | [], _, u => .ok u
  | v :: vs, i, u =>
    match unpackBits ns root capacity i (bitsMsb v) u with
    | .error e => .error e
    | .ok u' => unpackFrom ns root capacity vs (i + 1) u'

/-- UNPACK (R96): PAY decoded with the tree replaces TEXT; an unfinished path is dropped (R98). -/
def unpackStep : CmdStep := fun s =>
  match requireTree s with
  | .error e => .error e
  | .ok () =>
    match unpackFrom s.nodes s.root.toNat (cap s.params .text) s.mem.pay 0 ⟨s.root.toNat, []⟩ with
    | .error e => .error e
    | .ok u => .ok (s.commit .text u.out)

/-- UNPACK issued as a command (R96). -/
def execUnpack (s : State) : Host.Outcome State Fault Refusal := runSteps [unpackStep] s

end Sys2Proof.Machine
end

