-- ==== Sys2Proof/Machine/CodeTable.lean ====
section
/-! DEFINITION. The Code Table Generator: GENCODE (43_code_table.md). -/

namespace Sys2Proof.Machine

/-- A code word as a table record: PAT_W = 127 bits of pattern, 7 bits of length (10_state.md R17). A BUILT tree is at most
127 deep, so nothing is lost (R85; log 12). -/
def codeWord (pat len : Nat) : CodeEntry := ⟨true, BitVec.ofNat 127 pat, BitVec.ofNat 7 len⟩

/-- `Visit(i, pat, len)` of GENCODE (R85) on the local table `c`. The first argument bounds the depth of the walk: a tree of
N nodes is at most N nodes deep. -/
def visit (ns : List Node) : Nat → Nat → Nat → Nat → CodeTable → Except Stop CodeTable
  | 0, _, _, _, _ => stuck .endlessWalk
  | fuel + 1, i, pat, len, c =>
    match readNode ns i with
    | .error e => .error e
    | .ok n =>
      if n.leaf then
        if h : n.sym.toNat < 128 then .ok (c.set n.sym.toNat (codeWord pat len)) else stuck .leafSymbol
      else
        match visit ns fuel n.left.toNat (pat * 2) (len + 1) c with
        | .error e => .error e
        | .ok c' => visit ns fuel n.right.toNat (pat * 2 + 1) (len + 1) c'

/-- GENCODE (R85, R88): the old table is wholly replaced by the codes of the tree, V_CODE is set. -/
def gencodeStep : CmdStep := fun s =>
  match requireBuilt s with
  | .error e => .error e
  | .ok () =>
    match visit s.nodes s.nodes.length s.root.toNat 0 0 (Vector.replicate 128 CodeEntry.invalid) with
    | .ok c => .ok (s.setCode c)
    | .error e => .error e

/-- GENCODE issued as a command (R85). -/
def execGencode (s : State) : Host.Outcome State Fault Refusal := runSteps [gencodeStep] s

end Sys2Proof.Machine
end

