-- ==== Sys2Proof/Machine/Container.lean ====
section
/-! DEFINITION. The Container Format: CENC and CDEC (47_container.md). -/

namespace Sys2Proof.Machine

/-- The six header bytes: `tree_len` in 2 bytes, `payload_len` in 4, both big-endian (R110). -/
def containerHeader (tl pl : Csr) : List Byte :=
  [byteOf tl 1, byteOf tl 0, byteOf pl 3, byteOf pl 2, byteOf pl 1, byteOf pl 0]

/-- CENC (R110): header, TREEB, PAY replace CONT. -/
def cencStep : CmdStep := fun s =>
  let tl := BitVec.ofNat 32 (s.mem.len .treeb)
  let pl := BitVec.ofNat 32 (s.mem.len .pay)
  match emitAll .cont (cap s.params .cont) [] (containerHeader tl pl ++ s.mem.treeb ++ s.mem.pay) with
  | .error e => .error e
  | .ok out => .ok (s.commit .cont out)

/-- CENC issued as a command (R110). -/
def execCenc (s : State) : Host.Outcome State Fault Refusal := runSteps [cencStep] s

/-- CDEC after the two length fields are read: the tests in the order written, then both commits (R112, R113). -/
def splitContainer (s : State) (tl pl : Nat) : Except Stop State :=
  let n := s.mem.len .cont
  if n - 6 < tl then raise (.truncatedInput 1)
  else if n - 6 - tl < pl then raise (.truncatedInput 2)
  else if pl > s.params.payCap then raise (.bufferOverflow .pay)
  else .ok ((s.commit .treeb ((s.mem.cont.drop 6).take tl)).commit .pay ((s.mem.cont.drop (6 + tl)).take pl))

/-- CDEC (R112): the container in CONT is split into TREEB and PAY; excess bytes are ignored (R114). -/
def cdecStep : CmdStep := fun s =>
  if s.mem.len .cont < 6 then raise (.truncatedInput 0)
  else
    match memRead s.mem.cont 0 2 with
    | .error e => .error e
    | .ok tl =>
      match memRead s.mem.cont 2 4 with
      | .error e => .error e
      | .ok pl => splitContainer s tl pl

/-- CDEC issued as a command (R112). -/
def execCdec (s : State) : Host.Outcome State Fault Refusal := runSteps [cdecStep] s

end Sys2Proof.Machine
end

