-- ==== Sys2Proof/Machine/SymbolTable.lean ====
section
/-! DEFINITION. The Symbol Table: COUNT (41_symbol_table.md). -/

namespace Sys2Proof.Machine

/-- The counting loop of COUNT (R75): the bytes from offset `i` on, into the local table `f`. The first byte of 128 or more
raises InvalidSymbol with its offset (R76). -/
def countFrom : List Byte → Nat → FreqTable → Except Stop FreqTable
  | [], _, f => .ok f
  | v :: vs, i, f =>
    if h : v.toNat < 128 then countFrom vs (i + 1) (f.set v.toNat (f[v.toNat] + 1)) else raise (.invalidSymbol i)

/-- COUNT (R75): the old table is wholly replaced, NSYM is the number of symbols present, V_FREQ is set. -/
def countStep : CmdStep := fun s =>
  match countFrom s.mem.text 0 (Vector.replicate 128 0) with
  | .ok f => .ok (s.setFreq f (BitVec.ofNat 8 (presentCount f)))
  | .error e => .error e

/-- COUNT issued as a command (R75). -/
def execCount (s : State) : Host.Outcome State Fault Refusal := runSteps [countStep] s

end Sys2Proof.Machine
end

