-- ==== Sys2Proof/Machine/TreeBuilder.lean ====
section
/-! DEFINITION. The Tree Builder, the priority-queue node merger: BUILD (42_tree_builder.md). -/

namespace Sys2Proof.Machine

/-- An entry of the priority queue: a node index with its key, `(NODE[i].freq, i)` (R79). -/
structure PqEntry where
  freq : Nat
  idx : Nat
  deriving DecidableEq, Repr

/-- `key(i) < key(j)`: by frequency, then by node index (R79). -/
def PqEntry.before (a b : PqEntry) : Bool := decide (a.freq < b.freq) || (decide (a.freq = b.freq) && decide (a.idx < b.idx))

/-- `PopMin()` on the non-empty queue `k :: ks`: the entry of the smallest key, and the others (R79). -/
def popMin : PqEntry → List PqEntry → PqEntry × List PqEntry
  | k, [] => (k, [])
  | k, x :: xs =>
    let (m, rest) := popMin x xs
    if k.before m then (k, x :: xs) else (m, k :: rest)

/-- The leaf of symbol `sym` with count `n` (R80). -/
def leafNode (n sym : Nat) : Node := ⟨n, true, BitVec.ofNat 8 sym, 0, 0⟩

/-- The leaves of the present symbols, ascending, the counters being those of the symbols from `sym` on (R80). -/
def leavesFrom : List Nat → Nat → List Node
  | [], _ => []
  | n :: ns, sym => if 0 < n then leafNode n sym :: leavesFrom ns (sym + 1) else leavesFrom ns (sym + 1)

/-- The merge of the first pop `a` (left) and the second pop `b` (right): the frequency is their sum (R80). -/
def mergedNode (a b : PqEntry) : Node := ⟨a.freq + b.freq, false, 0, BitVec.ofNat 16 a.idx, BitVec.ofNat 16 b.idx⟩

/-- The queue entries of the nodes from index `i` on: `PQ.Seed` (R80). -/
def seedFrom : List Node → Nat → List PqEntry
  | [], _ => []
  | n :: ns, i => ⟨n.freq, i⟩ :: seedFrom ns (i + 1)

/-- The loop `while |PQ| > 1` of BUILD (R80) on the queue `k :: ks`, the arena so far being `ns`: it answers the arena and
the one index left. A queue of `n` entries takes `n − 1` merges, so a fuel of `n − 1` or more never runs out. -/
def mergeLoop : Nat → List Node → PqEntry → List PqEntry → List Node × Nat
  | 0, ns, k, _ => (ns, k.idx)
  | fuel + 1, ns, k, ks =>
    match popMin k ks with
    | (a, []) => (ns, a.idx)
    | (a, x :: xs) =>
      let (b, rest) := popMin x xs
      mergeLoop fuel (ns ++ [mergedNode a b]) ⟨a.freq + b.freq, ns.length⟩ rest

/-- BUILD (R80, R81): Sequence 1 without a table, EmptyInput on an empty one, else the tree of the greedy merge. -/
def buildStep : CmdStep := fun s =>
  match requireFreq s with
  | .error e => .error e
  | .ok () =>
    let leaves := leavesFrom s.freq.toList 0
    match seedFrom leaves 0 with
    | [] => raise .emptyInput
    | k :: ks =>
      let (ns, r) := mergeLoop ks.length leaves k ks
      .ok (s.setTree ns r .built)

/-- BUILD issued as a command (R80). -/
def execBuild (s : State) : Host.Outcome State Fault Refusal := runSteps [buildStep] s

end Sys2Proof.Machine
end

