-- ==== Sys2Proof/Machine/TreeCodec.lean ====
section
/-! DEFINITION. The Tree Codec: TSER and TDES (46_tree_codec.md). -/

namespace Sys2Proof.Machine

/-- `Ser(i)` of TSER (R102) onto the bytes `out`: the node, the left subtree, the right subtree; UnrepresentableSymbol at a
leaf of symbol 0 (R103). The first argument bounds the depth of the walk: a tree of N nodes is at most N nodes deep. -/
def serialize (ns : List Node) : Nat → Nat → List Byte → Except Stop (List Byte)
  | 0, _, _ => stuck .endlessWalk
  | fuel + 1, i, out =>
    match readNode ns i with
    | .error e => .error e
    | .ok n =>
      if n.leaf then
        if n.sym = 0 then raise (.unrepresentableSymbol i) else emit .treeb treebCap out n.sym
      else
        match emit .treeb treebCap out 0x00 with
        | .error e => .error e
        | .ok out1 =>
          match serialize ns fuel n.left.toNat out1 with
          | .error e => .error e
          | .ok out2 => serialize ns fuel n.right.toNat out2

/-- TSER (R102): the serialized tree replaces TREEB. -/
def tserStep : CmdStep := fun s =>
  match requireTree s with
  | .error e => .error e
  | .ok () =>
    match serialize s.nodes s.nodes.length s.root.toNat [] with
    | .error e => .error e
    | .ok out => .ok (s.commit .treeb out)

/-- TSER issued as a command (R102). -/
def execTser (s : State) : Host.Outcome State Fault Refusal := runSteps [tserStep] s

/-- The working values of TDES: the read position and the nodes allocated so far, `cnt` being their number (R105). -/
structure ParseState where
  pos : Nat
  nodes : List Node
  deriving DecidableEq, Repr

/-- The leaf TDES writes for the byte `v` (R105). -/
def deserLeaf (v : Byte) : Node := ⟨0, true, v, 0, 0⟩

/-- The internal node TDES writes over the children `l` and `r` (R105). -/
def deserNode (l r : Nat) : Node := ⟨0, false, 0, BitVec.ofNat 16 l, BitVec.ofNat 16 r⟩

/-- `Parse()` of TDES (R105): it answers the index of the node it builds. An internal node is allocated before its subtrees
are parsed and written after. The first argument bounds the depth of the recursion: each level has consumed a byte, so
a depth of TREEB_LEN + 1 is never exceeded. -/
def parse (treeb : List Byte) (nodeCap : Nat) : Nat → ParseState → Except Stop (Nat × ParseState)
  | 0, _ => stuck .endlessWalk
  | fuel + 1, p =>
    match treeb[p.pos]? with
    | none => raise (.malformedTree p.pos)
    | some v =>
      if p.nodes.length = nodeCap then raise (.nodeOverflow p.pos)
      else if v ≠ 0 then .ok (p.nodes.length, ⟨p.pos + 1, p.nodes ++ [deserLeaf v]⟩)
      else
        match parse treeb nodeCap fuel ⟨p.pos + 1, p.nodes ++ [deserNode 0 0]⟩ with
        | .error e => .error e
        | .ok (l, p1) =>
          match parse treeb nodeCap fuel p1 with
          | .error e => .error e
          | .ok (r, p2) => .ok (p.nodes.length, ⟨p2.pos, p2.nodes.set p.nodes.length (deserNode l r)⟩)

/-- TDES (R105): the tree of TREEB replaces the arena, ROOT = 0; bytes after the tree are ignored (R108). -/
def tdesStep : CmdStep := fun s =>
  match parse s.mem.treeb s.params.nodeCap (s.mem.len .treeb + 1) ⟨0, []⟩ with
  | .error e => .error e
  | .ok (r, p) => .ok (s.setTree p.nodes r .deser)

/-- TDES issued as a command (R105). -/
def execTdes (s : State) : Host.Outcome State Fault Refusal := runSteps [tdesStep] s

end Sys2Proof.Machine
end

