-- ==== Sys2Proof/Machine/Pipeline.lean ====
section
/-! DEFINITION. The pipeline commands COMPRESS and DECOMPRESS (48_pipeline.md). -/

namespace Sys2Proof.Machine

/-- Step 3 of COMPRESS: SingleSymbolInput with the symbol when the tree has a single node (R116, R118). -/
def singleSymbolStep : CmdStep := fun s =>
  match s.nodes with
  | [n] => raise (.singleSymbolInput n.sym)
  | _ => .ok s

/-- The seven steps of COMPRESS in order (R116). -/
def compressSteps : List CmdStep :=
  [countStep, buildStep, singleSymbolStep, gencodeStep, packStep, tserStep, cencStep]

/-- COMPRESS (R116, R117). -/
def execCompress (s : State) : Host.Outcome State Fault Refusal := runSteps compressSteps s

/-- The three steps of DECOMPRESS in order (R119). -/
def decompressSteps : List CmdStep := [cdecStep, tdesStep, unpackStep]

/-- DECOMPRESS (R119, R117). -/
def execDecompress (s : State) : Host.Outcome State Fault Refusal := runSteps decompressSteps s

end Sys2Proof.Machine
end

