-- ==== Sys2Proof/Machine/Dispatch.lean ====
section
/-! DEFINITION. The meaning of each command, one direct call an arm. -/

namespace Sys2Proof.Machine

/-- The execution of a command (30_encoding.md R44 names the rule of each). Every rule is written for `ERR = 0` on entry;
the check of ERR is the issue's (40_control_and_host.md R61; log 7). -/
def exec (i : Instr) (s : State) : Host.Outcome State Fault Refusal :=
  match i with
  | .nop => Sys2Proof.Machine.execNop s
  | .clr => Sys2Proof.Machine.execClr s
  | .pushT imm8 => Sys2Proof.Machine.execPushT imm8 s
  | .pushS imm8 => Sys2Proof.Machine.execPushS imm8 s
  | .pushP imm8 => Sys2Proof.Machine.execPushP imm8 s
  | .pushC imm8 => Sys2Proof.Machine.execPushC imm8 s
  | .count => Sys2Proof.Machine.execCount s
  | .build => Sys2Proof.Machine.execBuild s
  | .gencode => Sys2Proof.Machine.execGencode s
  | .pack => Sys2Proof.Machine.execPack s
  | .unpack => Sys2Proof.Machine.execUnpack s
  | .tser => Sys2Proof.Machine.execTser s
  | .tdes => Sys2Proof.Machine.execTdes s
  | .cenc => Sys2Proof.Machine.execCenc s
  | .cdec => Sys2Proof.Machine.execCdec s
  | .compress => Sys2Proof.Machine.execCompress s
  | .decompress => Sys2Proof.Machine.execDecompress s

end Sys2Proof.Machine
end

