-- ==== Sys2Proof/Machine/Ports.lean ====
section
/-! DEFINITION. The five host read ports (40_control_and_host.md section 4): a value, or nothing where the read is refused.
None of them changes any state, whatever ERR holds (R68). -/

namespace Sys2Proof.Machine

/-- NNODES, the number of arena entries in use (10_state.md R16; log 5). -/
def State.nnodes (s : State) : Nat := s.nodes.length

/-- RDCSR(k): the nine registers of 10_state.md R21 (R69). -/
def rdCsr (s : State) : Nat → Option Csr
  | 0 => some (statusWord s)
  | 1 => some s.errInfo
  | 2 => some (BitVec.ofNat 32 (s.mem.len .text))
  | 3 => some (BitVec.ofNat 32 (s.mem.len .treeb))
  | 4 => some (BitVec.ofNat 32 (s.mem.len .pay))
  | 5 => some (BitVec.ofNat 32 (s.mem.len .cont))
  | 6 => some (s.root.setWidth 32)
  | 7 => some (BitVec.ofNat 32 s.nnodes)
  | 8 => some (s.nsym.setWidth 32)
  | _ => none

/-- RDBUF(b, i): byte `i` of buffer `b`, for `b ≤ 3` and `i < LEN[b]` (R70). -/
def rdBuf (s : State) (b : Nat) (i : BitVec 32) : Option Byte :=
  match bufOfNat b with
  | some buf => s.mem.read buf i.toNat
  | none => none

/-- RDFREQ(s): `FREQ[sym]`, for `sym ≤ 127` and V_FREQ = 1 (R71). -/
def rdFreq (s : State) (sym : Nat) : Option Nat := if s.vFreq then s.freq[sym]? else none

/-- RDNODE(i): `NODE[i]`, for V_TREE ≠ 0 and `i < NNODES` (R72). -/
def rdNode (s : State) (i : Idx) : Option Node := if s.vTree = .none then none else s.nodes[i.toNat]?

/-- RDCODE(s): `CODE[sym]`, for `sym ≤ 127` and V_CODE = 1 (R73). -/
def rdCode (s : State) (sym : Nat) : Option CodeEntry := if s.vCode then s.code[sym]? else none

/-- A port's answer: the value, or a refusal (R68). -/
def replyOf {α : Type} (value : α → PortReply) : Option α → PortReply
  | some v => value v
  | none => .refused

end Sys2Proof.Machine
end

