-- ==== Sys2Proof/Machine/Issue.lean ====
section
/-! DEFINITION. What the core does with each host operation: the issue of a command word (40_control_and_host.md R61), the
port reads (R68 to R73) and reset (70_reset_and_hazards.md R140). -/

namespace Sys2Proof.Machine

/-- The word of CLR, the only word executed while an error is pending (40_control_and_host.md R61). -/
def clrWord : CmdWord := 0x0100

/-- `Issue(w)` (40_control_and_host.md R61): with an error pending every word but CLR is ignored, before decoding; a word that
matches no row raises IllegalCommand with the word; else the command is executed. -/
def issue (w : CmdWord) (s : State) : Host.Outcome State Fault Refusal :=
  if s.err ≠ 0 ∧ w ≠ clrWord then .next s
  else
    match decode w with
    | .error _ => .next (s.raiseError (.illegalCommand w))
    | .ok i => exec i s

/-- One host operation (00_scope.md R5). A port read changes no state of the core (40_control_and_host.md R68): only the
host's record of the answer. Reset has the effect of CLR and needs no decoding (70_reset_and_hazards.md R140). -/
def hostStep (op : HostOp) (s : State) : Host.Outcome State Fault Refusal :=
  match op with
  | .issue w => issue w s
  | .rdcsr k => .next (s.setReply (replyOf .csr (rdCsr s k)))
  | .rdbuf b i => .next (s.setReply (replyOf .byte (rdBuf s b i)))
  | .rdfreq sym => .next (s.setReply (replyOf .count (rdFreq s sym)))
  | .rdnode i => .next (s.setReply (replyOf .node (rdNode s i)))
  | .rdcode sym => .next (s.setReply (replyOf .code (rdCode s sym)))
  | .reset => .next s.clear

/-- The next host operation is taken and done; while there is none the core waits unchanged (70_reset_and_hazards.md R143). -/
def nextOp (s : State) : Host.Outcome State Fault Refusal :=
  match s.host with
  | [] => .next s
  | op :: ops => hostStep op (s.setHost ops)

/-- The command word given as a number, bit 0 the least significant bit, the bits at and above `nbits` zero. -/
def wordOfNat (nbits w : Nat) : CmdWord := BitVec.ofNat 16 (w % 2 ^ nbits)

/-- The state in which the host's next operation is the issue of a command word, the rest of them unchanged. -/
def placeWord (s : State) (nbits w : Nat) : State := s.setHost (.issue (wordOfNat nbits w) :: s.host)

end Sys2Proof.Machine
end

