-- ==== Sys2Proof/Machine/Step.lean ====
section
/-! DEFINITION. One step of the machine: one host operation (00_scope.md R5). -/

namespace Sys2Proof.Machine

/-- One step: the next host operation (00_scope.md R5; 40_control_and_host.md R61). -/
def step (s : State) : Host.Outcome State Fault Refusal := nextOp s

/-- `s` with the issue of the word `w` placed as the host's next operation. The core fetches nothing and holds no program
(10_state.md R12): the host decides which word comes next, so placing the word there is all it takes (log 2). -/
def State.withFetchWord (s : State) (nbits w : Nat) : State := placeWord s nbits w

end Sys2Proof.Machine
end

