-- ==== Sys2Proof/Machine/Assembler.lean ====
section
/-! DEFINITION. The assembler notation of 30_encoding.md R48 and the two pseudo-instructions of R49, which are expanded
before anything is issued. What R48 leaves open in the text (blanks, quotes inside a string) is log 16. -/

namespace Sys2Proof.Machine

/-- The PUSH command of buffer `b` (30_encoding.md R48: `.T` TEXT, `.S` TREEB, `.P` PAY, `.C` CONT). -/
def pushInstr : BufId → Byte → Instr
  | .text => .pushT
  | .treeb => .pushS
  | .pay => .pushP
  | .cont => .pushC

/-- The pseudo-instructions (30_encoding.md R49). -/
inductive Pseudo where
  /-- `PUTS.x "string"`: the characters by their codes. -/
  | puts (b : BufId) (codes : List Byte)
  /-- `PUTB.x hh hh ...`. -/
  | putb (b : BufId) (bytes : List Byte)
  deriving DecidableEq, Repr

/-- A string may hold only characters of codes 0x20 to 0x7E, and the code 0; a byte list anything (30_encoding.md R49). -/
def Pseudo.wellFormed : Pseudo → Bool
  | .puts _ codes => codes.all (fun v => (decide (0x20 ≤ v.toNat) && decide (v.toNat ≤ 0x7E)) || v == 0)
  | .putb _ _ => true

/-- The expansion: one PUSH.x per character or byte, in order (30_encoding.md R49). -/
def Pseudo.expand : Pseudo → List Instr
  | .puts b codes => codes.map (pushInstr b)
  | .putb b bytes => bytes.map (pushInstr b)

/-- The mnemonic as 30_encoding.md R44 spells it. -/
def mnemonicOf : Instr → List Char
  | .nop => ['N', 'O', 'P']
  | .clr => ['C', 'L', 'R']
  | .pushT _ => ['P', 'U', 'S', 'H', '.', 'T']
  | .pushS _ => ['P', 'U', 'S', 'H', '.', 'S']
  | .pushP _ => ['P', 'U', 'S', 'H', '.', 'P']
  | .pushC _ => ['P', 'U', 'S', 'H', '.', 'C']
  | .count => ['C', 'O', 'U', 'N', 'T']
  | .build => ['B', 'U', 'I', 'L', 'D']
  | .gencode => ['G', 'E', 'N', 'C', 'O', 'D', 'E']
  | .pack => ['P', 'A', 'C', 'K']
  | .unpack => ['U', 'N', 'P', 'A', 'C', 'K']
  | .tser => ['T', 'S', 'E', 'R']
  | .tdes => ['T', 'D', 'E', 'S']
  | .cenc => ['C', 'E', 'N', 'C']
  | .cdec => ['C', 'D', 'E', 'C']
  | .compress => ['C', 'O', 'M', 'P', 'R', 'E', 'S', 'S']
  | .decompress => ['D', 'E', 'C', 'O', 'M', 'P', 'R', 'E', 'S', 'S']

/-- The commands without operand, in the order of 30_encoding.md R44. -/
def plainInstrs : List Instr :=
  [.nop, .clr, .count, .build, .gencode, .pack, .unpack, .tser, .tdes, .cenc, .cdec, .compress, .decompress]

/-- The digits of a hexadecimal listing. -/
def hexDigits : List Char := ['0', '1', '2', '3', '4', '5', '6', '7', '8', '9', 'A', 'B', 'C', 'D', 'E', 'F']

/-- A digit's character. -/
def hexChar (n : Nat) : Char := hexDigits.getD n '0'

/-- A command word as four hexadecimal digits (30_encoding.md R48). -/
def wordChars (w : CmdWord) : List Char := [3, 2, 1, 0].map (fun k => hexChar (w.toNat / 16 ^ k % 16))

/-- The operand of an instruction as a listing shows it, in hexadecimal (30_encoding.md R48). -/
def operandChars : Instr → List Char
  | .pushT v | .pushS v | .pushP v | .pushC v =>
    [' ', '0', 'x', hexChar (v.toNat / 16), hexChar (v.toNat % 16)]
  | _ => []

/-- A line of a listing: the word in hexadecimal before the mnemonic (30_encoding.md R48). -/
def listingLine (i : Instr) : List Char :=
  wordChars (encode i) ++ [' ', ' '] ++ mnemonicOf i ++ operandChars i

/-- The value of a digit below `base`, capitals and small letters alike. -/
def digitValue (base : Nat) (c : Char) : Option Nat :=
  let n := c.toNat
  let v :=
    if 48 ≤ n ∧ n ≤ 57 then n - 48
    else if 65 ≤ n ∧ n ≤ 70 then n - 55
    else if 97 ≤ n ∧ n ≤ 102 then n - 87
    else base
  if v < base then some v else none

/-- The number a digit sequence stands for, continuing from `acc`. -/
def numberFrom (base : Nat) : Nat → List Char → Option Nat
  | acc, [] => some acc
  | acc, c :: cs =>
    match digitValue base c with
    | some v => numberFrom base (acc * base + v) cs
    | none => none

/-- A number as a byte, if it is one. -/
def byteOfNumber : Option Nat → Option Byte
  | some n => if n < 256 then some (BitVec.ofNat 8 n) else none
  | none => none

/-- A blank of the notation (log 16). -/
def isBlank (c : Char) : Bool := c == ' ' || c == '\t'

/-- What is left of a line must be blank or a comment: `;` to the end of the line (30_encoding.md R48). -/
def lineEnds (cs : List Char) : Bool :=
  match cs.dropWhile isBlank with
  | [] => true
  | c :: _ => c == ';'

/-- The word up to the next blank or comment, and the rest. -/
def nextWord (cs : List Char) : List Char × List Char :=
  let cs := cs.dropWhile isBlank
  (cs.takeWhile (fun c => !isBlank c && c != ';'), cs.dropWhile (fun c => !isBlank c && c != ';'))

/-- The operand of PUSH: decimal, hexadecimal with `0x`, or a quoted ASCII character (30_encoding.md R48), with the rest of
the line. -/
def byteOperand (cs : List Char) : Option (Byte × List Char) :=
  match cs.dropWhile isBlank with
  | '\'' :: c :: '\'' :: rest => if c.toNat < 128 then some (BitVec.ofNat 8 c.toNat, rest) else none
  | cs' =>
    let number :=
      match nextWord cs' with
      | ('0' :: 'x' :: d :: ds, _) => numberFrom 16 0 (d :: ds)
      | (d :: ds, _) => numberFrom 10 0 (d :: ds)
      | ([], _) => none
    match byteOfNumber number with
    | some v => some (v, (nextWord cs').2)
    | none => none

/-- The characters of a string up to its closing quote, `\0` standing for the code 0 (30_encoding.md R49), with the rest of
the line. -/
def stringCodes : List Char → Option (List Byte × List Char)
  | [] => none
  | '"' :: rest => some ([], rest)
  | '\\' :: '0' :: rest =>
    match stringCodes rest with
    | some (vs, rest') => some (0 :: vs, rest')
    | none => none
  | c :: rest =>
    match stringCodes rest with
    | some (vs, rest') => if c.toNat < 128 then some (BitVec.ofNat 8 c.toNat :: vs, rest') else none
    | none => none

/-- The bytes of PUTB: words of two hexadecimal digits to the end of the line (30_encoding.md R49); each consumes two
characters or more, so a fuel of the line's length never runs out. -/
def hexBytes : Nat → List Char → Option (List Byte)
  | 0, _ => none
  | fuel + 1, cs =>
    match nextWord cs with
    | ([], rest) => if lineEnds rest then some [] else none
    | ([a, b], rest) =>
      match byteOfNumber (numberFrom 16 0 [a, b]), hexBytes fuel rest with
      | some v, some vs => some (v :: vs)
      | _, _ => none
    | _ => none

/-- The buffer of a mnemonic's letter (30_encoding.md R48). -/
def bufOfLetter : Char → Option BufId
  | 'T' => some .text
  | 'S' => some .treeb
  | 'P' => some .pay
  | 'C' => some .cont
  | _ => none

/-- `PUSH.x operand` (30_encoding.md R48). -/
def assemblePush (b : BufId) (cs : List Char) : Option (List Instr) :=
  match byteOperand cs with
  | some (v, rest) => if lineEnds rest then some [pushInstr b v] else none
  | none => none

/-- `PUTS.x "string"` (30_encoding.md R49). -/
def assemblePuts (b : BufId) (cs : List Char) : Option (List Instr) :=
  match cs.dropWhile isBlank with
  | '"' :: cs' =>
    match stringCodes cs' with
    | some (vs, rest) =>
      if lineEnds rest && (Pseudo.puts b vs).wellFormed then some (Pseudo.puts b vs).expand else none
    | none => none
  | _ => none

/-- `PUTB.x hh hh ...` (30_encoding.md R49). -/
def assemblePutb (b : BufId) (cs : List Char) : Option (List Instr) :=
  match hexBytes (cs.length + 1) cs with
  | some vs => some (Pseudo.putb b vs).expand
  | none => none

/-- A command without operand (30_encoding.md R48). -/
def assemblePlain (m rest : List Char) : Option (List Instr) :=
  match plainInstrs.find? (fun i => mnemonicOf i == m) with
  | some i => if lineEnds rest then some [i] else none
  | none => none

/-- One line of assembler text: the commands it stands for (30_encoding.md R48, R49). An empty line or a comment stands for
none. -/
def assembleLine (cs : List Char) : Option (List Instr) :=
  match nextWord cs with
  | ([], rest) => if lineEnds rest then some [] else none
  | (m, rest) =>
    match m with
    | ['P', 'U', 'S', 'H', '.', x] => (bufOfLetter x).bind (fun b => assemblePush b rest)
    | ['P', 'U', 'T', 'S', '.', x] => (bufOfLetter x).bind (fun b => assemblePuts b rest)
    | ['P', 'U', 'T', 'B', '.', x] => (bufOfLetter x).bind (fun b => assemblePutb b rest)
    | _ => assemblePlain m rest

/-- The host operations that issue the commands of a list in order (40_control_and_host.md R61). -/
def issueAll (is : List Instr) : List HostOp := is.map (fun i => .issue (encode i))

end Sys2Proof.Machine
end

