-- ==== Sys2Proof/Safety.lean ====
section
/-! DEFINITION. What counts as a safe run, in the terms the claims use: the state invariant of 10_state.md R26 and R27 with
the capacities of 00_scope.md R6, and the data formats of 30_encoding.md R51 to R54 as trees, bit streams and bytes,
written independently of the functions that compute the commands. -/

namespace Sys2Proof.Machine

/-! ### Bit streams (20_memory.md R34; 30_encoding.md R51, R52) -/

/-- Stream position `q` of a payload: bit `7 − (q mod 8)` of byte `q div 8` (44_bit_packer.md R93). -/
def streamBit (bs : List Byte) (q : Nat) : Bool :=
  match bs[q / 8]? with
  | some v => v.getLsbD (7 - q % 8)
  | none => false

/-- All the bits of a payload in stream order. -/
def streamBits (bs : List Byte) : List Bool := (List.range (8 * bs.length)).map (streamBit bs)

/-- A code word as its bits, first bit first: the low `len` bits of the pattern, most significant first (30_encoding.md
R51). -/
def codeBits (e : CodeEntry) : List Bool :=
  (List.range e.len.toNat).map (fun j => e.pat.getLsbD (e.len.toNat - 1 - j))

/-- The code table's entry of a byte; a byte of 128 or more has none. -/
def entryOf (code : CodeTable) (v : Byte) : CodeEntry := code[v.toNat]?.getD CodeEntry.invalid

/-- The bit stream of a text under a code table: the concatenated code words (30_encoding.md R52). -/
def textBits (code : CodeTable) (text : List Byte) : List Bool := text.flatMap (fun v => codeBits (entryOf code v))

/-- The number of padding bits of a stream of `B` bits (30_encoding.md R52). -/
def padCount (B : Nat) : Nat := (8 - B % 8) % 8

/-- A text every symbol of which is 7-bit and has a code: what PACK accepts (44_bit_packer.md R90). -/
def packable (code : CodeTable) (text : List Byte) : Prop := ∀ v ∈ text, v.toNat < 128 ∧ (entryOf code v).valid = true

/-! ### Trees (10_state.md R26; 30_encoding.md R53) -/

/-- A full binary tree with a symbol at every leaf: the shape and leaf symbols of a tree, without indices or frequencies. -/
inductive Shape where
  | leaf (sym : Byte)
  | node (l r : Shape)
  deriving DecidableEq, Repr

/-- The number of nodes. -/
def Shape.size : Shape → Nat
  | .leaf _ => 1
  | .node l r => 1 + l.size + r.size

/-- The leaf symbols, left to right. -/
def Shape.leaves : Shape → List Byte
  | .leaf v => [v]
  | .node l r => l.leaves ++ r.leaves

/-- The leaves with their paths from the root, false = 0 = left, true = 1 = right (43_code_table.md R85). -/
def Shape.paths : Shape → List (Byte × List Bool)
  | .leaf v => [(v, [])]
  | .node l r => l.paths.map (fun q => (q.1, false :: q.2)) ++ r.paths.map (fun q => (q.1, true :: q.2))

/-- The serialization `T` of a tree (30_encoding.md R53). -/
def Shape.bytes : Shape → List Byte
  | .leaf v => [v]
  | .node l r => (0 : Byte) :: (l.bytes ++ r.bytes)

/-- The leftmost leaf's symbol, the `z` of 45_bit_unpacker.md R100. -/
def Shape.leftmost : Shape → Byte
  | .leaf v => v
  | .node l _ => l.leftmost

/-- The leftmost leaf's depth, the `k` of 45_bit_unpacker.md R100. -/
def Shape.leftDepth : Shape → Nat
  | .leaf _ => 0
  | .node l _ => l.leftDepth + 1

/-- The arena TDES builds for a subtree whose root gets index `k`: pre-order, the left child at `k + 1`, the right child
after the left subtree, every frequency 0 (46_tree_codec.md R105). -/
def Shape.arena : Shape → Nat → List Node
  | .leaf v, _ => [⟨0, true, v, 0, 0⟩]
  | .node l r, k =>
    ⟨0, false, 0, BitVec.ofNat 16 (k + 1), BitVec.ofNat 16 (k + 1 + l.size)⟩ ::
      (l.arena (k + 1) ++ r.arena (k + 1 + l.size))

/-- The symbols a bit stream decodes to from the node `cur` of the tree `top`: 0 moves left, 1 right, a leaf reached gives
its symbol and returns to the top, an unfinished path gives nothing (45_bit_unpacker.md R96, R98). -/
def Shape.decode (top : Shape) : Shape → List Bool → List Byte
  | _, [] => []
  | .leaf _, _ :: _ => []
  | .node l r, b :: bs =>
    match (if b then r else l) with
    | .leaf v => v :: top.decode top bs
    | .node l' r' => top.decode (.node l' r') bs

/-- The tree below index `i` of an arena, if there is one of at most `fuel` levels. -/
def shapeAt (ns : List Node) : Nat → Nat → Option Shape
  | 0, _ => none
  | fuel + 1, i =>
    match ns[i]? with
    | none => none
    | some n =>
      if n.leaf then some (.leaf n.sym)
      else
        match shapeAt ns fuel n.left.toNat, shapeAt ns fuel n.right.toNat with
        | some l, some r => some (.node l r)
        | _, _ => none

/-- The tree in the arena: its shape and leaf symbols. -/
def State.shape (s : State) : Option Shape := shapeAt s.nodes s.nodes.length s.root.toNat

/-- The indices below `i` in pre-order, if the walk ends within `fuel` levels and inside the arena. -/
def preorder (ns : List Node) : Nat → Nat → Option (List Nat)
  | 0, _ => none
  | fuel + 1, i =>
    match ns[i]? with
    | none => none
    | some n =>
      if n.leaf then some [i]
      else
        match preorder ns fuel n.left.toNat, preorder ns fuel n.right.toNat with
        | some l, some r => some (i :: (l ++ r))
        | _, _ => none

/-- The arena is one full tree: every index below NNODES is reached from ROOT exactly once (10_state.md R26 a, b, c). -/
def oneTree (ns : List Node) (root : Nat) : Bool :=
  match preorder ns ns.length root with
  | some is => is.isPerm (List.range ns.length)
  | none => false

/-- The fields 10_state.md R15 defines as 0 are 0: `sym` of an internal node, `left` and `right` of a leaf. -/
def Node.unusedZero (n : Node) : Bool := if n.leaf then n.left == 0 && n.right == 0 else n.sym == 0

/-- An internal node's frequency is the sum of its children's (10_state.md R26 e). -/
def Node.sumsChildren (ns : List Node) (n : Node) : Bool :=
  n.leaf ||
    (match ns[n.left.toNat]?, ns[n.right.toNat]? with
     | some l, some r => n.freq == l.freq + r.freq
     | _, _ => false)

/-! ### The invariant -/

/-- FREQ holds counts of a text that fits TEXT, NSYM counts the symbols present, and nothing is there before a COUNT
(10_state.md R14, R18, R20; 00_scope.md R9 a). -/
structure FreqInv (s : State) : Prop where
  total : s.freq.toList.sum ≤ s.params.textCap
  nsym : s.nsym.toNat = s.freq.toList.countP (fun n => decide (0 < n))
  clear : s.vFreq = false → s.freq = Vector.replicate 128 0

/-- The arena by the tree's origin (10_state.md R26). -/
structure ArenaInv (s : State) : Prop where
  none : s.vTree = .none → s.nodes = [] ∧ s.root = 0
  tree : s.vTree ≠ .none → oneTree s.nodes s.root.toNat = true
  fits : s.nodes.length ≤ s.params.nodeCap
  unused : ∀ n ∈ s.nodes, n.unusedZero = true
  builtSyms : s.vTree = .built → ∀ n ∈ s.nodes, n.leaf = true → n.sym.toNat < 128
  builtNodup : s.vTree = .built → ((s.nodes.filter (·.leaf)).map (·.sym)).Nodup
  builtFreq : s.vTree = .built → ∀ n ∈ s.nodes, 1 ≤ n.freq ∧ n.freq ≤ s.params.textCap
  builtSum : s.vTree = .built → ∀ n ∈ s.nodes, n.sumsChildren s.nodes = true
  deserSyms : s.vTree = .deser → ∀ n ∈ s.nodes, n.leaf = true → n.sym ≠ 0
  deserFreq : s.vTree = .deser → ∀ n ∈ s.nodes, n.freq = 0

/-- A code record: without a code all zero, with one its pattern within its length (10_state.md R17). -/
def CodeEntry.ok (e : CodeEntry) : Bool :=
  if e.valid then decide (e.pat.toNat < 2 ^ e.len.toNat) else e.pat == 0 && e.len == 0

/-- CODE by V_CODE (10_state.md R17, R18). -/
structure CodeInv (s : State) : Prop where
  entries : ∀ e ∈ s.code.toList, e.ok = true
  clear : s.vCode = false → s.code = Vector.replicate 128 CodeEntry.invalid

/-- ERR is a code of 60_exceptions.md R122, and ERRINFO is 0 without an error (10_state.md R19). -/
structure ErrInv (s : State) : Prop where
  code : s.err.toNat ≤ 12
  info : s.err = 0 → s.errInfo = 0

/-- The invariant of every reachable state. -/
structure State.Inv (s : State) : Prop where
  params : s.params.legal = true
  mem : s.mem.wf s.params = true
  freq : FreqInv s
  arena : ArenaInv s
  code : CodeInv s
  error : ErrInv s

/-- No code word of the table is a prefix of another (10_state.md R27 c). -/
def prefixFree (code : CodeTable) : Prop :=
  ∀ a b : Fin 128, code[a].valid = true → code[b].valid = true → a ≠ b → ¬ codeBits code[a] <+: codeBits code[b]

/-! ### Commands one after another -/

/-- Commands run in order as a host would issue them, none after one that left an error (40_control_and_host.md R61). -/
def chain : List (State → Host.Outcome State Fault Refusal) → State → Host.Outcome State Fault Refusal
  | [], s => .next s
  | f :: fs, s =>
    match f s with
    | .next t => if t.err = 0 then chain fs t else .next t
    | .fault e => .fault e
    | .refused r => .refused r

/-- The check of 48_pipeline.md R116 step 3 as a command of its own: SingleSymbolInput (code 4) with the symbol. -/
def refuseSingleSymbol (s : State) : Host.Outcome State Fault Refusal :=
  match s.nodes with
  | [n] => .next { s with err := 4, errInfo := n.sym.setWidth 32 }
  | _ => .next s

/-- The number of stream bits of the payload COMPRESS computes for the text: the text's code words under the table that its
steps COUNT, BUILD and GENCODE give (48_pipeline.md R116; 44_bit_packer.md R93). The components are run with no error
pending, as 40_control_and_host.md R61 has every command begin. -/
def State.payloadBits (s : State) : Nat :=
  match chain [exec .count, exec .build, exec .gencode] { s with err := 0 } with
  | .next u => (textBits u.code s.mem.text).length
  | .fault _ | .refused _ => 0

/-- The header of a container (30_encoding.md R54): `tree_len` in two bytes, `payload_len` in four, most significant byte
first (20_memory.md R33). -/
def headerBytes (tl pl : Nat) : List Byte :=
  [BitVec.ofNat 8 (tl / 256), BitVec.ofNat 8 tl,
   BitVec.ofNat 8 (pl / 2 ^ 24), BitVec.ofNat 8 (pl / 2 ^ 16), BitVec.ofNat 8 (pl / 2 ^ 8), BitVec.ofNat 8 pl]

/-! ### The greedy merge (42_tree_builder.md R79, R80) -/

/-- `key(i) < key(j)` in an arena: by frequency, then by index (42_tree_builder.md R79). -/
def keyBefore (ns : List Node) (i j : Nat) : Prop :=
  match ns[i]?, ns[j]? with
  | some a, some b => a.freq < b.freq ∨ (a.freq = b.freq ∧ i < j)
  | _, _ => False

/-- The queue when node `j` is created: the indices below `j` that are no child of a node below `j`. -/
def inQueue (ns : List Node) (j i : Nat) : Prop :=
  i < j ∧ ∀ m < j, ∀ n, ns[m]? = some n → n.leaf = false → n.left.toNat ≠ i ∧ n.right.toNat ≠ i

/-- The symbols present in a table, ascending (42_tree_builder.md R80). -/
def presentSyms (f : FreqTable) : List Nat := (List.range 128).filter (fun k => decide (0 < f[k]?.getD 0))

/-- The reset values of 10_state.md R25, item by item. -/
structure State.Cleared (s : State) : Prop where
  text : s.mem.text = []
  treeb : s.mem.treeb = []
  pay : s.mem.pay = []
  cont : s.mem.cont = []
  freq : ∀ k (h : k < 128), s.freq[k] = 0
  nsym : s.nsym = 0
  nodes : s.nodes = []
  root : s.root = 0
  code : ∀ k (h : k < 128), s.code[k].valid = false ∧ s.code[k].pat = 0 ∧ s.code[k].len = 0
  vFreq : s.vFreq = false
  vCode : s.vCode = false
  vTree : s.vTree = .none
  err : s.err = 0
  errInfo : s.errInfo = 0
  status : statusWord s = 0

/-! ### What a command may write (10_state.md R28) -/

/-- The commands that may write TEXT. -/
def writesText : Instr → Bool
  | .pushT _ | .unpack | .decompress | .clr => true
  | _ => false

/-- The commands that may write TREEB. -/
def writesTreeb : Instr → Bool
  | .pushS _ | .tser | .cdec | .compress | .decompress | .clr => true
  | _ => false

/-- The commands that may write PAY. -/
def writesPay : Instr → Bool
  | .pushP _ | .pack | .cdec | .compress | .decompress | .clr => true
  | _ => false

/-- The commands that may write CONT. -/
def writesCont : Instr → Bool
  | .pushC _ | .cenc | .compress | .clr => true
  | _ => false

/-- The commands that may write FREQ, NSYM and V_FREQ. -/
def writesFreq : Instr → Bool
  | .count | .compress | .clr => true
  | _ => false

/-- The commands that may write NODE, ROOT, NNODES and V_TREE. -/
def writesTree : Instr → Bool
  | .build | .tdes | .compress | .decompress | .clr => true
  | _ => false

/-- The commands that may write CODE and V_CODE. -/
def writesCode : Instr → Bool
  | .gencode | .compress | .clr => true
  | _ => false

/-- The component and data-entry commands: those that are one step, so that an error leaves nothing of them
(60_exceptions.md R123). -/
def isMacro : Instr → Bool
  | .compress | .decompress => true
  | _ => false

end Sys2Proof.Machine
end

