-- ==== Sys2Proof/Certificates/Slice0/Obligations.lean ====
section
/-! DEFINITION. The statements for the provers, file by file of spec/, each with the rule it formalises. -/

open Sys2Proof Sys2Proof.Machine

/-! ### Reset, waiting, issue (10_state.md, 40_control_and_host.md, 70_reset_and_hazards.md) -/

/-- 10_state.md R25: after reset, whatever the parameters, and identically after CLR, every piece of state has the value of
the table. -/
def Obligations.ResetStateValues : Prop :=
  State.reset.Cleared ∧ (∀ p : Params, (State.resetWith p).Cleared) ∧
    ∀ s : State, ∃ t, exec .clr s = .next t ∧ t.Cleared

/-- 40_control_and_host.md R63, 10_state.md R25: CLR sets every piece of state of the core to its reset value, from every
state. That it keeps the parameters, the host's operations and the recorded answer, which are no state of the core, is the
model's choice (log 10, with log 1, log 2 and log 3). -/
def Obligations.ClrClearsEverything : Prop :=
  ∀ s : State, ∃ t, exec .clr s = .next t ∧ t.Cleared ∧ t.params = s.params ∧ t.host = s.host ∧ t.reply = s.reply

/-- 70_reset_and_hazards.md R140: reset has the effect of CLR, whatever the value of ERR. -/
def Obligations.ResetHasTheEffectOfClr : Prop :=
  ∀ (s : State) (ops : List HostOp),
    step { s with host := .reset :: ops } = exec .clr { s with host := ops } ∧
      ∃ t, step { s with host := .reset :: ops } = .next t ∧ t.Cleared ∧ t.host = ops

/-- 70_reset_and_hazards.md R141: every read port answers from the reset state. -/
def Obligations.PortsAnswerFromReset : Prop :=
  ∀ p : Params,
    (∀ k ≤ 8, rdCsr (State.resetWith p) k = some 0) ∧ (∀ b i, rdBuf (State.resetWith p) b i = none) ∧
      (∀ k, rdFreq (State.resetWith p) k = none) ∧ (∀ i, rdNode (State.resetWith p) i = none) ∧
      ∀ k, rdCode (State.resetWith p) k = none

/-- 70_reset_and_hazards.md R143: with no host operation to come the core waits unchanged (log 2, log 9). -/
def Obligations.CoreWaitsForTheHost : Prop :=
  ∀ s : State, s.host = [] → step s = .next s

/-- 40_control_and_host.md R61: a word that decodes is executed, on the state with the operation taken, when no error is
pending or the word is CLR's. -/
def Obligations.StepRunsTheDecodedCommand : Prop :=
  ∀ (s : State) (w : CmdWord) (i : Instr) (ops : List HostOp), decode w = .ok i → i.wellFormed = true →
    (s.err = 0 ∨ w = 0x0100) → step { s with host := .issue w :: ops } = exec i { s with host := ops }

/-- 60_exceptions.md R135: a word that is no command's encoding, issued with no error pending, raises IllegalCommand with
the word zero-extended and changes nothing else. -/
def Obligations.IllegalWordRaisesIllegalCommand : Prop :=
  ∀ (s : State) (w : CmdWord) (ops : List HostOp), s.err = 0 → (∀ i : Instr, encode i ≠ w) →
    step { s with host := .issue w :: ops } =
      .next { s with host := ops, err := 12, errInfo := w.setWidth 32 }

/-- 30_encoding.md R46: exactly which words the decoder rejects. -/
def Obligations.ReservedEncodingsAreRejected : Prop :=
  ∀ w : CmdWord,
    (∃ r, decode w = .error r) ↔
      ((w.toNat / 256 = 0x00 ∨ w.toNat / 256 = 0x01 ∨ (0x20 ≤ w.toNat / 256 ∧ w.toNat / 256 ≤ 0x28) ∨
            w.toNat / 256 = 0x30 ∨ w.toNat / 256 = 0x31) ∧ w.toNat % 256 ≠ 0) ∨
        (0x02 ≤ w.toNat / 256 ∧ w.toNat / 256 ≤ 0x0F) ∨ (0x14 ≤ w.toNat / 256 ∧ w.toNat / 256 ≤ 0x1F) ∨
        (0x29 ≤ w.toNat / 256 ∧ w.toNat / 256 ≤ 0x2F) ∨ 0x32 ≤ w.toNat / 256

/-- 40_control_and_host.md R61: while an error is pending every word but CLR's, legal or not, changes nothing of the core. -/
def Obligations.PendingErrorIgnoresEveryOtherWord : Prop :=
  ∀ (s : State) (w : CmdWord) (ops : List HostOp), s.err ≠ 0 → w ≠ 0x0100 →
    step { s with host := .issue w :: ops } = .next { s with host := ops }

/-- 60_exceptions.md R138: the only ways out of the error state are CLR and reset; any other step leaves ERR and ERRINFO. -/
def Obligations.ErrorEndsOnlyByClrOrReset : Prop :=
  ∀ s t : State, s.err ≠ 0 → step s = .next t →
    (t.err = s.err ∧ t.errInfo = s.errInfo) ∨
      (t.Cleared ∧ ∃ ops, s.host = .issue 0x0100 :: ops ∨ s.host = .reset :: ops)

/-- 40_control_and_host.md R68: a port read gives the port's answer, or a refusal, and changes no state of the core,
whatever ERR holds. -/
def Obligations.PortReadsAnswerAndChangeNothing : Prop :=
  ∀ (s : State) (ops : List HostOp),
    (∀ k, step { s with host := .rdcsr k :: ops } =
      .next { s with host := ops, reply := some ((rdCsr s k).elim .refused .csr) }) ∧
    (∀ b i, step { s with host := .rdbuf b i :: ops } =
      .next { s with host := ops, reply := some ((rdBuf s b i).elim .refused .byte) }) ∧
    (∀ k, step { s with host := .rdfreq k :: ops } =
      .next { s with host := ops, reply := some ((rdFreq s k).elim .refused .count) }) ∧
    (∀ i, step { s with host := .rdnode i :: ops } =
      .next { s with host := ops, reply := some ((rdNode s i).elim .refused .node) }) ∧
    ∀ k, step { s with host := .rdcode k :: ops } =
      .next { s with host := ops, reply := some ((rdCode s k).elim .refused .code) }

/-- 40_control_and_host.md R69, 10_state.md R21, R22: the nine registers, STATUS bit by bit, and the refusal above 8. -/
def Obligations.CsrPortReadsTheNineRegisters : Prop :=
  ∀ s : State,
    (∃ w : Csr, rdCsr s 0 = some w ∧ w.extractLsb' 0 8 = s.err ∧ w.getLsbD 8 = s.vFreq ∧ w.getLsbD 9 = s.vCode ∧
      (s.vTree = .none → w.extractLsb' 10 2 = 0) ∧ (s.vTree = .built → w.extractLsb' 10 2 = 1) ∧
      (s.vTree = .deser → w.extractLsb' 10 2 = 2) ∧ w.extractLsb' 12 20 = 0) ∧
    rdCsr s 1 = some s.errInfo ∧ rdCsr s 2 = some (BitVec.ofNat 32 s.mem.text.length) ∧
    rdCsr s 3 = some (BitVec.ofNat 32 s.mem.treeb.length) ∧ rdCsr s 4 = some (BitVec.ofNat 32 s.mem.pay.length) ∧
    rdCsr s 5 = some (BitVec.ofNat 32 s.mem.cont.length) ∧ rdCsr s 6 = some (s.root.setWidth 32) ∧
    rdCsr s 7 = some (BitVec.ofNat 32 s.nodes.length) ∧ rdCsr s 8 = some (s.nsym.setWidth 32) ∧
    ∀ k, 8 < k → rdCsr s k = none

/-- 40_control_and_host.md R70: a byte of a buffer below its length, a refusal otherwise. -/
def Obligations.BufferPortReadsBelowTheLength : Prop :=
  ∀ (s : State) (i : BitVec 32),
    rdBuf s 0 i = s.mem.text[i.toNat]? ∧ rdBuf s 1 i = s.mem.treeb[i.toNat]? ∧ rdBuf s 2 i = s.mem.pay[i.toNat]? ∧
      rdBuf s 3 i = s.mem.cont[i.toNat]? ∧ ∀ b, 3 < b → rdBuf s b i = none

/-- 40_control_and_host.md R71, R72, R73: the table ports answer when the table is valid and the index exists, and refuse
otherwise. -/
def Obligations.TablePortsNeedTheirValidFlag : Prop :=
  ∀ s : State,
    (∀ k (h : k < 128), s.vFreq = true → rdFreq s k = some s.freq[k]) ∧
    (∀ k, (128 ≤ k ∨ s.vFreq = false) → rdFreq s k = none) ∧
    (∀ (i : Idx) (h : i.toNat < s.nodes.length), s.vTree ≠ .none → rdNode s i = some s.nodes[i.toNat]) ∧
    (∀ i : Idx, (s.nodes.length ≤ i.toNat ∨ s.vTree = .none) → rdNode s i = none) ∧
    (∀ k (h : k < 128), s.vCode = true → rdCode s k = some s.code[k]) ∧
    ∀ k, (128 ≤ k ∨ s.vCode = false) → rdCode s k = none

/-! ### Encoding (30_encoding.md) -/

/-- 30_encoding.md R44, R45: decoding an encoded command gives it back with its operand, and only its encoding decodes to
it. -/
def Obligations.DecodeAndEncodeAgree : Prop :=
  (∀ i : Instr, i.wellFormed = true → decode (encode i) = .ok i) ∧ ∀ (w : CmdWord) (i : Instr), decode w = .ok i → encode i = w

/-- 30_encoding.md R44, R48: words written out from the table decode to the commands they stand for. -/
def Obligations.SpecWordsDecodeAsListed : Prop :=
  decode 0x0000 = .ok .nop ∧ decode 0x0100 = .ok .clr ∧ decode 0x1061 = .ok (.pushT 0x61) ∧
    decode 0x1100 = .ok (.pushS 0x00) ∧ decode 0x12F0 = .ok (.pushP 0xF0) ∧ decode 0x1303 = .ok (.pushC 0x03) ∧
    decode 0x2100 = .ok .build ∧ decode 0x2800 = .ok .cdec ∧ decode 0x3100 = .ok .decompress

/-- 30_encoding.md R49 with 40_control_and_host.md R61, R64: issuing the expansion of `PUTS.x "..."` or `PUTB.x ...` appends
the bytes to the buffer in order, when they fit. -/
def Obligations.PseudoInstructionsAppendTheirBytes : Prop :=
  ∀ (s : State) (b : BufId) (vs : List Byte) (ops : List HostOp), s.err = 0 →
    (s.mem.get b).length + vs.length ≤ cap s.params b →
    (∀ i ∈ [Pseudo.puts b vs, Pseudo.putb b vs], i.wellFormed = true →
      Host.Core.run Sys2Proof.core vs.length { s with host := issueAll i.expand ++ ops } =
        .next { s with host := ops, mem := s.mem.set b (s.mem.get b ++ vs) })

/-! ### Control and data entry (40_control_and_host.md) -/

/-- 40_control_and_host.md R62: NOP, the word 0x0000, changes nothing. -/
def Obligations.NopChangesNothing : Prop :=
  decode 0x0000 = .ok .nop ∧ ∀ s : State, exec .nop s = .next s

/-- 40_control_and_host.md R64 to R67: the words 0x1000, 0x1100, 0x1200, 0x1300 with any byte are the four PUSH commands;
below the capacity a PUSH appends its byte, any byte, to its buffer and changes nothing else; at the capacity it raises
BufferOverflow with the buffer's id, appends nothing and changes nothing else. -/
def Obligations.PushAppendsTheByteOrOverflows : Prop :=
  (∀ v : Byte,
    decode (0x1000 ||| v.setWidth 16) = .ok (.pushT v) ∧ decode (0x1100 ||| v.setWidth 16) = .ok (.pushS v) ∧
      decode (0x1200 ||| v.setWidth 16) = .ok (.pushP v) ∧ decode (0x1300 ||| v.setWidth 16) = .ok (.pushC v)) ∧
  ∀ (s : State) (v : Byte),
    exec (.pushT v) s =
      (if s.mem.text.length = s.params.textCap then .next { s with err := 9, errInfo := 0 }
       else .next { s with mem := { s.mem with text := s.mem.text ++ [v] } }) ∧
    exec (.pushS v) s =
      (if s.mem.treeb.length = 65535 then .next { s with err := 9, errInfo := 1 }
       else .next { s with mem := { s.mem with treeb := s.mem.treeb ++ [v] } }) ∧
    exec (.pushP v) s =
      (if s.mem.pay.length = s.params.payCap then .next { s with err := 9, errInfo := 2 }
       else .next { s with mem := { s.mem with pay := s.mem.pay ++ [v] } }) ∧
    exec (.pushC v) s =
      (if s.mem.cont.length = s.params.payCap + 65541 then .next { s with err := 9, errInfo := 3 }
       else .next { s with mem := { s.mem with cont := s.mem.cont ++ [v] } })

/-! ### COUNT (41_symbol_table.md) -/

/-- 41_symbol_table.md R75: on 7-bit text COUNT commits the number of occurrences of every symbol, the number of symbols
present, and V_FREQ, and changes nothing else. -/
def Obligations.CountTalliesTheText : Prop :=
  ∀ s : State, (∀ v ∈ s.mem.text, v.toNat < 128) →
    ∃ f : FreqTable,
      exec .count s =
        .next { s with
          freq := f,
          nsym := BitVec.ofNat 8 ((List.range 128).countP (fun k => decide (0 < s.mem.text.count (BitVec.ofNat 8 k)))),
          vFreq := true } ∧
      ∀ k (h : k < 128), f[k] = s.mem.text.count (BitVec.ofNat 8 k)

/-- 41_symbol_table.md R76: COUNT raises InvalidSymbol with the offset of the first byte of 128 or more and writes nothing
else. -/
def Obligations.CountRejectsTheFirstHighByte : Prop :=
  ∀ (s : State) (pre post : List Byte) (v : Byte), s.mem.text = pre ++ v :: post → (∀ u ∈ pre, u.toNat < 128) →
    128 ≤ v.toNat → exec .count s = .next { s with err := 7, errInfo := BitVec.ofNat 32 pre.length }

/-- 41_symbol_table.md R77: the counters add up to the length, NSYM is 0 only on an empty text and 1 only on a text of one
repeated symbol, and the order of the text does not matter. -/
def Obligations.CountDependsOnTheMultiset : Prop :=
  ∀ s : State, (∀ v ∈ s.mem.text, v.toNat < 128) →
    ∃ t, exec .count s = .next t ∧ t.freq.toList.sum = s.mem.text.length ∧ (t.nsym = 0 ↔ s.mem.text = []) ∧
      (t.nsym = 1 ↔ ∃ v n, 0 < n ∧ s.mem.text = List.replicate n v) ∧
      ∀ s' t' : State, s'.mem.text.Perm s.mem.text → exec .count s' = .next t' → t'.freq = t.freq ∧ t'.nsym = t.nsym

/-! ### BUILD (42_tree_builder.md) -/

/-- 42_tree_builder.md R79: `PopMin` removes the one entry of the smallest key, by frequency and then by index, and keeps
the others. -/
def Obligations.PopMinTakesTheSmallestKey : Prop :=
  ∀ (k : PqEntry) (ks : List PqEntry), ((k :: ks).map (·.idx)).Nodup →
    ((popMin k ks).1 :: (popMin k ks).2).Perm (k :: ks) ∧
      ∀ x ∈ (popMin k ks).2,
        (popMin k ks).1.freq < x.freq ∨ ((popMin k ks).1.freq = x.freq ∧ (popMin k ks).1.idx < x.idx)

/-- 42_tree_builder.md R81: Sequence 1 without a table, EmptyInput on a table with no entry; nothing else changes. -/
def Obligations.BuildRefusesAMissingOrEmptyTable : Prop :=
  ∀ s : State,
    (s.vFreq = false → exec .build s = .next { s with err := 11, errInfo := 1 }) ∧
      (s.vFreq = true → (∀ k (h : k < 128), s.freq[k] = 0) → exec .build s = .next { s with err := 1, errInfo := 0 })

/-- 42_tree_builder.md R80, R83 a, b, c: BUILD commits the arena of the greedy merge. Entries 0 to n − 1 are the leaves of
the n present symbols, ascending; entry j, for j from n on, merges the two entries of the smallest keys among those that
are no child yet, the smallest as its left child; nothing but NODE, ROOT and V_TREE changes. -/
def Obligations.BuildMergesTheTwoSmallest : Prop :=
  ∀ s : State, s.vFreq = true → presentSyms s.freq ≠ [] →
    ∃ ns : List Node,
      exec .build s =
        .next { s with nodes := ns, root := BitVec.ofNat 16 (2 * (presentSyms s.freq).length - 2), vTree := .built } ∧
      ns.length = 2 * (presentSyms s.freq).length - 1 ∧
      (∀ k y : Nat, (presentSyms s.freq)[k]? = some y → ns[k]? = some (⟨s.freq[y]?.getD 0, true, BitVec.ofNat 8 y, 0, 0⟩ : Node)) ∧
      ∀ j : Nat, (presentSyms s.freq).length ≤ j → j < ns.length →
        ∃ n a b : Node, ns[j]? = some n ∧ n.leaf = false ∧ n.sym = 0 ∧
          ns[n.left.toNat]? = some a ∧ ns[n.right.toNat]? = some b ∧ n.freq = a.freq + b.freq ∧
          inQueue ns j n.left.toNat ∧ inQueue ns j n.right.toNat ∧ n.left ≠ n.right ∧
          ∀ i, inQueue ns j i → i ≠ n.left.toNat →
            keyBefore ns n.left.toNat i ∧ (i ≠ n.right.toNat → keyBefore ns n.right.toNat i)

/-- 42_tree_builder.md R83 d, e, f, g: in the arena BUILD commits, children come before their parents, the merged
frequencies never decrease, the root's frequency is the total of the table, and every node but the root is the child of
exactly one node. -/
def Obligations.BuildOrdersTheArena : Prop :=
  ∀ s : State, s.vFreq = true → presentSyms s.freq ≠ [] →
    ∃ t, exec .build s = .next t ∧
      (∀ (j : Nat) (n : Node), t.nodes[j]? = some n → n.leaf = false → n.left.toNat < j ∧ n.right.toNat < j) ∧
      (∀ (j : Nat) (a b : Node), t.nodes[j]? = some a → t.nodes[j + 1]? = some b → a.leaf = false → b.leaf = false → a.freq ≤ b.freq) ∧
      (∀ n : Node, t.nodes[t.root.toNat]? = some n → n.freq = s.freq.toList.sum) ∧
      (∀ i < t.nodes.length - 1,
        ∃! j : Nat, ∃ n : Node, t.nodes[j]? = some n ∧ n.leaf = false ∧ (n.left.toNat = i ∨ n.right.toNat = i)) ∧
      ∀ (j : Nat) (n : Node), t.nodes[j]? = some n → n.leaf = false →
        n.left.toNat ≠ t.nodes.length - 1 ∧ n.right.toNat ≠ t.nodes.length - 1

/-- 42_tree_builder.md R84: a table with exactly one entry gives the one-node tree, without an error. -/
def Obligations.BuildOfOneSymbolIsOneLeaf : Prop :=
  ∀ (s : State) (y n : Nat), s.vFreq = true → presentSyms s.freq = [y] → s.freq[y]? = some n →
    exec .build s =
      .next { s with nodes := [⟨n, true, BitVec.ofNat 8 y, 0, 0⟩], root := 0, vTree := .built }

/-- 60_exceptions.md R134: every missing prerequisite raises Sequence (code 11) with its number, before any other error, and
nothing else changes; no command but BUILD, GENCODE, PACK, UNPACK and TSER raises it. -/
def Obligations.MissingPrerequisitesRaiseSequence : Prop :=
  ∀ s : State,
    (s.vFreq = false → exec .build s = .next { s with err := 11, errInfo := 1 }) ∧
    (s.vTree = .none →
      exec .gencode s = .next { s with err := 11, errInfo := 2 } ∧
        exec .unpack s = .next { s with err := 11, errInfo := 2 } ∧
        exec .tser s = .next { s with err := 11, errInfo := 2 }) ∧
    (s.vCode = false → exec .pack s = .next { s with err := 11, errInfo := 3 }) ∧
    (s.vTree = .deser → exec .gencode s = .next { s with err := 11, errInfo := 4 }) ∧
    ∀ (i : Instr) (t : State), i ≠ .build → i ≠ .gencode → i ≠ .pack → i ≠ .unpack → i ≠ .tser → exec i s = .next t →
      t.err = 11 → s.err = 11

/-! ### GENCODE (43_code_table.md) -/

/-- 43_code_table.md R85, R86: on a BUILT tree GENCODE commits, for every leaf, the path from the root as its code word, and
an invalid entry for every other symbol; nothing but CODE and V_CODE changes. -/
def Obligations.GencodeRecordsEveryPath : Prop :=
  ∀ s : State, s.Inv → s.vTree = .built →
    ∃ (sh : Shape) (c : CodeTable), s.shape = some sh ∧ exec .gencode s = .next { s with code := c, vCode := true } ∧
      (∀ q ∈ sh.paths,
        (entryOf c q.1).valid = true ∧ (entryOf c q.1).len.toNat = q.2.length ∧ codeBits (entryOf c q.1) = q.2 ∧
          (entryOf c q.1).pat.toNat < 2 ^ q.2.length) ∧
      ∀ v : Byte, v ∉ sh.leaves → entryOf c v = ⟨false, 0, 0⟩

/-- 43_code_table.md R87 b: no code word of a generated table is a prefix of another. -/
def Obligations.GeneratedCodesArePrefixFree : Prop :=
  ∀ s : State, s.Inv → s.vTree = .built → ∃ t, exec .gencode s = .next t ∧ prefixFree t.code

/-! ### PACK (44_bit_packer.md) -/

/-- 44_bit_packer.md R93: PACK commits the concatenated code words of the text, most significant bit first, completed with
zero bits, and changes nothing but PAY. -/
def Obligations.PackWritesTheBitStream : Prop :=
  ∀ s : State, s.vCode = true → (∀ e ∈ s.code.toList, e.ok = true) → packable s.code s.mem.text →
    ((s.mem.text.map (fun v => (entryOf s.code v).len.toNat)).sum + 7) / 8 ≤ s.params.payCap →
    ∃ out : List Byte,
      exec .pack s = .next { s with mem := { s.mem with pay := out } } ∧
      out.length = ((s.mem.text.map (fun v => (entryOf s.code v).len.toNat)).sum + 7) / 8 ∧
      (∀ q b, (textBits s.code s.mem.text)[q]? = some b → streamBit out q = b) ∧
      (∀ q, (s.mem.text.map (fun v => (entryOf s.code v).len.toNat)).sum ≤ q → streamBit out q = false) ∧
      ((∀ v ∈ s.mem.text, (entryOf s.code v).len.toNat ≤ 8) → out.length ≤ s.mem.text.length)

/-- 60_exceptions.md R132, 44_bit_packer.md R90: PACK overflows when the stream has more than 8 × PAY_CAP bits, with
ERRINFO 2, and PAY keeps its content. -/
def Obligations.PackOverflowsBeyondTheCapacity : Prop :=
  ∀ s : State, s.vCode = true → packable s.code s.mem.text →
    8 * s.params.payCap < (s.mem.text.map (fun v => (entryOf s.code v).len.toNat)).sum →
    exec .pack s = .next { s with err := 9, errInfo := 2 }

/-- 44_bit_packer.md R90, 60_exceptions.md R130, R131, R137 d: the first offending offset of the text reports,
InvalidSymbol before MissingCode, unless the bytes before it overflow PAY. -/
def Obligations.PackReportsTheFirstOffendingSymbol : Prop :=
  ∀ (s : State) (pre post : List Byte) (v : Byte), s.vCode = true → s.mem.text = pre ++ v :: post →
    packable s.code pre → (pre.map (fun u => (entryOf s.code u).len.toNat)).sum < 8 * (s.params.payCap + 1) →
    (128 ≤ v.toNat → exec .pack s = .next { s with err := 7, errInfo := BitVec.ofNat 32 pre.length }) ∧
      (v.toNat < 128 → (entryOf s.code v).valid = false →
        exec .pack s = .next { s with err := 8, errInfo := BitVec.ofNat 32 pre.length })

/-! ### UNPACK (45_bit_unpacker.md) -/

/-- 45_bit_unpacker.md R96, R98: with a tree whose root is internal UNPACK commits the symbols its whole bit stream decodes
to, or raises BufferOverflow 0 when they exceed TEXT_CAP; nothing but TEXT, or ERR and ERRINFO, changes. -/
def Obligations.UnpackDecodesEveryBit : Prop :=
  ∀ s : State, s.Inv → s.vTree ≠ .none →
    ∃ sh : Shape, s.shape = some sh ∧
      ((∃ l r, sh = .node l r) →
        ((sh.decode sh (streamBits s.mem.pay)).length ≤ s.params.textCap →
          exec .unpack s = .next { s with mem := { s.mem with text := sh.decode sh (streamBits s.mem.pay) } }) ∧
        (s.params.textCap < (sh.decode sh (streamBits s.mem.pay)).length →
          exec .unpack s = .next { s with err := 9, errInfo := 0 }))

/-- 45_bit_unpacker.md R97: with the degenerate tree an empty payload commits an empty TEXT, and a payload bit raises
DegenerateTree with ERRINFO 0 and changes nothing else. -/
def Obligations.UnpackOfTheDegenerateTree : Prop :=
  ∀ (s : State) (n : Node), s.vTree ≠ .none → s.nodes[s.root.toNat]? = some n → n.leaf = true →
    (s.mem.pay = [] → exec .unpack s = .next { s with mem := { s.mem with text := [] } }) ∧
      (s.mem.pay ≠ [] → exec .unpack s = .next { s with err := 6, errInfo := 0 })

/-- 45_bit_unpacker.md R100: a payload made of the code words of a text and `p` zero padding bits decodes to the text
followed by `floor(p / k)` copies of the leftmost leaf's symbol, `k` being that leaf's depth. -/
def Obligations.PaddingDecodesToPhantomSymbols : Prop :=
  ∀ (s : State) (l r : Shape) (text : List (Byte × List Bool)) (p : Nat), s.Inv → s.vTree ≠ .none →
    s.shape = some (.node l r) → (∀ q ∈ text, q ∈ (Shape.node l r).paths) →
    streamBits s.mem.pay = text.flatMap (·.2) ++ List.replicate p false →
    text.length + p / (Shape.node l r).leftDepth ≤ s.params.textCap →
    exec .unpack s =
      .next { s with
        mem := { s.mem with
          text := text.map (·.1) ++ List.replicate (p / (Shape.node l r).leftDepth) (Shape.node l r).leftmost } }

/-! ### TSER, TDES (46_tree_codec.md) -/

/-- 46_tree_codec.md R102, R103, R104: TSER commits the pre-order bytes of the tree, one per node of the arena, or raises
UnrepresentableSymbol with the index of a leaf of symbol 0; nothing but TREEB, or ERR and ERRINFO, changes. -/
def Obligations.TserWritesThePreorderBytes : Prop :=
  ∀ s : State, s.Inv → s.vTree ≠ .none →
    ∃ sh : Shape, s.shape = some sh ∧ sh.bytes.length = s.nodes.length ∧
      ((0 : Byte) ∉ sh.leaves → exec .tser s = .next { s with mem := { s.mem with treeb := sh.bytes } }) ∧
      ((0 : Byte) ∈ sh.leaves →
        ∃ (i : Nat) (n : Node), s.nodes[i]? = some n ∧ n.leaf = true ∧ n.sym = 0 ∧
          exec .tser s = .next { s with err := 3, errInfo := BitVec.ofNat 32 i })

/-- 46_tree_codec.md R103: on the tree BUILD makes of a table with the symbol 0, TSER raises
UnrepresentableSymbol with ERRINFO 0. -/
def Obligations.TserRejectsNulInABuiltTree : Prop :=
  ∀ s : State, s.vFreq = true → s.freq[0] ≠ 0 →
    ∃ t, exec .build s = .next t ∧ exec .tser t = .next { t with err := 3, errInfo := 0 }

/-- 46_tree_codec.md R105, R107, R108: a serialized tree at the start of TREEB, whatever follows it and whatever its
non-zero symbols, gives the pre-order arena, ROOT 0 and V_TREE = DESER, and changes nothing else. -/
def Obligations.TdesBuildsThePreorderArena : Prop :=
  ∀ (s : State) (sh : Shape) (rest : List Byte), s.mem.treeb = sh.bytes ++ rest → (0 : Byte) ∉ sh.leaves →
    sh.size ≤ s.params.nodeCap →
    exec .tdes s = .next { s with nodes := sh.arena 0, root := 0, vTree := .deser }

/-- 46_tree_codec.md R106: bytes that end before a tree is complete raise MalformedTree with ERRINFO = TREEB_LEN, when the
arena could hold them, and change nothing else. -/
def Obligations.TdesRejectsATruncatedTree : Prop :=
  ∀ s : State, (∀ (sh : Shape) (rest : List Byte), (0 : Byte) ∉ sh.leaves → s.mem.treeb ≠ sh.bytes ++ rest) →
    s.mem.treeb.length ≤ s.params.nodeCap →
    exec .tdes s = .next { s with err := 5, errInfo := BitVec.ofNat 32 s.mem.treeb.length }

/-- 60_exceptions.md R133: more bytes than the arena has entries, with no complete tree within it, raise NodeOverflow with
ERRINFO = NODE_CAP and change nothing else. -/
def Obligations.TdesOverflowsTheArena : Prop :=
  ∀ s : State, s.params.nodeCap < s.mem.treeb.length →
    (∀ (sh : Shape) (rest : List Byte), (0 : Byte) ∉ sh.leaves → sh.size ≤ s.params.nodeCap →
      s.mem.treeb ≠ sh.bytes ++ rest) →
    exec .tdes s = .next { s with err := 10, errInfo := BitVec.ofNat 32 s.params.nodeCap }

/-- 46_tree_codec.md R109: TSER then TDES keeps the shape and the leaf symbols, TREEB_LEN = NNODES, and a second TSER gives
the same bytes as the first; TDES of a tree that fills TREEB, then TSER, leaves TREEB unchanged. -/
def Obligations.TreeRoundTrip : Prop :=
  (∀ (s : State) (sh : Shape), s.Inv → s.vTree ≠ .none → s.shape = some sh → (0 : Byte) ∉ sh.leaves →
    ∃ t u, exec .tser s = .next t ∧ exec .tdes t = .next u ∧ u.shape = some sh ∧ u.vTree = .deser ∧
      t.mem.treeb.length = s.nodes.length ∧ u.nodes.length = s.nodes.length ∧ u.mem.treeb = t.mem.treeb ∧
      exec .tser u = .next u) ∧
  ∀ s t : State, s.params.legal = true → exec .tdes s = .next t → t.err = s.err → s.err = 0 →
    t.nodes.length = s.mem.treeb.length → t.mem.treeb = s.mem.treeb ∧ exec .tser t = .next t

/-! ### CENC, CDEC (47_container.md) -/

/-- 47_container.md R110, R111: CENC commits the two length fields, big-endian, then TREEB, then PAY, changes nothing but
CONT, and cannot fail within the capacities. -/
def Obligations.CencFramesBothBuffers : Prop :=
  ∀ s : State, s.mem.treeb.length ≤ 65535 → s.mem.pay.length ≤ s.params.payCap →
    exec .cenc s =
      .next { s with
        mem := { s.mem with
          cont := headerBytes s.mem.treeb.length s.mem.pay.length ++ s.mem.treeb ++ s.mem.pay } }

/-- 47_container.md R112, R114: CDEC splits a container into its two sections and ignores what follows; nothing but TREEB and
PAY changes. -/
def Obligations.CdecSplitsTheContainer : Prop :=
  ∀ (s : State) (tree payload extra : List Byte), tree.length < 2 ^ 16 → payload.length < 2 ^ 32 →
    payload.length ≤ s.params.payCap →
    s.mem.cont = headerBytes tree.length payload.length ++ tree ++ payload ++ extra →
    exec .cdec s = .next { s with mem := { s.mem with treeb := tree, pay := payload } }

/-- 47_container.md R113, R112: TruncatedInput 0, 1, 2 in that order, then BufferOverflow 2; nothing else changes. -/
def Obligations.CdecReportsTruncation : Prop :=
  ∀ s : State,
    (s.mem.cont.length < 6 → exec .cdec s = .next { s with err := 2, errInfo := 0 }) ∧
    ∀ (tl pl : Nat) (rest : List Byte), tl < 2 ^ 16 → pl < 2 ^ 32 → s.mem.cont = headerBytes tl pl ++ rest →
      (rest.length < tl → exec .cdec s = .next { s with err := 2, errInfo := 1 }) ∧
      (tl ≤ rest.length → rest.length - tl < pl → exec .cdec s = .next { s with err := 2, errInfo := 2 }) ∧
      (tl ≤ rest.length → pl ≤ rest.length - tl → s.params.payCap < pl →
        exec .cdec s = .next { s with err := 9, errInfo := 2 })

/-- 47_container.md R115: CENC then CDEC leaves TREEB and PAY unchanged; CDEC of a container with nothing after it, then
CENC, leaves CONT unchanged. -/
def Obligations.ContainerRoundTrip : Prop :=
  (∀ s : State, s.params.legal = true → s.mem.wf s.params = true →
    ∃ t, exec .cenc s = .next t ∧ t.mem.treeb = s.mem.treeb ∧ t.mem.pay = s.mem.pay ∧ exec .cdec t = .next t) ∧
  ∀ (s : State) (tree payload : List Byte), tree.length < 2 ^ 16 → payload.length < 2 ^ 32 →
    payload.length ≤ s.params.payCap → s.mem.cont = headerBytes tree.length payload.length ++ tree ++ payload →
    ∃ t, exec .cdec s = .next t ∧ t.mem.cont = s.mem.cont ∧ exec .cenc t = .next t

/-! ### COMPRESS, DECOMPRESS (48_pipeline.md) -/

/-- 48_pipeline.md R116, R117: COMPRESS is its seven steps, each exactly as the command issued alone, stopping at the first
that raises. -/
def Obligations.CompressRunsItsSteps : Prop :=
  ∀ s : State, s.err = 0 →
    exec .compress s =
      chain [exec .count, exec .build, refuseSingleSymbol, exec .gencode, exec .pack, exec .tser, exec .cenc] s

/-- 48_pipeline.md R119, R117: DECOMPRESS is CDEC, TDES, UNPACK, each exactly as the command issued alone, stopping at the
first that raises. -/
def Obligations.DecompressRunsItsSteps : Prop :=
  ∀ s : State, s.err = 0 → exec .decompress s = chain [exec .cdec, exec .tdes, exec .unpack] s

/-- 48_pipeline.md R120 a, b, c: a byte of 128 or more, an empty text and a text of one repeated symbol are refused, in that
order, with the state the completed steps left. -/
def Obligations.CompressRefusesInStepOrder : Prop :=
  ∀ s : State,
    (∀ (pre post : List Byte) (v : Byte), s.mem.text = pre ++ v :: post → (∀ u ∈ pre, u.toNat < 128) →
      128 ≤ v.toNat → exec .compress s = .next { s with err := 7, errInfo := BitVec.ofNat 32 pre.length }) ∧
    (s.mem.text = [] →
      exec .compress s =
        .next { s with freq := Vector.replicate 128 0, nsym := 0, vFreq := true, err := 1, errInfo := 0 }) ∧
    ∀ (y : Byte) (n : Nat) (h : y.toNat < 128), s.mem.text = List.replicate (n + 1) y →
      exec .compress s =
        .next { s with
          freq := (Vector.replicate 128 0).set y.toNat (n + 1), nsym := 1, vFreq := true,
          nodes := [⟨n + 1, true, y, 0, 0⟩], root := 0, vTree := .built, err := 4, errInfo := y.setWidth 32 }

/-- 48_pipeline.md R120 d, 60_exceptions.md R132: a text of two or more 7-bit symbols whose payload exceeds PAY_CAP is
refused at the PACK step, before TSER would refuse the byte 0, with PAY, TREEB and CONT untouched. -/
def Obligations.CompressReportsAPayloadOverflow : Prop :=
  ∀ s : State, (∀ v ∈ s.mem.text, v.toNat < 128) → (∃ u ∈ s.mem.text, ∃ v ∈ s.mem.text, u ≠ v) →
    8 * s.params.payCap < s.payloadBits →
    ∃ t, exec .compress s = .next t ∧ t.err = 9 ∧ t.errInfo = 2 ∧ t.mem = s.mem ∧ t.vFreq = true ∧
      t.vTree = .built ∧ t.vCode = true

/-- 48_pipeline.md R120 e, 60_exceptions.md R126: a text with the byte 0 and another symbol is refused at the TSER step when
its payload fits PAY_CAP: PAY holds the text's bit stream under the new code table, TREEB and CONT are untouched. -/
def Obligations.CompressRefusesNul : Prop :=
  ∀ s : State, (∀ v ∈ s.mem.text, v.toNat < 128) → (0 : Byte) ∈ s.mem.text → (∃ v ∈ s.mem.text, v ≠ 0) →
    s.payloadBits ≤ 8 * s.params.payCap →
    ∃ t, exec .compress s = .next t ∧ t.err = 3 ∧ t.errInfo = 0 ∧ t.mem.treeb = s.mem.treeb ∧
      t.mem.cont = s.mem.cont ∧ t.mem.text = s.mem.text ∧
      streamBits t.mem.pay =
        textBits t.code t.mem.text ++ List.replicate (padCount (textBits t.code t.mem.text).length) false ∧
      t.vFreq = true ∧ t.vTree = .built ∧ t.vCode = true

/-- 48_pipeline.md R116, R120 f: a text of two or more symbols from 1 to 127 whose payload fits PAY_CAP is compressed: CONT
holds the header, the serialized tree and the payload, the payload is the text's bit stream under the new code table, and
the three flags are set. -/
def Obligations.CompressCommitsTheContainer : Prop :=
  ∀ s : State, (∀ v ∈ s.mem.text, 1 ≤ v.toNat ∧ v.toNat < 128) → (∃ u ∈ s.mem.text, ∃ v ∈ s.mem.text, u ≠ v) →
    s.payloadBits ≤ 8 * s.params.payCap →
    ∃ t sh, exec .compress s = .next t ∧ t.err = s.err ∧ t.errInfo = s.errInfo ∧ t.mem.text = s.mem.text ∧
      t.shape = some sh ∧ t.mem.treeb = sh.bytes ∧
      streamBits t.mem.pay =
        textBits t.code t.mem.text ++ List.replicate (padCount (textBits t.code t.mem.text).length) false ∧
      t.mem.cont = headerBytes t.mem.treeb.length t.mem.pay.length ++ t.mem.treeb ++ t.mem.pay ∧
      t.vFreq = true ∧ t.vTree = .built ∧ t.vCode = true

/-- 48_pipeline.md R119: a container of a tree with two or more leaves and a payload is decompressed: TEXT is what the
payload decodes to, TREEB and PAY are the two sections, and the tree is DESER. -/
def Obligations.DecompressCommitsTheText : Prop :=
  ∀ (s : State) (l r : Shape) (after payload extra : List Byte), s.params.legal = true →
    (0 : Byte) ∉ (Shape.node l r).leaves → (Shape.node l r).size ≤ s.params.nodeCap →
    ((Shape.node l r).bytes ++ after).length < 2 ^ 16 → payload.length ≤ s.params.payCap →
    s.mem.cont =
      headerBytes ((Shape.node l r).bytes ++ after).length payload.length ++ ((Shape.node l r).bytes ++ after) ++
        payload ++ extra →
    ((Shape.node l r).decode (.node l r) (streamBits payload)).length ≤ s.params.textCap →
    exec .decompress s =
      .next { s with
        mem := ⟨(Shape.node l r).decode (.node l r) (streamBits payload), (Shape.node l r).bytes ++ after, payload,
          s.mem.cont⟩,
        nodes := (Shape.node l r).arena 0, root := 0, vTree := .deser }

/-- 45_bit_unpacker.md R101, 48_pipeline.md R120 f: decompressing the container a COMPRESS committed, on any core with the
capacities, gives the text followed by `floor(p / k)` phantom copies of the symbol of the all-zero code, `k` being that
code's length and `p` the number of padding bits; it is the text itself exactly when `p < k`. -/
def Obligations.DecompressAppendsPhantomSymbols : Prop :=
  ∀ s t : State, (∀ v ∈ s.mem.text, 1 ≤ v.toNat ∧ v.toNat < 128) → (∃ u ∈ s.mem.text, ∃ v ∈ s.mem.text, u ≠ v) →
    s.err = 0 → exec .compress s = .next t → t.err = 0 →
    ∃ (z : Byte) (k : Nat), 1 ≤ k ∧ (entryOf t.code z).valid = true ∧ (entryOf t.code z).pat = 0 ∧
      (entryOf t.code z).len.toNat = k ∧
      ∀ s' : State, s'.params.legal = true → s'.err = 0 → s'.mem.cont = t.mem.cont →
        t.mem.pay.length ≤ s'.params.payCap →
        s.mem.text.length + padCount (textBits t.code s.mem.text).length / k ≤ s'.params.textCap →
        ∃ u, exec .decompress s' = .next u ∧ u.err = 0 ∧
          u.mem.text =
            s.mem.text ++ List.replicate (padCount (textBits t.code s.mem.text).length / k) z ∧
          (u.mem.text = s.mem.text ↔ padCount (textBits t.code s.mem.text).length < k)

/-! ### The whole machine (10_state.md, 60_exceptions.md) -/

/-- 10_state.md R28: what each command may write; whatever it does not write is unchanged, every byte of the other buffers
and the model's own fields among it. -/
def Obligations.CommandsWriteOnlyWhatIsListed : Prop :=
  ∀ (i : Instr) (s t : State), exec i s = .next t →
    t.params = s.params ∧ t.host = s.host ∧ t.reply = s.reply ∧
    (writesText i = false → ∀ a, t.mem.read .text a = s.mem.read .text a) ∧
    (writesTreeb i = false → ∀ a, t.mem.read .treeb a = s.mem.read .treeb a) ∧
    (writesPay i = false → ∀ a, t.mem.read .pay a = s.mem.read .pay a) ∧
    (writesCont i = false → ∀ a, t.mem.read .cont a = s.mem.read .cont a) ∧
    (writesFreq i = false → t.freq = s.freq ∧ t.nsym = s.nsym ∧ t.vFreq = s.vFreq) ∧
    (writesTree i = false → t.nodes = s.nodes ∧ t.root = s.root ∧ t.vTree = s.vTree) ∧
    (writesCode i = false → t.code = s.code ∧ t.vCode = s.vCode) ∧
    (i = .nop → t = s)

/-- 60_exceptions.md R123: a component or data-entry command either leaves ERR and ERRINFO or changes nothing but them. -/
def Obligations.ErrorsCommitNothing : Prop :=
  ∀ (i : Instr) (s t : State), isMacro i = false → i ≠ .clr → exec i s = .next t →
    (t.err = s.err ∧ t.errInfo = s.errInfo) ∨
      (t = { s with err := t.err, errInfo := t.errInfo } ∧ 1 ≤ t.err.toNat ∧ t.err.toNat ≤ 12)

/-- 10_state.md R18: no command but CLR lowers a valid flag. -/
def Obligations.OnlyClrLowersFlags : Prop :=
  ∀ (i : Instr) (s t : State), i ≠ .clr → exec i s = .next t →
    (s.vFreq = true → t.vFreq = true) ∧ (s.vCode = true → t.vCode = true) ∧ (s.vTree ≠ .none → t.vTree ≠ .none)

/-- 10_state.md R25, R26: the invariant holds after reset, for all legal parameters. -/
def Obligations.InvariantHoldsAtReset : Prop :=
  State.reset.Inv ∧ ∀ p : Params, p.legal = true → (State.resetWith p).Inv

/-- 10_state.md R26, 60_exceptions.md R122, 70_reset_and_hazards.md R143, 00_scope.md R9: from every state that meets the
invariant a step answers a next state that meets it: the core never faults, never refuses, and keeps every bound. -/
def Obligations.EveryStepKeepsTheInvariant : Prop :=
  ∀ s : State, s.Inv →
    ∃ t, step s = .next t ∧ t.Inv ∧ (∀ k (h : k < 128), t.freq[k] < 2 ^ t.params.cntW) ∧
      ∀ n ∈ t.nodes, n.freq < 2 ^ t.params.cntW
end

