-- ==== Sys2Proof/Laws/State.lean ====
section
/-! SUPPORT. One lemma per field per update of the state, so that no proof unfolds a record update. -/

namespace Sys2Proof.Machine

variable (s : State)

@[simp] theorem State.raiseError_params (e : CoreError) : (s.raiseError e).params = s.params := by rfl
@[simp] theorem State.raiseError_mem (e : CoreError) : (s.raiseError e).mem = s.mem := by rfl
@[simp] theorem State.raiseError_freq (e : CoreError) : (s.raiseError e).freq = s.freq := by rfl
@[simp] theorem State.raiseError_nsym (e : CoreError) : (s.raiseError e).nsym = s.nsym := by rfl
@[simp] theorem State.raiseError_nodes (e : CoreError) : (s.raiseError e).nodes = s.nodes := by rfl
@[simp] theorem State.raiseError_root (e : CoreError) : (s.raiseError e).root = s.root := by rfl
@[simp] theorem State.raiseError_code (e : CoreError) : (s.raiseError e).code = s.code := by rfl
@[simp] theorem State.raiseError_vFreq (e : CoreError) : (s.raiseError e).vFreq = s.vFreq := by rfl
@[simp] theorem State.raiseError_vTree (e : CoreError) : (s.raiseError e).vTree = s.vTree := by rfl
@[simp] theorem State.raiseError_vCode (e : CoreError) : (s.raiseError e).vCode = s.vCode := by rfl
@[simp] theorem State.raiseError_err (e : CoreError) : (s.raiseError e).err = e.code := by rfl
@[simp] theorem State.raiseError_errInfo (e : CoreError) : (s.raiseError e).errInfo = e.info := by rfl
@[simp] theorem State.raiseError_host (e : CoreError) : (s.raiseError e).host = s.host := by rfl
@[simp] theorem State.raiseError_reply (e : CoreError) : (s.raiseError e).reply = s.reply := by rfl

@[simp] theorem State.commit_params (b : BufId) (out : List Byte) : (s.commit b out).params = s.params := by rfl
@[simp] theorem State.commit_mem (b : BufId) (out : List Byte) : (s.commit b out).mem = s.mem.set b out := by rfl
@[simp] theorem State.commit_freq (b : BufId) (out : List Byte) : (s.commit b out).freq = s.freq := by rfl
@[simp] theorem State.commit_nsym (b : BufId) (out : List Byte) : (s.commit b out).nsym = s.nsym := by rfl
@[simp] theorem State.commit_nodes (b : BufId) (out : List Byte) : (s.commit b out).nodes = s.nodes := by rfl
@[simp] theorem State.commit_root (b : BufId) (out : List Byte) : (s.commit b out).root = s.root := by rfl
@[simp] theorem State.commit_code (b : BufId) (out : List Byte) : (s.commit b out).code = s.code := by rfl
@[simp] theorem State.commit_vFreq (b : BufId) (out : List Byte) : (s.commit b out).vFreq = s.vFreq := by rfl
@[simp] theorem State.commit_vTree (b : BufId) (out : List Byte) : (s.commit b out).vTree = s.vTree := by rfl
@[simp] theorem State.commit_vCode (b : BufId) (out : List Byte) : (s.commit b out).vCode = s.vCode := by rfl
@[simp] theorem State.commit_err (b : BufId) (out : List Byte) : (s.commit b out).err = s.err := by rfl
@[simp] theorem State.commit_errInfo (b : BufId) (out : List Byte) : (s.commit b out).errInfo = s.errInfo := by rfl
@[simp] theorem State.commit_host (b : BufId) (out : List Byte) : (s.commit b out).host = s.host := by rfl
@[simp] theorem State.commit_reply (b : BufId) (out : List Byte) : (s.commit b out).reply = s.reply := by rfl

@[simp] theorem State.setFreq_params (f : FreqTable) (n : BitVec 8) : (s.setFreq f n).params = s.params := by rfl
@[simp] theorem State.setFreq_mem (f : FreqTable) (n : BitVec 8) : (s.setFreq f n).mem = s.mem := by rfl
@[simp] theorem State.setFreq_freq (f : FreqTable) (n : BitVec 8) : (s.setFreq f n).freq = f := by rfl
@[simp] theorem State.setFreq_nsym (f : FreqTable) (n : BitVec 8) : (s.setFreq f n).nsym = n := by rfl
@[simp] theorem State.setFreq_nodes (f : FreqTable) (n : BitVec 8) : (s.setFreq f n).nodes = s.nodes := by rfl
@[simp] theorem State.setFreq_root (f : FreqTable) (n : BitVec 8) : (s.setFreq f n).root = s.root := by rfl
@[simp] theorem State.setFreq_code (f : FreqTable) (n : BitVec 8) : (s.setFreq f n).code = s.code := by rfl
@[simp] theorem State.setFreq_vFreq (f : FreqTable) (n : BitVec 8) : (s.setFreq f n).vFreq = true := by rfl
@[simp] theorem State.setFreq_vTree (f : FreqTable) (n : BitVec 8) : (s.setFreq f n).vTree = s.vTree := by rfl
@[simp] theorem State.setFreq_vCode (f : FreqTable) (n : BitVec 8) : (s.setFreq f n).vCode = s.vCode := by rfl
@[simp] theorem State.setFreq_err (f : FreqTable) (n : BitVec 8) : (s.setFreq f n).err = s.err := by rfl
@[simp] theorem State.setFreq_errInfo (f : FreqTable) (n : BitVec 8) : (s.setFreq f n).errInfo = s.errInfo := by rfl
@[simp] theorem State.setFreq_host (f : FreqTable) (n : BitVec 8) : (s.setFreq f n).host = s.host := by rfl
@[simp] theorem State.setFreq_reply (f : FreqTable) (n : BitVec 8) : (s.setFreq f n).reply = s.reply := by rfl

@[simp] theorem State.setTree_params (ns : List Node) (r : Nat) (o : TreeOrigin) : (s.setTree ns r o).params = s.params := by rfl
@[simp] theorem State.setTree_mem (ns : List Node) (r : Nat) (o : TreeOrigin) : (s.setTree ns r o).mem = s.mem := by rfl
@[simp] theorem State.setTree_freq (ns : List Node) (r : Nat) (o : TreeOrigin) : (s.setTree ns r o).freq = s.freq := by rfl
@[simp] theorem State.setTree_nsym (ns : List Node) (r : Nat) (o : TreeOrigin) : (s.setTree ns r o).nsym = s.nsym := by rfl
@[simp] theorem State.setTree_nodes (ns : List Node) (r : Nat) (o : TreeOrigin) : (s.setTree ns r o).nodes = ns := by rfl
@[simp] theorem State.setTree_root (ns : List Node) (r : Nat) (o : TreeOrigin) : (s.setTree ns r o).root = BitVec.ofNat 16 r := by rfl
@[simp] theorem State.setTree_code (ns : List Node) (r : Nat) (o : TreeOrigin) : (s.setTree ns r o).code = s.code := by rfl
@[simp] theorem State.setTree_vFreq (ns : List Node) (r : Nat) (o : TreeOrigin) : (s.setTree ns r o).vFreq = s.vFreq := by rfl
@[simp] theorem State.setTree_vTree (ns : List Node) (r : Nat) (o : TreeOrigin) : (s.setTree ns r o).vTree = o := by rfl
@[simp] theorem State.setTree_vCode (ns : List Node) (r : Nat) (o : TreeOrigin) : (s.setTree ns r o).vCode = s.vCode := by rfl
@[simp] theorem State.setTree_err (ns : List Node) (r : Nat) (o : TreeOrigin) : (s.setTree ns r o).err = s.err := by rfl
@[simp] theorem State.setTree_errInfo (ns : List Node) (r : Nat) (o : TreeOrigin) : (s.setTree ns r o).errInfo = s.errInfo := by rfl
@[simp] theorem State.setTree_host (ns : List Node) (r : Nat) (o : TreeOrigin) : (s.setTree ns r o).host = s.host := by rfl
@[simp] theorem State.setTree_reply (ns : List Node) (r : Nat) (o : TreeOrigin) : (s.setTree ns r o).reply = s.reply := by rfl

@[simp] theorem State.setCode_params (c : CodeTable) : (s.setCode c).params = s.params := by rfl
@[simp] theorem State.setCode_mem (c : CodeTable) : (s.setCode c).mem = s.mem := by rfl
@[simp] theorem State.setCode_freq (c : CodeTable) : (s.setCode c).freq = s.freq := by rfl
@[simp] theorem State.setCode_nsym (c : CodeTable) : (s.setCode c).nsym = s.nsym := by rfl
@[simp] theorem State.setCode_nodes (c : CodeTable) : (s.setCode c).nodes = s.nodes := by rfl
@[simp] theorem State.setCode_root (c : CodeTable) : (s.setCode c).root = s.root := by rfl
@[simp] theorem State.setCode_code (c : CodeTable) : (s.setCode c).code = c := by rfl
@[simp] theorem State.setCode_vFreq (c : CodeTable) : (s.setCode c).vFreq = s.vFreq := by rfl
@[simp] theorem State.setCode_vTree (c : CodeTable) : (s.setCode c).vTree = s.vTree := by rfl
@[simp] theorem State.setCode_vCode (c : CodeTable) : (s.setCode c).vCode = true := by rfl
@[simp] theorem State.setCode_err (c : CodeTable) : (s.setCode c).err = s.err := by rfl
@[simp] theorem State.setCode_errInfo (c : CodeTable) : (s.setCode c).errInfo = s.errInfo := by rfl
@[simp] theorem State.setCode_host (c : CodeTable) : (s.setCode c).host = s.host := by rfl
@[simp] theorem State.setCode_reply (c : CodeTable) : (s.setCode c).reply = s.reply := by rfl

@[simp] theorem State.setHost_params (ops : List HostOp) : (s.setHost ops).params = s.params := by rfl
@[simp] theorem State.setHost_mem (ops : List HostOp) : (s.setHost ops).mem = s.mem := by rfl
@[simp] theorem State.setHost_freq (ops : List HostOp) : (s.setHost ops).freq = s.freq := by rfl
@[simp] theorem State.setHost_nsym (ops : List HostOp) : (s.setHost ops).nsym = s.nsym := by rfl
@[simp] theorem State.setHost_nodes (ops : List HostOp) : (s.setHost ops).nodes = s.nodes := by rfl
@[simp] theorem State.setHost_root (ops : List HostOp) : (s.setHost ops).root = s.root := by rfl
@[simp] theorem State.setHost_code (ops : List HostOp) : (s.setHost ops).code = s.code := by rfl
@[simp] theorem State.setHost_vFreq (ops : List HostOp) : (s.setHost ops).vFreq = s.vFreq := by rfl
@[simp] theorem State.setHost_vTree (ops : List HostOp) : (s.setHost ops).vTree = s.vTree := by rfl
@[simp] theorem State.setHost_vCode (ops : List HostOp) : (s.setHost ops).vCode = s.vCode := by rfl
@[simp] theorem State.setHost_err (ops : List HostOp) : (s.setHost ops).err = s.err := by rfl
@[simp] theorem State.setHost_errInfo (ops : List HostOp) : (s.setHost ops).errInfo = s.errInfo := by rfl
@[simp] theorem State.setHost_host (ops : List HostOp) : (s.setHost ops).host = ops := by rfl
@[simp] theorem State.setHost_reply (ops : List HostOp) : (s.setHost ops).reply = s.reply := by rfl

@[simp] theorem State.setReply_params (r : PortReply) : (s.setReply r).params = s.params := by rfl
@[simp] theorem State.setReply_mem (r : PortReply) : (s.setReply r).mem = s.mem := by rfl
@[simp] theorem State.setReply_freq (r : PortReply) : (s.setReply r).freq = s.freq := by rfl
@[simp] theorem State.setReply_nsym (r : PortReply) : (s.setReply r).nsym = s.nsym := by rfl
@[simp] theorem State.setReply_nodes (r : PortReply) : (s.setReply r).nodes = s.nodes := by rfl
@[simp] theorem State.setReply_root (r : PortReply) : (s.setReply r).root = s.root := by rfl
@[simp] theorem State.setReply_code (r : PortReply) : (s.setReply r).code = s.code := by rfl
@[simp] theorem State.setReply_vFreq (r : PortReply) : (s.setReply r).vFreq = s.vFreq := by rfl
@[simp] theorem State.setReply_vTree (r : PortReply) : (s.setReply r).vTree = s.vTree := by rfl
@[simp] theorem State.setReply_vCode (r : PortReply) : (s.setReply r).vCode = s.vCode := by rfl
@[simp] theorem State.setReply_err (r : PortReply) : (s.setReply r).err = s.err := by rfl
@[simp] theorem State.setReply_errInfo (r : PortReply) : (s.setReply r).errInfo = s.errInfo := by rfl
@[simp] theorem State.setReply_host (r : PortReply) : (s.setReply r).host = s.host := by rfl
@[simp] theorem State.setReply_reply (r : PortReply) : (s.setReply r).reply = some r := by rfl

@[simp] theorem State.clear_params : (s.clear).params = s.params := by rfl
@[simp] theorem State.clear_mem : (s.clear).mem = Memory.empty := by rfl
@[simp] theorem State.clear_freq : (s.clear).freq = Vector.replicate 128 0 := by rfl
@[simp] theorem State.clear_nsym : (s.clear).nsym = 0 := by rfl
@[simp] theorem State.clear_nodes : (s.clear).nodes = [] := by rfl
@[simp] theorem State.clear_root : (s.clear).root = 0 := by rfl
@[simp] theorem State.clear_code : (s.clear).code = Vector.replicate 128 CodeEntry.invalid := by rfl
@[simp] theorem State.clear_vFreq : (s.clear).vFreq = false := by rfl
@[simp] theorem State.clear_vTree : (s.clear).vTree = .none := by rfl
@[simp] theorem State.clear_vCode : (s.clear).vCode = false := by rfl
@[simp] theorem State.clear_err : (s.clear).err = 0 := by rfl
@[simp] theorem State.clear_errInfo : (s.clear).errInfo = 0 := by rfl
@[simp] theorem State.clear_host : (s.clear).host = s.host := by rfl
@[simp] theorem State.clear_reply : (s.clear).reply = s.reply := by rfl

variable (p : Params)

@[simp] theorem State.resetWith_params : (State.resetWith p).params = p := by rfl
@[simp] theorem State.resetWith_mem : (State.resetWith p).mem = Memory.empty := by rfl
@[simp] theorem State.resetWith_freq : (State.resetWith p).freq = Vector.replicate 128 0 := by rfl
@[simp] theorem State.resetWith_nsym : (State.resetWith p).nsym = 0 := by rfl
@[simp] theorem State.resetWith_nodes : (State.resetWith p).nodes = [] := by rfl
@[simp] theorem State.resetWith_root : (State.resetWith p).root = 0 := by rfl
@[simp] theorem State.resetWith_code : (State.resetWith p).code = Vector.replicate 128 CodeEntry.invalid := by rfl
@[simp] theorem State.resetWith_vFreq : (State.resetWith p).vFreq = false := by rfl
@[simp] theorem State.resetWith_vTree : (State.resetWith p).vTree = .none := by rfl
@[simp] theorem State.resetWith_vCode : (State.resetWith p).vCode = false := by rfl
@[simp] theorem State.resetWith_err : (State.resetWith p).err = 0 := by rfl
@[simp] theorem State.resetWith_errInfo : (State.resetWith p).errInfo = 0 := by rfl
@[simp] theorem State.resetWith_host : (State.resetWith p).host = [] := by rfl
@[simp] theorem State.resetWith_reply : (State.resetWith p).reply = none := by rfl

end Sys2Proof.Machine
end

