-- ==== Sys2Proof/Laws/Memory.lean ====
section
/-! SUPPORT. The memory laws: reading what was written, leaving the other buffers alone, and keeping the form `Memory.wf`. -/

namespace Sys2Proof.Machine

variable (m : Memory) (b c : BufId) (bs : List Byte)

@[simp] theorem Memory.get_set_same : (m.set b bs).get b = bs := by cases b <;> rfl

theorem Memory.get_set_other (h : c ≠ b) : (m.set b bs).get c = m.get c := by
  cases b <;> cases c <;> first | rfl | exact absurd rfl h

@[simp] theorem Memory.set_get : m.set b (m.get b) = m := by cases b <;> rfl

@[simp] theorem Memory.set_set (bs' : List Byte) : (m.set b bs).set b bs' = m.set b bs' := by cases b <;> rfl

theorem Memory.set_comm (h : b ≠ c) (bs' : List Byte) : (m.set b bs).set c bs' = (m.set c bs').set b bs := by
  cases b <;> cases c <;> first | rfl | exact absurd rfl h

@[simp] theorem Memory.get_text : m.get .text = m.text := by rfl
@[simp] theorem Memory.get_treeb : m.get .treeb = m.treeb := by rfl
@[simp] theorem Memory.get_pay : m.get .pay = m.pay := by rfl
@[simp] theorem Memory.get_cont : m.get .cont = m.cont := by rfl

@[simp] theorem Memory.set_text : m.set .text bs = { m with text := bs } := by rfl
@[simp] theorem Memory.set_treeb : m.set .treeb bs = { m with treeb := bs } := by rfl
@[simp] theorem Memory.set_pay : m.set .pay bs = { m with pay := bs } := by rfl
@[simp] theorem Memory.set_cont : m.set .cont bs = { m with cont := bs } := by rfl

/-- A read below the length gives the byte there, one at or above it nothing (10_state.md R13). -/
theorem Memory.read_isSome (i : Nat) : (m.read b i).isSome = decide (i < m.len b) := by
  by_cases h : i < (m.get b).length <;> simp [Memory.read, h]

/-- The byte a PUSH appends is read back at the old length, and every other byte reads as before. -/
theorem Memory.read_append (v : Byte) (i : Nat) :
    (m.set b (m.get b ++ [v])).read b i = if i = m.len b then some v else m.read b i := by
  simp only [Memory.read, Memory.get_set_same, Memory.len]
  by_cases h : i = (m.get b).length
  · subst h; simp
  · rw [if_neg h]
    rcases Nat.lt_or_ge i (m.get b).length with h' | h'
    · simp [List.getElem?_append_left h']
    · have h1 : (m.get b ++ [v]).length ≤ i := by simp; omega
      rw [List.getElem?_eq_none h1, List.getElem?_eq_none h']

theorem Memory.wf_iff (p : Params) : m.wf p = true ↔ ∀ b, (m.get b).length ≤ cap p b := by
  simp only [Memory.wf, Bool.and_eq_true, decide_eq_true_eq, Memory.len]
  constructor
  · rintro ⟨⟨⟨h1, h2⟩, h3⟩, h4⟩ b; cases b <;> assumption
  · intro h; exact ⟨⟨⟨h _, h _⟩, h _⟩, h _⟩

/-- Replacing a buffer by a sequence within its capacity keeps the form. -/
theorem Memory.wf_set {p : Params} (h : m.wf p = true) (hb : bs.length ≤ cap p b) : (m.set b bs).wf p = true := by
  rw [Memory.wf_iff] at h ⊢
  intro c
  by_cases hc : c = b
  · subst hc; simpa using hb
  · rw [Memory.get_set_other m b c bs hc]; exact h c

/-- Empty buffers have the form. -/
@[simp] theorem Memory.wf_empty (p : Params) : Memory.empty.wf p = true := by
  rw [Memory.wf_iff]; intro b; cases b <;> simp [Memory.empty, Memory.get]

/-- Appending below the capacity keeps the form (20_memory.md R32). -/
theorem Memory.wf_append {p : Params} (h : m.wf p = true) (hb : (m.get b).length ≠ cap p b) (v : Byte) :
    (m.set b (m.get b ++ [v])).wf p = true := by
  have := (Memory.wf_iff m p).1 h b
  exact Memory.wf_set m b _ h (by simp; omega)

/-- The cells of a buffer lie at the offset they start from or above. -/
theorem bufferCells_bound (off : Nat) : ∀ x ∈ bufferCells off bs, off ≤ x.1 := by
  induction bs generalizing off with
  | nil => simp [bufferCells]
  | cons v vs ih =>
    intro x hx
    rcases List.mem_cons.1 hx with rfl | hx
    · exact le_rfl
    · exact (Nat.le_succ off).trans (ih (off + 1) x hx)

/-- The cells of a buffer stand at strictly rising addresses: the canonical form of a list of cells. -/
theorem bufferCells_rising (off : Nat) : (bufferCells off bs).Pairwise (fun x y => x.1 < y.1) := by
  induction bs generalizing off with
  | nil => simp [bufferCells]
  | cons v vs ih => exact List.Pairwise.cons (fun y hy => bufferCells_bound vs (off + 1) y hy) (ih (off + 1))

/-- Two buffers with the same cells are the same: the byte sequence is the canonical form itself. -/
theorem bufferCells_injective (off : Nat) {bs bs' : List Byte} (h : bufferCells off bs = bufferCells off bs') :
    bs = bs' := by
  induction bs generalizing off bs' with
  | nil => cases bs' <;> simp_all [bufferCells]
  | cons v vs ih =>
    cases bs' with
    | nil => simp [bufferCells] at h
    | cons w ws =>
      simp only [bufferCells, List.cons.injEq, Prod.mk.injEq, true_and] at h
      rw [h.1, ih (off + 1) h.2]

end Sys2Proof.Machine
end

