-- ==== Sys2Proof/Laws/Ops.lean ====
section
/-! SUPPORT. One lemma per shared operation, saying everything it can do; proofs cite these and do not unfold. -/

namespace Sys2Proof.Machine

/-- `runSteps`: a first step that commits is followed by the rest. -/
theorem runSteps_cons_ok {f : CmdStep} {fs : List CmdStep} {s t : State} (h : f s = .ok t) :
    runSteps (f :: fs) s = runSteps fs t := by simp [runSteps, h]

/-- `runSteps`: a first step that raises ends the command with ERR and ERRINFO written (60_exceptions.md R123). -/
theorem runSteps_cons_raise {f : CmdStep} {fs : List CmdStep} {s : State} {e : CoreError}
    (h : f s = .error (.raise e)) : runSteps (f :: fs) s = .next (s.raiseError e) := by simp [runSteps, h, stopAt]

/-- `runSteps`: a first step that faults stops the machine. -/
theorem runSteps_cons_fault {f : CmdStep} {fs : List CmdStep} {s : State} {e : Fault}
    (h : f s = .error (.fault e)) : runSteps (f :: fs) s = .fault e := by simp [runSteps, h, stopAt]

/-- Everything a component command can do: commit, raise, or fault. -/
theorem runSteps_one {f : CmdStep} {s t : State} (h : runSteps [f] s = .next t) :
    f s = .ok t ∨ ∃ e, f s = .error (.raise e) ∧ t = s.raiseError e := by
  unfold runSteps at h
  split at h
  · next s' h' => simp only [runSteps, Host.Outcome.next.injEq] at h; exact .inl (h ▸ h')
  · next e h' =>
    cases e with
    | raise e => simp only [stopAt, Host.Outcome.next.injEq] at h; exact .inr ⟨e, h', h.symm⟩
    | fault e => simp [stopAt] at h

/-- Induction over the steps of a command, macro or not: what every committing step and every raise keep, the command
keeps. -/
theorem runSteps_induct {P : State → Prop} {fs : List CmdStep} {s t : State}
    (hstep : ∀ f ∈ fs, ∀ s t, P s → f s = .ok t → P t)
    (hraise : ∀ f ∈ fs, ∀ s e, P s → f s = .error (.raise e) → P (s.raiseError e)) (hs : P s)
    (h : runSteps fs s = .next t) : P t := by
  induction fs generalizing s with
  | nil => simp only [runSteps, Host.Outcome.next.injEq] at h; exact h ▸ hs
  | cons f fs ih =>
    unfold runSteps at h
    split at h
    · next s' h' =>
      exact ih (fun g hg => hstep g (List.mem_cons_of_mem f hg)) (fun g hg => hraise g (List.mem_cons_of_mem f hg))
        (hstep f List.mem_cons_self s s' hs h') h
    · next e h' =>
      cases e with
      | raise e =>
        simp only [stopAt, Host.Outcome.next.injEq] at h
        exact h ▸ hraise f List.mem_cons_self s e hs h'
      | fault e => simp [stopAt] at h

/-- The prerequisites, each in full (60_exceptions.md R134). -/
theorem requireFreq_eq (s : State) :
    requireFreq s = if s.vFreq = true then .ok () else .error (.raise (.sequence 1)) := by
  unfold requireFreq; cases s.vFreq <;> rfl

theorem requireTree_eq (s : State) :
    requireTree s = if s.vTree = .none then .error (.raise (.sequence 2)) else .ok () := by rfl

theorem requireCode_eq (s : State) :
    requireCode s = if s.vCode = true then .ok () else .error (.raise (.sequence 3)) := by
  unfold requireCode; cases s.vCode <;> rfl

theorem requireBuilt_eq (s : State) :
    requireBuilt s =
      if s.vTree = .built then .ok ()
      else .error (.raise (.sequence (if s.vTree = .none then 2 else 4))) := by
  unfold requireBuilt; cases s.vTree <;> rfl

/-- `emit`: below the capacity the byte is appended. -/
theorem emit_ok {b : BufId} {capacity : Nat} {out : List Byte} (h : out.length < capacity) (v : Byte) :
    emit b capacity out v = .ok (out ++ [v]) := by simp [emit, h.ne]

/-- Everything `emit` can do (00_scope.md R8). -/
theorem emit_cases {b : BufId} {capacity : Nat} {out : List Byte} {v : Byte} :
    (out.length = capacity ∧ emit b capacity out v = .error (.raise (.bufferOverflow b))) ∨
      (out.length ≠ capacity ∧ emit b capacity out v = .ok (out ++ [v])) := by
  by_cases h : out.length = capacity
  · exact .inl ⟨h, by simp [emit, h, raise]⟩
  · exact .inr ⟨h, by simp [emit, h]⟩

/-- What is emitted stays within the capacity. -/
theorem emit_le {b : BufId} {capacity : Nat} {out out' : List Byte} {v : Byte} (hc : out.length ≤ capacity)
    (h : emit b capacity out v = .ok out') : out'.length ≤ capacity ∧ out' = out ++ [v] := by
  rcases emit_cases (b := b) (capacity := capacity) (out := out) (v := v) with ⟨_, h'⟩ | ⟨h1, h'⟩ <;>
    rw [h'] at h
  · simp at h
  · simp only [Except.ok.injEq] at h; subst h; simp; omega

/-- `emitAll`: a sequence that fits is appended whole. -/
theorem emitAll_ok {b : BufId} {capacity : Nat} (vs : List Byte) {out : List Byte}
    (h : out.length + vs.length ≤ capacity) : emitAll b capacity out vs = .ok (out ++ vs) := by
  induction vs generalizing out with
  | nil => simp [emitAll]
  | cons v vs ih =>
    simp only [List.length_cons] at h
    rw [emitAll, emit_ok (by omega)]
    simp only
    rw [ih (by simp; omega)]; simp

/-- What `emitAll` answers stays within the capacity. -/
theorem emitAll_le {b : BufId} {capacity : Nat} (vs : List Byte) {out out' : List Byte} (hc : out.length ≤ capacity)
    (h : emitAll b capacity out vs = .ok out') : out'.length ≤ capacity ∧ out' = out ++ vs := by
  induction vs generalizing out with
  | nil => simp only [emitAll, Except.ok.injEq] at h; subst h; simp [hc]
  | cons v vs ih =>
    rw [emitAll] at h
    split at h
    · next o ho =>
      obtain ⟨h1, rfl⟩ := emit_le hc ho
      obtain ⟨h2, rfl⟩ := ih h1 h
      exact ⟨h2, by simp⟩
    · simp at h

/-- `memRead` inside the length is the big-endian number of the bytes there (20_memory.md R31, R33). -/
theorem memRead_ok {bs : List Byte} {addr n : Nat} (h : addr + n ≤ bs.length) :
    memRead bs addr n = .ok (bigEndian ((bs.drop addr).take n)) := by simp [memRead, h]

/-- `readNode` below NNODES is the record there (10_state.md R15). -/
theorem readNode_ok {ns : List Node} {i : Nat} {n : Node} (h : ns[i]? = some n) : readNode ns i = .ok n := by
  simp [readNode, h]

/-- Everything `pushStep` can do (40_control_and_host.md section 3). -/
theorem pushStep_cases (b : BufId) (v : Byte) (s : State) :
    (s.mem.len b = cap s.params b ∧ pushStep b v s = .error (.raise (.bufferOverflow b))) ∨
      (s.mem.len b ≠ cap s.params b ∧ pushStep b v s = .ok (s.commit b (s.mem.get b ++ [v]))) := by
  by_cases h : s.mem.len b = cap s.params b
  · exact .inl ⟨h, by simp only [pushStep, if_pos h, raise]⟩
  · exact .inr ⟨h, by simp only [pushStep, if_neg h]⟩

end Sys2Proof.Machine
end

