-- ==== Sys2Proof/Laws/Shape.lean ====
section
/-! SUPPORT. The tree in an arena: how `shapeAt`, `preorder` and `oneTree` go together, and the small laws of `Shape`. -/

namespace Sys2Proof.Machine

/-! ### Shapes -/

@[simp] theorem Shape.length_bytes (sh : Shape) : sh.bytes.length = sh.size := by
  induction sh with
  | leaf v => rfl
  | node l r ihl ihr => simp only [bytes, size, List.length_cons, List.length_append, ihl, ihr]; omega

@[simp] theorem Shape.length_arena (sh : Shape) (k : Nat) : (sh.arena k).length = sh.size := by
  induction sh generalizing k with
  | leaf v => rfl
  | node l r ihl ihr => simp only [arena, size, List.length_cons, List.length_append, ihl, ihr]; omega

theorem Shape.size_pos (sh : Shape) : 0 < sh.size := by cases sh <;> simp only [size] <;> omega

/-- A full tree of `n` leaves has `2 n − 1` nodes (10_state.md R26 d). -/
theorem Shape.size_leaves (sh : Shape) : sh.size + 1 = 2 * sh.leaves.length := by
  induction sh with
  | leaf v => rfl
  | node l r ihl ihr => simp only [size, leaves, List.length_append]; omega

theorem Shape.map_fst_paths (sh : Shape) : sh.paths.map (·.1) = sh.leaves := by
  induction sh with
  | leaf v => rfl
  | node l r ihl ihr => simp [paths, leaves, ← ihl, ← ihr, Function.comp_def]

/-- A path is shorter than the tree has leaves (43_code_table.md R85: at most 127 for at most 128 leaves). -/
theorem Shape.path_length_lt (sh : Shape) : ∀ q ∈ sh.paths, q.2.length < sh.leaves.length := by
  have pos : ∀ t : Shape, 0 < t.leaves.length := fun t => by have := t.size_leaves; have := t.size_pos; omega
  induction sh with
  | leaf v => simp [paths, leaves]
  | node l r ihl ihr =>
    intro q hq
    have := pos l; have := pos r
    simp only [paths, List.mem_append, List.mem_map] at hq
    simp only [leaves, List.length_append]
    rcases hq with ⟨q', hq', rfl⟩ | ⟨q', hq', rfl⟩
    · have := ihl q' hq'; simp only [List.length_cons]; omega
    · have := ihr q' hq'; simp only [List.length_cons]; omega

/-- The path of the leftmost leaf: `leftDepth` times left (45_bit_unpacker.md R100). -/
theorem Shape.leftmost_mem (sh : Shape) : (sh.leftmost, List.replicate sh.leftDepth false) ∈ sh.paths := by
  induction sh with
  | leaf v => simp [paths, leftmost, leftDepth]
  | node l r ihl ihr =>
    simp only [paths, leftmost, leftDepth, List.replicate_succ, List.mem_append, List.mem_map]
    exact .inl ⟨_, ihl, rfl⟩

/-- A path that is a prefix of another is that path: no leaf lies on the way to another (43_code_table.md R87 b). -/
theorem Shape.paths_prefixFree (sh : Shape) : ∀ p ∈ sh.paths, ∀ q ∈ sh.paths, p.2 <+: q.2 → p = q := by
  induction sh with
  | leaf v => simp [paths]
  | node l r ihl ihr =>
    intro p hp q hq hpq
    simp only [paths, List.mem_append, List.mem_map] at hp hq
    rcases hp with ⟨p', hp', rfl⟩ | ⟨p', hp', rfl⟩ <;> rcases hq with ⟨q', hq', rfl⟩ | ⟨q', hq', rfl⟩ <;>
      simp only [List.cons_prefix_cons, true_and, false_and, Bool.false_eq_true, Bool.true_eq_false] at hpq
    · rw [ihl p' hp' q' hq' hpq]
    · rw [ihr p' hp' q' hq' hpq]

/-! ### The tree in an arena -/

/-- More fuel finds the same tree. -/
theorem shapeAt_mono {ns : List Node} {f g i : Nat} {sh : Shape} (h : shapeAt ns f i = some sh) (hfg : f ≤ g) :
    shapeAt ns g i = some sh := by
  induction f generalizing g i sh with
  | zero => simp [shapeAt] at h
  | succ f ih =>
    obtain ⟨g, rfl⟩ : ∃ g', g = g' + 1 := ⟨g - 1, by omega⟩
    simp only [shapeAt] at h ⊢
    split at h
    · simp at h
    · next n hn =>
      split at h
      · next hl => simpa [hl] using h
      · next hl =>
        split at h
        · next l r el er =>
          have hg : f ≤ g := by omega
          simp only [hl, Bool.false_eq_true, if_false, ih el hg, ih er hg]
          exact h
        · simp at h

/-- What a found tree says of the arena. -/
theorem shapeAt_cases {ns : List Node} {f i : Nat} {sh : Shape} (h : shapeAt ns (f + 1) i = some sh) :
    ∃ n, ns[i]? = some n ∧
      ((n.leaf = true ∧ sh = .leaf n.sym) ∨
        (n.leaf = false ∧ ∃ l r, sh = .node l r ∧ shapeAt ns f n.left.toNat = some l ∧
          shapeAt ns f n.right.toNat = some r)) := by
  simp only [shapeAt] at h
  split at h
  · simp at h
  · next n hn =>
    refine ⟨n, hn, ?_⟩
    split at h
    · next hl => exact .inl ⟨hl, by simpa using h.symm⟩
    · next hl =>
      split at h
      · next l r el er => exact .inr ⟨by simpa using hl, l, r, by simpa using h.symm, el, er⟩
      · simp at h

/-- A pre-order walk that ends has walked a tree, and has visited each of its nodes once. -/
theorem preorder_shape {ns : List Node} {f i : Nat} {is : List Nat} (h : preorder ns f i = some is) :
    ∃ sh, shapeAt ns f i = some sh ∧ is.length = sh.size := by
  induction f generalizing i is with
  | zero => simp [preorder] at h
  | succ f ih =>
    simp only [preorder] at h
    simp only [shapeAt]
    split at h
    · simp at h
    · next n hn =>
      split at h
      · next hl => simp only [Option.some.injEq] at h; subst h; exact ⟨.leaf n.sym, by simp [hl], rfl⟩
      · next hl =>
        split at h
        · next l r el er =>
          obtain ⟨sl, hl', l1⟩ := ih el
          obtain ⟨sr, hr', l2⟩ := ih er
          simp only [Option.some.injEq] at h; subst h
          exact ⟨.node sl sr, by simp [hl, hl', hr'], by simp only [List.length_cons, List.length_append, Shape.size]; omega⟩
        · simp at h

/-- An arena that is one tree (10_state.md R26) has a shape with one node per entry. -/
theorem oneTree_shape {s : State} (h : oneTree s.nodes s.root.toNat = true) :
    ∃ sh, s.shape = some sh ∧ sh.size = s.nodes.length := by
  unfold oneTree at h
  split at h
  · next is his =>
    obtain ⟨sh, h1, h2⟩ := preorder_shape his
    refine ⟨sh, h1, ?_⟩
    have := (List.isPerm_iff.1 h).length_eq
    simp at this; omega
  · simp at h

/-- Every leaf of the tree is a leaf record of the arena, with its symbol. -/
theorem shapeAt_leaf {ns : List Node} {f i : Nat} {sh : Shape} (h : shapeAt ns f i = some sh) {v : Byte}
    (hv : v ∈ sh.leaves) : ∃ n ∈ ns, n.leaf = true ∧ n.sym = v := by
  induction f generalizing i sh with
  | zero => simp [shapeAt] at h
  | succ f ih =>
    obtain ⟨n, hn, ⟨hl, rfl⟩ | ⟨hl, l, r, rfl, el, er⟩⟩ := shapeAt_cases h
    · exact ⟨n, List.mem_of_getElem? hn, hl, by simpa [Shape.leaves, eq_comm] using hv⟩
    · rcases List.mem_append.1 hv with hv | hv
      · exact ih el hv
      · exact ih er hv

end Sys2Proof.Machine
end

