-- ==== Sys2Proof/Laws/Walks.lean ====
section
/-! SUPPORT. What the walks of TSER, TDES, UNPACK do on an arena or a byte sequence that holds a tree. -/

namespace Sys2Proof.Machine

/-! ### TSER -/

/-- `serialize` on a tree without a leaf of symbol 0 appends its pre-order bytes (46_tree_codec.md R102). -/
theorem serialize_ok {ns : List Node} {f i : Nat} {sh : Shape} {out : List Byte} (h : shapeAt ns f i = some sh)
    (h0 : (0 : Byte) ∉ sh.leaves) (hc : out.length + sh.size ≤ treebCap) :
    serialize ns f i out = .ok (out ++ sh.bytes) := by
  induction f generalizing i sh out with
  | zero => simp [shapeAt] at h
  | succ f ih =>
    obtain ⟨n, hn, ⟨hl, rfl⟩ | ⟨hl, l, r, rfl, el, er⟩⟩ := shapeAt_cases h
    · simp only [Shape.leaves, List.mem_singleton] at h0
      simp only [Shape.size] at hc
      simp only [serialize, readNode_ok hn, hl, if_true, if_neg (Ne.symm h0), emit_ok (show out.length < treebCap by omega),
        Shape.bytes]
    · simp only [Shape.leaves, List.mem_append, not_or] at h0
      simp only [Shape.size] at hc
      simp only [serialize, readNode_ok hn, hl, Bool.false_eq_true, if_false,
        emit_ok (show out.length < treebCap by omega)]
      rw [ih el h0.1 (by simp only [List.length_append, List.length_singleton]; omega)]
      simp only
      rw [ih er h0.2 (by simp only [List.length_append, List.length_singleton, Shape.length_bytes]; omega)]
      simp [Shape.bytes]

/-- `serialize` on a tree with a leaf of symbol 0 raises UnrepresentableSymbol with the index of such a leaf
(46_tree_codec.md R103). -/
theorem serialize_nul {ns : List Node} {f i : Nat} {sh : Shape} {out : List Byte} (h : shapeAt ns f i = some sh)
    (h0 : (0 : Byte) ∈ sh.leaves) (hc : out.length + sh.size ≤ treebCap) :
    ∃ j n, ns[j]? = some n ∧ n.leaf = true ∧ n.sym = 0 ∧
      serialize ns f i out = .error (.raise (.unrepresentableSymbol j)) := by
  induction f generalizing i sh out with
  | zero => simp [shapeAt] at h
  | succ f ih =>
    obtain ⟨n, hn, ⟨hl, rfl⟩ | ⟨hl, l, r, rfl, el, er⟩⟩ := shapeAt_cases h
    · simp only [Shape.leaves, List.mem_singleton] at h0
      exact ⟨i, n, hn, hl, h0.symm, by simp [serialize, readNode_ok hn, hl, ← h0, raise]⟩
    · simp only [Shape.size] at hc
      have ho : out.length < treebCap := by omega
      by_cases hl0 : (0 : Byte) ∈ l.leaves
      · obtain ⟨j, m, h1, h2, h3, h4⟩ := ih (out := out ++ [0]) el hl0
          (by simp only [List.length_append, List.length_singleton]; omega)
        refine ⟨j, m, h1, h2, h3, ?_⟩
        simp only [serialize, readNode_ok hn, hl, Bool.false_eq_true, if_false, emit_ok ho, h4]
      · have hr0 : (0 : Byte) ∈ r.leaves := by
          rcases List.mem_append.1 h0 with h | h
          · exact absurd h hl0
          · exact h
        obtain ⟨j, m, h1, h2, h3, h4⟩ := ih (out := out ++ [0] ++ l.bytes) er hr0
          (by simp only [List.length_append, List.length_singleton, Shape.length_bytes]; omega)
        refine ⟨j, m, h1, h2, h3, ?_⟩
        simp only [serialize, readNode_ok hn, hl, Bool.false_eq_true, if_false, emit_ok ho]
        rw [serialize_ok el hl0 (by simp only [List.length_append, List.length_singleton]; omega)]
        exact h4

/-! ### TDES -/

/-- The serialization of a tree without a leaf of symbol 0 delimits itself (30_encoding.md R53). -/
theorem Shape.bytes_inj {a b : Shape} (ha : (0 : Byte) ∉ a.leaves) (hb : (0 : Byte) ∉ b.leaves) {x y : List Byte}
    (h : a.bytes ++ x = b.bytes ++ y) : a = b ∧ x = y := by
  induction a generalizing b x y with
  | leaf v =>
    cases b with
    | leaf w => simp_all [bytes]
    | node l r =>
      simp only [bytes, List.cons_append, List.nil_append, List.cons.injEq] at h
      simp [leaves, h.1] at ha
  | node l r ihl ihr =>
    cases b with
    | leaf w =>
      simp only [bytes, List.cons_append, List.nil_append, List.cons.injEq] at h
      simp [leaves, ← h.1] at hb
    | node l' r' =>
      simp only [leaves, List.mem_append, not_or] at ha hb
      simp only [bytes, List.cons_append, List.append_assoc, List.cons.injEq, true_and] at h
      obtain ⟨rfl, h'⟩ := ihl ha.1 hb.1 h
      obtain ⟨rfl, h''⟩ := ihr ha.2 hb.2 h'
      exact ⟨rfl, h''⟩

/-- `parse` where a tree stands that the arena can hold: it consumes the tree and appends its pre-order arena
(46_tree_codec.md R105). -/
theorem parse_ok {treeb : List Byte} {nodeCap f : Nat} {p : ParseState} {sh : Shape} {rest : List Byte}
    (h : treeb.drop p.pos = sh.bytes ++ rest) (h0 : (0 : Byte) ∉ sh.leaves) (hf : sh.size ≤ f)
    (hc : p.nodes.length + sh.size ≤ nodeCap) :
    parse treeb nodeCap f p =
      .ok (p.nodes.length, ⟨p.pos + sh.size, p.nodes ++ sh.arena p.nodes.length⟩) := by
  induction f generalizing p sh rest with
  | zero => have := sh.size_pos; omega
  | succ f ih =>
    have hpos : ∀ {v : Byte} {l : List Byte}, treeb.drop p.pos = v :: l →
        treeb[p.pos]? = some v ∧ treeb.drop (p.pos + 1) = l := by
      intro v l hv
      constructor
      · rw [← List.head?_drop, hv]; rfl
      · rw [← List.drop_drop, hv]; rfl
    cases sh with
    | leaf v =>
      obtain ⟨h1, -⟩ := hpos (v := v) (l := rest) (by simpa [Shape.bytes] using h)
      simp only [Shape.size] at hc
      simp only [Shape.leaves, List.mem_singleton] at h0
      simp only [parse, h1, if_neg (show ¬ p.nodes.length = nodeCap by omega), if_pos (Ne.symm h0), Shape.size,
        Shape.arena, deserLeaf]
    | node l r =>
      simp only [Shape.leaves, List.mem_append, not_or] at h0
      simp only [Shape.size] at hc hf
      obtain ⟨h1, h2⟩ := hpos (v := 0) (l := l.bytes ++ (r.bytes ++ rest)) (by simpa [Shape.bytes] using h)
      simp only [parse, h1, if_neg (show ¬ p.nodes.length = nodeCap by omega), ne_eq, not_true_eq_false, if_false]
      rw [ih (p := ⟨p.pos + 1, p.nodes ++ [deserNode 0 0]⟩) h2 h0.1 (by omega)
        (by simp only [List.length_append, List.length_singleton]; omega)]
      simp only
      rw [ih (sh := r) (rest := rest) (p := ⟨p.pos + 1 + l.size, _⟩) ?_ h0.2 (by omega)
        (by simp only [List.length_append, List.length_singleton, Shape.length_arena]; omega)]
      · simp [Shape.size, Shape.arena, deserNode, Nat.add_assoc, Nat.add_comm]
      · rw [← List.drop_drop, h2, List.drop_left' (Shape.length_bytes l)]

/-- `parse` where no tree stands that the arena can hold: MalformedTree at the end of the bytes, or NodeOverflow at the
first byte beyond the arena, whichever comes first (46_tree_codec.md R106; 60_exceptions.md R133). -/
theorem parse_fails {treeb : List Byte} {nodeCap f : Nat} {p : ParseState} (hp : p.pos = p.nodes.length)
    (hle : p.pos ≤ treeb.length) (hcap : p.pos ≤ nodeCap) (hf : treeb.length - p.pos < f)
    (h : ∀ (sh : Shape) (rest : List Byte), (0 : Byte) ∉ sh.leaves → p.pos + sh.size ≤ nodeCap →
      treeb.drop p.pos ≠ sh.bytes ++ rest) :
    parse treeb nodeCap f p =
      .error (.raise (if treeb.length ≤ nodeCap then .malformedTree treeb.length else .nodeOverflow nodeCap)) := by
  induction f generalizing p with
  | zero => omega
  | succ f ih =>
    rcases hle.eq_or_lt with hend | hlt
    · have : treeb.length ≤ nodeCap := by omega
      simp [parse, hend, this, raise]
    · have hget : treeb[p.pos]? = some treeb[p.pos] := List.getElem?_eq_getElem hlt
      have hdrop : treeb.drop p.pos = treeb[p.pos] :: treeb.drop (p.pos + 1) := List.drop_eq_getElem_cons hlt
      by_cases hfull : p.nodes.length = nodeCap
      · have h1 : ¬ treeb.length ≤ nodeCap := by omega
        simp only [parse, hget, if_pos hfull, raise, if_neg h1]
        rw [hp, hfull]
      · by_cases hv : treeb[p.pos] = 0
        · rw [hv] at hget hdrop
          simp only [parse, hget, if_neg hfull, ne_eq, not_true_eq_false, if_false]
          by_cases hl : ∃ (l : Shape) (x : List Byte), (0 : Byte) ∉ l.leaves ∧ p.pos + 1 + l.size ≤ nodeCap ∧
              treeb.drop (p.pos + 1) = l.bytes ++ x
          · obtain ⟨l, x, hl0, hlc, hlx⟩ := hl
            have hlen : l.size ≤ treeb.length - (p.pos + 1) := by
              have := congrArg List.length hlx
              simp only [List.length_drop, List.length_append, Shape.length_bytes] at this; omega
            rw [parse_ok (p := ⟨p.pos + 1, p.nodes ++ [deserNode 0 0]⟩) hlx hl0 (by omega)
              (by simp only [List.length_append, List.length_singleton]; omega)]
            simp only
            rw [ih (p := ⟨p.pos + 1 + l.size, _⟩)]
            · simp only [List.length_append, List.length_singleton, Shape.length_arena]; omega
            · simp only; omega
            · simp only; omega
            · simp only; omega
            · intro r rest hr0 hrc hr
              refine h (.node l r) rest (by simp only [Shape.leaves, List.mem_append, not_or]; exact ⟨hl0, hr0⟩) (by simp only [Shape.size] at hrc ⊢; omega) ?_
              simp only [← List.drop_drop, hlx, List.drop_left' (Shape.length_bytes l)] at hr
              rw [hdrop, hlx, hr]; simp [Shape.bytes]
          · rw [ih (p := ⟨p.pos + 1, p.nodes ++ [deserNode 0 0]⟩)]
            · simp only [List.length_append, List.length_singleton]; omega
            · simp only; omega
            · simp only; omega
            · simp only; omega
            · intro l x hl0 hlc hlx
              exact hl ⟨l, x, hl0, by simp only at hlc; omega, hlx⟩
        · exact absurd (by rw [hdrop]; rfl)
            (h (.leaf treeb[p.pos]) (treeb.drop (p.pos + 1)) (by simpa [Shape.leaves] using Ne.symm hv)
              (by simp only [Shape.size]; omega))

/-- The pre-order arena of a tree, wherever it lies, holds that tree (46_tree_codec.md R105). -/
theorem shapeAt_arena {sh : Shape} {pre post : List Node} {f : Nat} (hf : sh.size ≤ f)
    (hw : pre.length + sh.size ≤ 2 ^ 16) :
    shapeAt (pre ++ sh.arena pre.length ++ post) f pre.length = some sh := by
  induction sh generalizing pre post f with
  | leaf v =>
    obtain ⟨f, rfl⟩ : ∃ g, f = g + 1 := ⟨f - 1, by simp only [Shape.size] at hf; omega⟩
    simp [shapeAt, Shape.arena]
  | node l r ihl ihr =>
    simp only [Shape.size] at hf hw
    have := l.size_pos; have := r.size_pos
    obtain ⟨f, rfl⟩ : ∃ g, f = g + 1 := ⟨f - 1, by omega⟩
    have h1 : (BitVec.ofNat 16 (pre.length + 1)).toNat = pre.length + 1 := by simp; omega
    have h2 : (BitVec.ofNat 16 (pre.length + 1 + l.size)).toNat = pre.length + 1 + l.size := by simp; omega
    set n : Node := ⟨0, false, 0, BitVec.ofNat 16 (pre.length + 1), BitVec.ofNat 16 (pre.length + 1 + l.size)⟩ with hn
    have hget : (pre ++ (Shape.node l r).arena pre.length ++ post)[pre.length]? = some n := by simp [Shape.arena, hn]
    have el := ihl (pre := pre ++ [n]) (post := r.arena (pre.length + 1 + l.size) ++ post) (f := f) (by omega)
      (by simp only [List.length_append, List.length_singleton]; omega)
    have er := ihr (pre := pre ++ [n] ++ l.arena (pre.length + 1)) (post := post) (f := f) (by omega)
      (by simp only [List.length_append, List.length_singleton, Shape.length_arena]; omega)
    simp only [List.length_append, List.length_singleton, Shape.length_arena] at el er
    have e : pre ++ (Shape.node l r).arena pre.length ++ post =
        pre ++ [n] ++ l.arena (pre.length + 1) ++ (r.arena (pre.length + 1 + l.size) ++ post) := by
      simp [Shape.arena, hn]
    simp only [shapeAt, hget, hn, Bool.false_eq_true, if_false, h1, h2]
    rw [e, el]
    rw [← List.append_assoc, er]

end Sys2Proof.Machine
end

