-- ==== Sys2Proof/Laws/Codes.lean ====
section
/-! SUPPORT. Bits: code words and payload bytes as bit sequences, and what GENCODE, PACK and UNPACK do in terms of them. -/

namespace Sys2Proof.Machine

/-! ### Bit sequences -/

theorem bitsMsb_eq (v : Byte) : bitsMsb v = (List.range 8).map (fun j => v.getLsbD (7 - j)) := rfl

@[simp] theorem length_bitsMsb (v : Byte) : (bitsMsb v).length = 8 := by rfl

@[simp] theorem length_codeBits (e : CodeEntry) : (codeBits e).length = e.len.toNat := by simp [codeBits]

@[simp] theorem length_streamBits (bs : List Byte) : (streamBits bs).length = 8 * bs.length := by simp [streamBits]

/-- The stream of a payload is the bits of its bytes, byte after byte (20_memory.md R34). -/
theorem streamBits_cons (v : Byte) (bs : List Byte) : streamBits (v :: bs) = bitsMsb v ++ streamBits bs := by
  apply List.ext_getElem
  · simp; omega
  · intro q h1 h2
    simp only [streamBits, List.getElem_map, List.getElem_range, List.getElem_append, length_bitsMsb]
    split
    · next h => simp [bitsMsb_eq, streamBit, Nat.div_eq_of_lt h, Nat.mod_eq_of_lt h]
    · next h =>
      have e1 : q / 8 = (q - 8) / 8 + 1 := by omega
      have e2 : q % 8 = (q - 8) % 8 := by omega
      simp [streamBit, e1, e2]

@[simp] theorem streamBits_nil : streamBits [] = [] := by rfl

theorem streamBits_append (xs ys : List Byte) : streamBits (xs ++ ys) = streamBits xs ++ streamBits ys := by
  induction xs with
  | nil => simp
  | cons v vs ih => simp [streamBits_cons, ih]

/-- One bit of the stream, by its position. -/
theorem getElem?_streamBits (bs : List Byte) (q : Nat) (h : q < 8 * bs.length) :
    (streamBits bs)[q]? = some (streamBit bs q) := by simp [streamBits, h]

/-- Beyond the payload there is no bit. -/
theorem streamBit_out (bs : List Byte) (q : Nat) (h : 8 * bs.length ≤ q) : streamBit bs q = false := by
  have : bs[q / 8]? = none := by rw [List.getElem?_eq_none_iff]; omega
  simp [streamBit, this]

/-! ### UNPACK -/

/-- `unpackBits` from an internal node of a tree with an internal root: it emits what the bits decode to and ends at an
internal node from which any further bits go on decoding, or raises BufferOverflow when the symbols exceed the capacity
(45_bit_unpacker.md R96, R98). -/
theorem unpackBits_spec {ns : List Node} {root capacity i f : Nat} {tl tr : Shape}
    (hroot : shapeAt ns f root = some (.node tl tr)) (bits : List Bool) {cur g : Nat} {cl cr : Shape} {out : List Byte}
    (hcur : shapeAt ns g cur = some (.node cl cr)) (hout : out.length ≤ capacity) :
    (∃ cur' g' l r, shapeAt ns g' cur' = some (.node l r) ∧
        (∀ more, (Shape.node tl tr).decode (.node cl cr) (bits ++ more) =
          (Shape.node tl tr).decode (.node cl cr) bits ++ (Shape.node tl tr).decode (.node l r) more) ∧
        out.length + ((Shape.node tl tr).decode (.node cl cr) bits).length ≤ capacity ∧
        unpackBits ns root capacity i bits ⟨cur, out⟩ =
          .ok ⟨cur', out ++ (Shape.node tl tr).decode (.node cl cr) bits⟩) ∨
      ((∀ more, capacity < out.length + ((Shape.node tl tr).decode (.node cl cr) (bits ++ more)).length) ∧
        unpackBits ns root capacity i bits ⟨cur, out⟩ = .error (.raise (.bufferOverflow .text))) := by
  induction bits generalizing cur g cl cr out with
  | nil => exact .inl ⟨cur, g, cl, cr, hcur, by simp [Shape.decode], by simpa [Shape.decode], by simp [unpackBits, Shape.decode]⟩
  | cons b bs ih =>
    obtain ⟨g, rfl⟩ : ∃ g', g = g' + 1 := by
      cases g with
      | zero => simp [shapeAt] at hcur
      | succ g => exact ⟨g, rfl⟩
    obtain ⟨n, hn, ⟨-, h⟩ | ⟨hl, l, r, he, el, er⟩⟩ := shapeAt_cases hcur
    · simp at h
    · obtain ⟨rfl, rfl⟩ : cl = l ∧ cr = r := by simpa using he
      have hnext : shapeAt ns g (if b then n.right.toNat else n.left.toNat) = some (if b then cr else cl) := by
        cases b <;> simpa
      obtain ⟨g, rfl⟩ : ∃ g', g = g' + 1 := by
        cases g with
        | zero => simp [shapeAt] at hnext
        | succ g => exact ⟨g, rfl⟩
      obtain ⟨m, hm, ⟨ml, hs⟩ | ⟨ml, l', r', hs, -, -⟩⟩ := shapeAt_cases hnext
      · rcases emit_cases (b := .text) (capacity := capacity) (out := out) (v := m.sym) with ⟨he, hemit⟩ | ⟨he, hemit⟩
        · refine .inr ⟨fun more => ?_, ?_⟩
          · simp only [List.cons_append, Shape.decode, hs, List.length_cons]; omega
          · simp only [unpackBits, unpackBit, readNode_ok hn, hl, Bool.false_eq_true, if_false, readNode_ok hm, ml,
              if_true, hemit]
        · have hb : unpackBit ns root capacity i ⟨cur, out⟩ b = .ok ⟨root, out ++ [m.sym]⟩ := by
            simp only [unpackBit, readNode_ok hn, hl, Bool.false_eq_true, if_false, readNode_ok hm, ml, if_true, hemit]
          have hd : ∀ x, (Shape.node tl tr).decode (.node cl cr) (b :: x) =
              m.sym :: (Shape.node tl tr).decode (.node tl tr) x := fun x => by simp only [Shape.decode, hs]
          rcases ih (out := out ++ [m.sym]) hroot (by simp; omega) with ⟨cur', g', l, r, h1, h2, h3, h4⟩ | ⟨h1, h2⟩
          · refine .inl ⟨cur', g', l, r, h1, fun more => ?_, ?_, ?_⟩
            · rw [List.cons_append, hd, hd, h2]; rfl
            · rw [hd]; simp only [List.length_append, List.length_cons, List.length_nil] at h3 ⊢; omega
            · rw [unpackBits, hb, hd]; simp only; rw [h4]; simp
          · refine .inr ⟨fun more => ?_, ?_⟩
            · have := h1 more
              rw [List.cons_append, hd]
              simp only [List.length_append, List.length_cons, List.length_nil] at this ⊢; omega
            · rw [unpackBits, hb]; exact h2
      · have hb : unpackBit ns root capacity i ⟨cur, out⟩ b =
            .ok ⟨if b then n.right.toNat else n.left.toNat, out⟩ := by
          simp only [unpackBit, readNode_ok hn, hl, Bool.false_eq_true, if_false, readNode_ok hm, ml]
        have hd : ∀ x, (Shape.node tl tr).decode (.node cl cr) (b :: x) =
            (Shape.node tl tr).decode (.node l' r') x := fun x => by simp only [Shape.decode, hs]
        rw [hs] at hnext
        rcases ih hnext hout with ⟨cur', g', l, r, h1, h2, h3, h4⟩ | ⟨h1, h2⟩
        · refine .inl ⟨cur', g', l, r, h1, fun more => ?_, ?_, ?_⟩
          · rw [List.cons_append, hd, hd, h2]
          · rw [hd]; exact h3
          · rw [unpackBits, hb, hd]; exact h4
        · refine .inr ⟨fun more => ?_, ?_⟩
          · rw [List.cons_append, hd]; exact h1 more
          · rw [unpackBits, hb]; exact h2

/-- `unpackFrom` on a tree with an internal root: the whole stream is decoded (45_bit_unpacker.md R99), or BufferOverflow
is raised when the symbols exceed the capacity. -/
theorem unpackFrom_spec {ns : List Node} {root capacity f : Nat} {tl tr : Shape}
    (hroot : shapeAt ns f root = some (.node tl tr)) (bs : List Byte) {i cur g : Nat} {cl cr : Shape} {out : List Byte}
    (hcur : shapeAt ns g cur = some (.node cl cr)) (hout : out.length ≤ capacity) :
    (out.length + ((Shape.node tl tr).decode (.node cl cr) (streamBits bs)).length ≤ capacity →
      ∃ cur', unpackFrom ns root capacity bs i ⟨cur, out⟩ =
        .ok ⟨cur', out ++ (Shape.node tl tr).decode (.node cl cr) (streamBits bs)⟩) ∧
    (capacity < out.length + ((Shape.node tl tr).decode (.node cl cr) (streamBits bs)).length →
      unpackFrom ns root capacity bs i ⟨cur, out⟩ = .error (.raise (.bufferOverflow .text))) := by
  induction bs generalizing i cur g cl cr out with
  | nil => simp [unpackFrom, Shape.decode]; omega
  | cons v vs ih =>
    rw [streamBits_cons]
    rcases unpackBits_spec (i := i) hroot (bitsMsb v) hcur hout with ⟨cur', g', l, r, h1, h2, h3, h4⟩ | ⟨h1, h2⟩
    · have := ih (i := i + 1) (out := out ++ (Shape.node tl tr).decode (.node cl cr) (bitsMsb v)) h1
        (by simpa only [List.length_append])
      rw [h2, List.length_append, unpackFrom, h4]
      simp only [List.length_append] at this
      simpa only [Nat.add_assoc, List.append_assoc] using this
    · refine ⟨fun h => absurd h (by have := h1 (streamBits vs); omega), fun _ => ?_⟩
      rw [unpackFrom, h2]

/-- A leaf at the root: the first payload bit raises DegenerateTree (45_bit_unpacker.md R97). -/
theorem unpackFrom_leaf {ns : List Node} {root capacity i : Nat} {n : Node} {out : List Byte} (hn : ns[root]? = some n)
    (hl : n.leaf = true) (v : Byte) (vs : List Byte) :
    unpackFrom ns root capacity (v :: vs) i ⟨root, out⟩ = .error (.raise (.degenerateTree i)) := by
  simp only [unpackFrom, bitsMsb, List.map_cons, unpackBits, unpackBit, readNode_ok hn, hl, if_true, raise]

/-! ### Decoding a stream of code words -/

/-- From any node, the path to a leaf below it decodes to that leaf's symbol and returns to the top. -/
theorem Shape.decode_path {top : Shape} {l r : Shape} {q : Byte × List Bool} (hq : q ∈ (Shape.node l r).paths)
    (more : List Bool) : top.decode (.node l r) (q.2 ++ more) = q.1 :: top.decode top more := by
  obtain ⟨v, p⟩ := q
  induction p generalizing l r with
  | nil =>
    simp only [paths, List.mem_append, List.mem_map, Prod.mk.injEq, reduceCtorEq, and_false, exists_false,
      or_self] at hq
  | cons b bs ih =>
    have hq' : (v, bs) ∈ (if b then r else l).paths := by
      simp only [paths, List.mem_append, List.mem_map, Prod.mk.injEq, List.cons.injEq] at hq
      rcases hq with ⟨⟨w, p⟩, h, rfl, rfl, rfl⟩ | ⟨⟨w, p⟩, h, rfl, rfl, rfl⟩ <;> simpa
    simp only [List.cons_append, decode]
    cases hc : (if b then r else l) with
    | leaf w =>
      rw [hc] at hq'
      simp only [paths, List.mem_singleton, Prod.mk.injEq] at hq'
      simp [hq'.1, hq'.2]
    | node l' r' => rw [hc] at hq'; simpa using ih hq'

/-- A stream of code words of a tree decodes to their symbols, whatever follows (45_bit_unpacker.md R100). -/
theorem Shape.decode_text {l r : Shape} (text : List (Byte × List Bool)) (h : ∀ q ∈ text, q ∈ (Shape.node l r).paths)
    (more : List Bool) :
    (Shape.node l r).decode (.node l r) (text.flatMap (·.2) ++ more) =
      text.map (·.1) ++ (Shape.node l r).decode (.node l r) more := by
  induction text with
  | nil => rfl
  | cons q qs ih =>
    simp only [List.flatMap_cons, List.append_assoc, List.map_cons, List.cons_append]
    rw [decode_path (h q (by simp)), ih (fun q hq => h q (by simp [hq]))]

/-- Fewer zeros than the leftmost leaf is deep lead to no leaf (45_bit_unpacker.md R98). -/
theorem Shape.decode_zeros_short {top l r : Shape} {p : Nat} (h : p < (Shape.node l r).leftDepth) :
    top.decode (.node l r) (List.replicate p false) = [] := by
  induction p generalizing l r with
  | zero => simp [decode]
  | succ p ih =>
    simp only [List.replicate_succ, decode, Bool.false_eq_true, if_false]
    cases l with
    | leaf v => simp [leftDepth] at h
    | node l' r' => simp only; exact ih (by simp only [leftDepth] at h ⊢; omega)

/-- Zeros decode to `floor(p / k)` copies of the leftmost leaf's symbol (45_bit_unpacker.md R100). -/
theorem Shape.decode_zeros {l r : Shape} (p : Nat) :
    (Shape.node l r).decode (.node l r) (List.replicate p false) =
      List.replicate (p / (Shape.node l r).leftDepth) (Shape.node l r).leftmost := by
  induction p using Nat.strong_induction_on with
  | _ p ih =>
    have hk : 0 < (Shape.node l r).leftDepth := by simp [leftDepth]
    rcases Nat.lt_or_ge p (Shape.node l r).leftDepth with h | h
    · rw [decode_zeros_short h, Nat.div_eq_of_lt h]; rfl
    · have e : List.replicate p false =
          List.replicate (Shape.node l r).leftDepth false ++ List.replicate (p - (Shape.node l r).leftDepth) false := by
        rw [List.replicate_append_replicate, Nat.add_sub_cancel' h]
      rw [e, decode_path (q := ((Shape.node l r).leftmost, _)) (Shape.leftmost_mem _), ih _ (by omega),
        ← List.replicate_succ, Nat.div_eq_sub_div hk h]

end Sys2Proof.Machine
end

