-- ==== Sys2Proof/Laws/Tables.lean ====
section
/-! SUPPORT. What the loops of COUNT, BUILD and GENCODE do to their tables, and the header of a container. -/

namespace Sys2Proof.Machine

/-! ### COUNT -/

/-- `countFrom` on 7-bit bytes adds the number of occurrences of every symbol (41_symbol_table.md R75). -/
theorem countFrom_ok (bs : List Byte) (i : Nat) (f : FreqTable) (h : ∀ v ∈ bs, v.toNat < 128) :
    ∃ g, countFrom bs i f = .ok g ∧ ∀ k (hk : k < 128), g[k] = f[k] + bs.count (BitVec.ofNat 8 k) := by
  induction bs generalizing i f with
  | nil => exact ⟨f, rfl, by simp⟩
  | cons v vs ih =>
    have hv : v.toNat < 128 := h v (by simp)
    obtain ⟨g, h1, h2⟩ := ih (i + 1) (f.set v.toNat (f[v.toNat] + 1)) (fun u hu => h u (by simp [hu]))
    refine ⟨g, by rw [countFrom, dif_pos hv]; exact h1, fun k hk => ?_⟩
    rw [h2 k hk, List.count_cons, Vector.getElem_set]
    by_cases e : v.toNat = k
    · subst e; simp; omega
    · have : ¬ v = BitVec.ofNat 8 k := by
        rintro rfl; exact e (by simp; omega)
      simp [e, this]

/-- `countFrom` stops at the first byte of 128 or more, with its offset (41_symbol_table.md R76). -/
theorem countFrom_high (pre post : List Byte) (v : Byte) (i : Nat) (f : FreqTable) (h : ∀ u ∈ pre, u.toNat < 128)
    (hv : 128 ≤ v.toNat) :
    countFrom (pre ++ v :: post) i f = .error (.raise (.invalidSymbol (i + pre.length))) := by
  induction pre generalizing i f with
  | nil => simp only [List.nil_append, countFrom, dif_neg (Nat.not_lt.2 hv), raise, List.length_nil, Nat.add_zero]
  | cons u us ih =>
    rw [List.cons_append, countFrom, dif_pos (h u (by simp)), ih _ _ (fun w hw => h w (by simp [hw]))]
    simp only [List.length_cons, Nat.add_assoc, Nat.add_comm 1]

/-! ### BUILD -/

/-- `popMin` loses no entry of the queue. -/
theorem popMin_length (k : PqEntry) (ks : List PqEntry) : (popMin k ks).2.length = ks.length := by
  induction ks generalizing k with
  | nil => rfl
  | cons x xs ih =>
    have := ih x
    simp only [popMin]
    split <;> simp [this]

/-- The queue entries of a list of nodes, by index (42_tree_builder.md R80). -/
theorem getElem?_seedFrom (ns : List Node) (i k : Nat) :
    (seedFrom ns i)[k]? = ns[k]?.map (fun n => ⟨n.freq, i + k⟩) := by
  induction ns generalizing i k with
  | nil => simp [seedFrom]
  | cons n ns ih =>
    cases k with
    | zero => simp [seedFrom]
    | succ k => simp only [seedFrom, List.getElem?_cons_succ, ih]; congr 1; funext n; congr 1; omega

/-- The leaves of BUILD are those of the positive counters, ascending (42_tree_builder.md R80). -/
theorem leavesFrom_eq (l : List Nat) (i : Nat) :
    leavesFrom l i = (l.zipIdx i).filterMap (fun q => if 0 < q.1 then some (leafNode q.1 q.2) else none) := by
  induction l generalizing i with
  | nil => rfl
  | cons n ns ih => by_cases h : 0 < n <;> simp [leavesFrom, h, ih]

/-- The arena only grows in the merge loop: a queue of `n` entries takes `n − 1` merges (42_tree_builder.md R83 a). -/
theorem mergeLoop_length {fuel : Nat} {ns : List Node} {k : PqEntry} {ks : List PqEntry} (h : ks.length ≤ fuel) :
    (mergeLoop fuel ns k ks).1.length = ns.length + ks.length ∧ ns <+: (mergeLoop fuel ns k ks).1 := by
  induction fuel generalizing ns k ks with
  | zero => simp only [mergeLoop, Nat.le_zero.1 h, Nat.add_zero, true_and]; exact List.prefix_rfl
  | succ fuel ih =>
    have hl := popMin_length k ks
    rw [mergeLoop]
    split
    · next a ha =>
      rw [ha] at hl
      simp only [List.length_nil] at hl
      exact ⟨by simp only [← hl, Nat.add_zero], List.prefix_rfl⟩
    · next a x xs ha =>
      rw [ha] at hl
      have hl' := popMin_length x xs
      simp only [List.length_cons] at hl
      obtain ⟨h1, h2⟩ := ih (ns := ns ++ [mergedNode a (popMin x xs).1])
        (k := ⟨a.freq + (popMin x xs).1.freq, ns.length⟩) (ks := (popMin x xs).2) (by omega)
      refine ⟨?_, (List.prefix_append _ _).trans h2⟩
      simp only
      rw [h1, List.length_append, List.length_singleton]; omega

/-! ### GENCODE -/

/-- The pattern of a path below a node of pattern `pat` (43_code_table.md R85). -/
def pathPattern (pat : Nat) (bits : List Bool) : Nat := bits.foldl (fun a b => a * 2 + b.toNat) pat

/-- `visit` on a tree of 7-bit leaves records every leaf with its path (43_code_table.md R85). -/
theorem visit_ok {ns : List Node} {f i pat len : Nat} {sh : Shape} {c : CodeTable} (h : shapeAt ns f i = some sh)
    (hs : ∀ v ∈ sh.leaves, v.toNat < 128) :
    visit ns f i pat len c =
      .ok (sh.paths.foldl
        (fun c q => c.setIfInBounds q.1.toNat (codeWord (pathPattern pat q.2) (len + q.2.length))) c) := by
  induction f generalizing i pat len sh c with
  | zero => simp [shapeAt] at h
  | succ f ih =>
    obtain ⟨n, hn, ⟨hl, rfl⟩ | ⟨hl, l, r, rfl, el, er⟩⟩ := shapeAt_cases h
    · have hv : n.sym.toNat < 128 := hs _ (by simp [Shape.leaves])
      simp [visit, readNode_ok hn, hl, hv, Shape.paths, pathPattern]
      apply Vector.toArray_inj.1
      simp [Array.setIfInBounds, hv]
    · have hs1 : ∀ v ∈ l.leaves, v.toNat < 128 := fun v hv => hs v (by simp [Shape.leaves, hv])
      have hs2 : ∀ v ∈ r.leaves, v.toNat < 128 := fun v hv => hs v (by simp [Shape.leaves, hv])
      simp only [visit, readNode_ok hn, hl, Bool.false_eq_true, if_false, ih el hs1, ih er hs2, Shape.paths,
        List.foldl_append, List.foldl_map, pathPattern, List.foldl_cons, List.length_cons, Bool.toNat_false,
        Bool.toNat_true, Nat.add_zero, Nat.add_assoc, Nat.add_comm 1]

/-! ### The container's header -/

/-- The header CENC writes is the one of 30_encoding.md R54. -/
theorem containerHeader_eq (tl pl : Nat) :
    containerHeader (BitVec.ofNat 32 tl) (BitVec.ofNat 32 pl) = headerBytes tl pl := by
  have key : ∀ n k : Nat, k < 4 → byteOf (BitVec.ofNat 32 n) k = BitVec.ofNat 8 (n / 2 ^ (8 * k)) := by
    intro n k hk
    apply BitVec.eq_of_getLsbD_eq
    intro j hj
    simp only [byteOf, BitVec.getLsbD_extractLsb', BitVec.getLsbD_ofNat, hj, decide_true, Bool.true_and,
      Nat.testBit_div_two_pow]
    have : 8 * k + j < 32 := by omega
    simp only [Nat.add_comm j, this, decide_true, Bool.true_and]
  simp [containerHeader, headerBytes, key]

/-- The two-byte length field read back. -/
theorem bigEndian_two {tl : Nat} (h : tl < 2 ^ 16) :
    bigEndian [BitVec.ofNat 8 (tl / 256), BitVec.ofNat 8 tl] = tl := by
  simp only [bigEndian, List.foldl_cons, List.foldl_nil, BitVec.toNat_ofNat]; omega

/-- The four-byte length field read back. -/
theorem bigEndian_four {pl : Nat} (h : pl < 2 ^ 32) :
    bigEndian [BitVec.ofNat 8 (pl / 2 ^ 24), BitVec.ofNat 8 (pl / 2 ^ 16), BitVec.ofNat 8 (pl / 2 ^ 8),
      BitVec.ofNat 8 pl] = pl := by
  simp only [bigEndian, List.foldl_cons, List.foldl_nil, BitVec.toNat_ofNat]; omega

end Sys2Proof.Machine
end

