-- ==== Sys2Proof/Laws/Packing.lean ====
section
/-! SUPPORT. PACK as a bit stream: the bytes emitted, then the valid low bits of the accumulator, are the code words shifted
in so far. -/

namespace Sys2Proof.Machine

/-- The low `n` bits of the accumulator, most significant first: the bits not yet emitted (44_bit_packer.md R90). -/
def lowBits (acc : BitVec 134) (n : Nat) : List Bool := (List.range n).map (fun j => acc.getLsbD (n - 1 - j))

@[simp] theorem length_lowBits (acc : BitVec 134) (n : Nat) : (lowBits acc n).length = n := by simp [lowBits]

/-- The bits PACK holds so far: those emitted, then those in the accumulator. -/
def PackState.bits (p : PackState) : List Bool := streamBits p.out ++ lowBits p.acc p.nbits

theorem PackState.length_bits (p : PackState) : p.bits.length = 8 * p.out.length + p.nbits := by simp [PackState.bits]

/-- The bits of the pattern of a path are the path (43_code_table.md R85; 30_encoding.md R51). -/
theorem testBit_pathPattern (bits : List Bool) (pat j : Nat) :
    (pathPattern pat bits).testBit j =
      if h : j < bits.length then bits[bits.length - 1 - j] else pat.testBit (j - bits.length) := by
  induction bits generalizing pat with
  | nil => simp [pathPattern]
  | cons b bs ih =>
    have e : pathPattern pat (b :: bs) = pathPattern (pat * 2 + b.toNat) bs := rfl
    rw [e, ih]
    rcases Nat.lt_trichotomy j bs.length with h | h | h
    · have e2 : bs.length + 1 - 1 - j = (bs.length - 1 - j) + 1 := by omega
      simp only [h, List.length_cons, Nat.lt_succ_of_lt h, dif_pos, e2, List.getElem_cons_succ]
    · subst h
      simp only [Nat.lt_irrefl, dif_neg, not_false_eq_true, Nat.sub_self, List.length_cons, Nat.lt_succ_self, dif_pos,
        Nat.add_sub_cancel, List.getElem_cons_zero]
      cases b <;> simp [Nat.testBit_zero]
    · have h1 : ¬ j < bs.length := by omega
      have h2 : ¬ j < bs.length + 1 := by omega
      have e2 : j - bs.length = (j - (bs.length + 1)) + 1 := by omega
      simp only [h1, h2, List.length_cons, dif_neg, not_false_eq_true, e2, Nat.testBit_succ]
      congr 1
      cases b <;> simp
      omega

/-- The code word recorded for a path of at most 127 steps is the path (43_code_table.md R85). -/
theorem codeBits_codeWord (bits : List Bool) (h : bits.length ≤ 127) :
    codeBits (codeWord (pathPattern 0 bits) bits.length) = bits := by
  have hl : (codeWord (pathPattern 0 bits) bits.length).len.toNat = bits.length := by
    simp only [codeWord, BitVec.toNat_ofNat]; omega
  apply List.ext_getElem
  · rw [length_codeBits, hl]
  · intro j h1 h2
    have h3 : bits.length - 1 - j < 127 := by omega
    have h4 : bits.length - 1 - j < bits.length := by omega
    have h5 : bits.length - 1 - (bits.length - 1 - j) = j := by omega
    simp only [codeBits, List.getElem_map, List.getElem_range, hl]
    simp only [codeWord, BitVec.getLsbD_ofNat, h3, decide_true, Bool.true_and, testBit_pathPattern, h4, dif_pos, h5]

/-- The pattern of a path lies within its length (10_state.md R17). -/
theorem pathPattern_lt (bits : List Bool) : pathPattern 0 bits < 2 ^ bits.length := by
  apply Nat.lt_pow_two_of_testBit
  intro j hj
  rw [testBit_pathPattern, dif_neg (by omega)]
  exact Nat.zero_testBit _

/-- Emitting the top byte moves the first eight pending bits to the stream (44_bit_packer.md R91). -/
theorem lowBits_split (acc : BitVec 134) (n : Nat) (h : 8 ≤ n) :
    lowBits acc n = bitsMsb (topByte acc n) ++ lowBits (keepLow acc (n - 8)) (n - 8) := by
  apply List.ext_getElem
  · simp; omega
  · intro j h1 h2
    simp only [length_lowBits] at h1
    simp only [lowBits, List.getElem_map, List.getElem_range, List.getElem_append, length_bitsMsb]
    split
    · next hj =>
      have e : n - 8 + (7 - j) = n - 1 - j := by omega
      have hj' : 7 - j < 8 := by omega
      simp only [bitsMsb_eq, List.getElem_map, List.getElem_range, topByte, BitVec.getLsbD_setWidth, hj', decide_true,
        Bool.true_and, BitVec.getLsbD_ushiftRight, e]
    · next hj =>
      have e : n - 8 - 1 - (j - 8) = n - 1 - j := by omega
      rw [e]
      by_cases hb : n - 1 - j < 134
      · have hk : ((1 : BitVec 134) <<< (n - 8) - 1).getLsbD (n - 1 - j) = true := by
          have hm : (1 : BitVec 134) <<< (n - 8) - 1 = BitVec.ofNat 134 (2 ^ (n - 8) - 1) := by
            apply BitVec.eq_of_toNat_eq
            have hp : (0 : Nat) < 2 ^ (n - 8) := Nat.two_pow_pos _
            by_cases hn : n - 8 < 134
            · have hlt : 2 ^ (n - 8) < 2 ^ 134 := Nat.pow_lt_pow_right (by omega) hn
              simp only [BitVec.toNat_sub, BitVec.toNat_shiftLeft, BitVec.toNat_ofNat, Nat.shiftLeft_eq]
              rw [show BitVec.toNat (1 : BitVec 134) = 1 by rfl, Nat.one_mul, Nat.mod_eq_of_lt hlt]
              omega
            · obtain ⟨d, hd⟩ : ∃ d, 2 ^ (n - 8) = 2 ^ 134 * (d + 1) :=
                ⟨2 ^ (n - 8 - 134) - 1, by
                  rw [Nat.sub_add_cancel (Nat.two_pow_pos _), ← Nat.pow_add, Nat.add_sub_cancel' (by omega)]⟩
              simp only [BitVec.toNat_sub, BitVec.toNat_shiftLeft, BitVec.toNat_ofNat, Nat.shiftLeft_eq]
              rw [show BitVec.toNat (1 : BitVec 134) = 1 by rfl, Nat.one_mul, hd]
              omega
          rw [hm, BitVec.getLsbD_ofNat, Nat.testBit_two_pow_sub_one]
          simp only [hb, decide_true, Bool.true_and, decide_eq_true_eq]; omega
        simp only [keepLow, BitVec.getLsbD_and, hk, Bool.and_true]
      · have hb' : 134 ≤ n - 1 - j := by omega
        simp only [BitVec.getLsbD_of_ge _ _ hb']

/-- Shifting a code word in appends its bits (44_bit_packer.md R90), ACC_W = 134 being wide enough for it. -/
theorem lowBits_shiftIn (p : PackState) (e : CodeEntry) (hp : p.nbits < 8) (he : e.pat.toNat < 2 ^ e.len.toNat) :
    lowBits (shiftIn p e).acc (shiftIn p e).nbits = lowBits p.acc p.nbits ++ codeBits e := by
  have hlen : e.len.toNat ≤ 127 := by have := e.len.isLt; omega
  apply List.ext_getElem
  · simp [shiftIn]
  · intro j h1 h2
    simp only [length_lowBits, shiftIn] at h1
    simp only [lowBits, codeBits, shiftIn, List.getElem_map, List.getElem_range, List.getElem_append, List.length_map,
      List.length_range, BitVec.getLsbD_or, BitVec.getLsbD_shiftLeft, BitVec.getLsbD_setWidth]
    have hb : p.nbits + e.len.toNat - 1 - j < 134 := by omega
    split
    · next hj =>
      have e1 : ¬ p.nbits + e.len.toNat - 1 - j < e.len.toNat := by omega
      have e2 : p.nbits + e.len.toNat - 1 - j - e.len.toNat = p.nbits - 1 - j := by omega
      have e3 : e.pat.getLsbD (p.nbits + e.len.toNat - 1 - j) = false := by
        rw [BitVec.getLsbD, Nat.testBit_lt_two_pow]
        exact Nat.lt_of_lt_of_le he (Nat.pow_le_pow_right (by omega) (by omega))
      simp only [hb, e1, e2, e3, decide_true, decide_false, Bool.not_false, Bool.true_and, Bool.or_false]
    · next hj =>
      have e1 : p.nbits + e.len.toNat - 1 - j < e.len.toNat := by omega
      have e2 : p.nbits + e.len.toNat - 1 - j = e.len.toNat - 1 - (j - p.nbits) := by omega
      have e3 : e.len.toNat - 1 - (j - p.nbits) < e.len.toNat := by omega
      have e4 : e.len.toNat - 1 - (j - p.nbits) < 134 := by omega
      simp only [e2, e3, e4, decide_true, Bool.not_true, Bool.true_and, Bool.false_and, Bool.false_or]

/-- Everything `drain` can do: all whole bytes go out and no bit is lost, or they exceed the capacity and BufferOverflow is
raised (44_bit_packer.md R91; 60_exceptions.md R132). -/
theorem drain_spec {capacity fuel : Nat} {p : PackState} (hf : p.nbits ≤ fuel) (hc : p.out.length ≤ capacity) :
    (p.out.length + p.nbits / 8 ≤ capacity ∧
        ∃ p', drain capacity fuel p = .ok p' ∧ p'.bits = p.bits ∧ p'.nbits = p.nbits % 8 ∧
          p'.out.length = p.out.length + p.nbits / 8) ∨
      (capacity < p.out.length + p.nbits / 8 ∧ drain capacity fuel p = .error (.raise (.bufferOverflow .pay))) := by
  induction fuel generalizing p with
  | zero => exact .inl ⟨by omega, p, rfl, rfl, by omega, by omega⟩
  | succ fuel ih =>
    by_cases h8 : 8 ≤ p.nbits
    · rcases emit_cases (b := .pay) (capacity := capacity) (out := p.out) (v := topByte p.acc p.nbits) with
        ⟨he, hemit⟩ | ⟨he, hemit⟩
      · exact .inr ⟨by omega, by simp only [drain, if_pos h8, hemit]⟩
      · have hd : drain capacity (fuel + 1) p =
            drain capacity fuel ⟨keepLow p.acc (p.nbits - 8), p.nbits - 8, p.out ++ [topByte p.acc p.nbits]⟩ := by
          simp only [drain, if_pos h8, hemit]
        have hb : PackState.bits ⟨keepLow p.acc (p.nbits - 8), p.nbits - 8, p.out ++ [topByte p.acc p.nbits]⟩ =
            p.bits := by
          simp only [PackState.bits, streamBits_append, streamBits_cons, streamBits_nil, List.append_nil,
            List.append_assoc, ← lowBits_split p.acc p.nbits h8]
        rcases ih (p := ⟨keepLow p.acc (p.nbits - 8), p.nbits - 8, p.out ++ [topByte p.acc p.nbits]⟩)
          (by simp only; omega) (by simp only [List.length_append, List.length_singleton]; omega) with
          ⟨h1, p', h2, h3, h4, h5⟩ | ⟨h1, h2⟩
        · simp only [List.length_append, List.length_singleton] at h1 h4 h5
          exact .inl ⟨by omega, p', hd ▸ h2, h3.trans hb, by omega, by omega⟩
        · simp only [List.length_append, List.length_singleton] at h1
          exact .inr ⟨by omega, hd ▸ h2⟩
    · exact .inl ⟨by omega, p, by simp only [drain, if_neg h8], rfl, by omega, by omega⟩

/-- The last byte holds the pending bits and then zeros (44_bit_packer.md R92). -/
theorem bitsMsb_last (acc : BitVec 134) (n : Nat) (h : n ≤ 8) :
    bitsMsb ((acc <<< (8 - n)).setWidth 8) = lowBits acc n ++ List.replicate (8 - n) false := by
  apply List.ext_getElem
  · simp; omega
  · intro j h1 h2
    simp only [length_bitsMsb] at h1
    have hj : 7 - j < 8 := by omega
    have hj' : 7 - j < 134 := by omega
    simp only [bitsMsb_eq, lowBits, List.getElem_map, List.getElem_range, List.getElem_append, List.length_map,
      List.length_range, List.getElem_replicate, BitVec.getLsbD_setWidth, BitVec.getLsbD_shiftLeft, hj, hj', decide_true,
      Bool.true_and]
    split
    · next hjn =>
      have e1 : ¬ 7 - j < 8 - n := by omega
      have e2 : 7 - j - (8 - n) = n - 1 - j := by omega
      simp only [e1, e2, decide_false, Bool.not_false, Bool.true_and]
    · next hjn =>
      have e1 : 7 - j < 8 - n := by omega
      simp only [e1, decide_true, Bool.not_true, Bool.false_and]

/-- `packFrom` on a text PACK accepts: every code word is appended to the bits held, or the whole bytes exceed the capacity
and BufferOverflow is raised (44_bit_packer.md R90, R93). -/
theorem packFrom_spec {code : CodeTable} {capacity : Nat} (text : List Byte) {i : Nat} {p : PackState}
    (hok : ∀ e ∈ code.toList, e.ok = true) (ht : packable code text) (hp : p.nbits < 8) (hc : p.out.length ≤ capacity) :
    ((p.bits ++ textBits code text).length / 8 ≤ capacity ∧
        ∃ p', packFrom code capacity text i p = .ok p' ∧ p'.bits = p.bits ++ textBits code text ∧ p'.nbits < 8 ∧
          p'.out.length ≤ capacity) ∨
      (capacity < (p.bits ++ textBits code text).length / 8 ∧
        packFrom code capacity text i p = .error (.raise (.bufferOverflow .pay))) := by
  induction text generalizing i p with
  | nil =>
    have := p.length_bits
    refine .inl ⟨?_, p, rfl, ?_, hp, hc⟩
    · simp only [textBits, List.flatMap_nil, List.append_nil]; omega
    · simp only [textBits, List.flatMap_nil, List.append_nil]
  | cons v vs ih =>
    obtain ⟨hv, hvalid⟩ := ht v (by simp)
    have he : entryOf code v = code[v.toNat] := by simp [entryOf, hv]
    rw [he] at hvalid
    have hpat : code[v.toNat].pat.toNat < 2 ^ code[v.toNat].len.toNat := by
      have := hok code[v.toNat] (by simp)
      simpa [CodeEntry.ok, hvalid] using this
    have hb : (shiftIn p code[v.toNat]).bits = p.bits ++ codeBits (entryOf code v) := by
      rw [PackState.bits, lowBits_shiftIn p _ hp hpat, he]
      simp only [PackState.bits, shiftIn, List.append_assoc]
    have ht' : p.bits ++ textBits code (v :: vs) = (shiftIn p code[v.toNat]).bits ++ textBits code vs := by
      rw [hb]; simp only [textBits, List.flatMap_cons, List.append_assoc]
    rw [ht']
    rcases drain_spec (capacity := capacity) (fuel := (shiftIn p code[v.toNat]).nbits)
      (p := shiftIn p code[v.toNat]) le_rfl hc with ⟨h1, p', h2, h3, h4, h5⟩ | ⟨h1, h2⟩
    · have hstep : packFrom code capacity (v :: vs) i p = packFrom code capacity vs (i + 1) p' := by
        rw [packFrom, dif_pos hv]; simp only [hvalid, Bool.true_eq_false, if_false, h2]
      rw [hstep, ← h3]
      exact ih (fun u hu => ht u (by simp [hu])) (by omega) (by omega)
    · refine .inr ⟨?_, by rw [packFrom, dif_pos hv]; simp only [hvalid, Bool.true_eq_false, if_false, h2]⟩
      have := (shiftIn p code[v.toNat]).length_bits
      simp only [List.length_append]; omega

end Sys2Proof.Machine
end

