-- ==== Sys2Proof/Laws/PerInstr.lean ====
section
/-! SUPPORT. Statements for every command as syntax: each encoded word is the word of its row of spec/opcode_table.json. -/

namespace Sys2Proof.Laws.TableRow

/-- The row of a command in 30_encoding.md R44: its `match`, its `mask`, and the operand byte its low byte holds. -/
def row : Instr → CmdWord × CmdWord × Byte
  | .nop => (0x0000, 0xFFFF, 0x00)
  | .clr => (0x0100, 0xFFFF, 0x00)
  | .pushT v => (0x1000, 0xFF00, v)
  | .pushS v => (0x1100, 0xFF00, v)
  | .pushP v => (0x1200, 0xFF00, v)
  | .pushC v => (0x1300, 0xFF00, v)
  | .count => (0x2000, 0xFFFF, 0x00)
  | .build => (0x2100, 0xFFFF, 0x00)
  | .gencode => (0x2200, 0xFFFF, 0x00)
  | .pack => (0x2300, 0xFFFF, 0x00)
  | .unpack => (0x2400, 0xFFFF, 0x00)
  | .tser => (0x2500, 0xFFFF, 0x00)
  | .tdes => (0x2600, 0xFFFF, 0x00)
  | .cenc => (0x2700, 0xFFFF, 0x00)
  | .cdec => (0x2800, 0xFFFF, 0x00)
  | .compress => (0x3000, 0xFFFF, 0x00)
  | .decompress => (0x3100, 0xFFFF, 0x00)

/-- The encoded word matches its row, and its low byte is the operand, or 0x00 where there is none (30_encoding.md R43,
R44). -/
def Statement (i : Instr) : Prop :=
  encode i &&& (row i).2.1 = (row i).1 ∧ immField (encode i) = (row i).2.2

/-- The low byte of a format P word is its operand, and the high byte names the buffer (30_encoding.md R43). -/
theorem formatP_fields (b : BitVec 2) (v : Byte) :
    formatP b v &&& 0xFF00 = (0x1000 : CmdWord) ||| b.setWidth 16 <<< 8 ∧ immField (formatP b v) = v := by
  revert b v; decide

theorem nop : Statement .nop := ⟨by decide, by decide⟩
theorem clr : Statement .clr := ⟨by decide, by decide⟩
theorem pushT (v : Byte) : Statement (.pushT v) := formatP_fields 0 v
theorem pushS (v : Byte) : Statement (.pushS v) := formatP_fields 1 v
theorem pushP (v : Byte) : Statement (.pushP v) := formatP_fields 2 v
theorem pushC (v : Byte) : Statement (.pushC v) := formatP_fields 3 v
theorem count : Statement .count := ⟨by decide, by decide⟩
theorem build : Statement .build := ⟨by decide, by decide⟩
theorem gencode : Statement .gencode := ⟨by decide, by decide⟩
theorem pack : Statement .pack := ⟨by decide, by decide⟩
theorem unpack : Statement .unpack := ⟨by decide, by decide⟩
theorem tser : Statement .tser := ⟨by decide, by decide⟩
theorem tdes : Statement .tdes := ⟨by decide, by decide⟩
theorem cenc : Statement .cenc := ⟨by decide, by decide⟩
theorem cdec : Statement .cdec := ⟨by decide, by decide⟩
theorem compress : Statement .compress := ⟨by decide, by decide⟩
theorem decompress : Statement .decompress := ⟨by decide, by decide⟩

end Sys2Proof.Laws.TableRow
end

