-- ==== Sys2Proof/Tests/Slice0.lean ====
section
/-! SUPPORT. Tests of the model: the checks of WellFormed, decoding by words written out from 30_encoding.md, one step of
every command by the vectors of 95_test_vectors.md (cited by their ids), and a witness for the hypotheses of every
obligation that has any. -/

namespace Sys2Proof.Machine

-- The many kernel evaluations of this file run one after another: side by side, their threads exceed the memory limit.
set_option Elab.async false

/-! ### Helpers -/

/-- A projection of the state after a step that answers one. -/
def after {α : Type} (f : State → α) : Host.Outcome State Fault Refusal → Option α
  | .next t => some (f t)
  | .fault _ | .refused _ => none

/-- The reset state of the small test instantiation (92_eei_decisions.md section 2). -/
def start : State := State.resetWith Params.small

/-- The step that issues the word `w` at `s`. -/
def issued (s : State) (w : Nat) : Host.Outcome State Fault Refusal := step (s.withFetchWord 16 w)

/-- The reset state with a text. -/
def withText (bs : List Byte) : State := start.commit .text bs

/-- The frequency table of "aaaab", or of any two counts of 'a' and 'b'. -/
def freqAB (a b : Nat) : FreqTable := ((Vector.replicate 128 0).set 0x61 a).set 0x62 b

/-- The arena of V2.1, from "aaaab". -/
def arenaAB : List Node := [⟨4, true, 0x61, 0, 0⟩, ⟨1, true, 0x62, 0, 0⟩, ⟨5, false, 0, 1, 0⟩]

/-- The code table of V3.1. -/
def codeAB : CodeTable :=
  ((Vector.replicate 128 CodeEntry.invalid).set 0x61 ⟨true, 1, 1⟩).set 0x62 ⟨true, 0, 1⟩

/-- The core after COUNT, BUILD and GENCODE on "aaaab" (V1.2, V2.1, V3.1). -/
def built : State :=
  { withText [0x61, 0x61, 0x61, 0x61, 0x62] with
    freq := freqAB 4 1, nsym := 2, vFreq := true, nodes := arenaAB, root := 2, vTree := .built, code := codeAB,
    vCode := true }

/-- The core after TDES of `00 62 61` (V6.9). -/
def deserialized : State :=
  { start.commit .treeb [0x00, 0x62, 0x61] with
    nodes := [⟨0, false, 0, 1, 2⟩, ⟨0, true, 0x62, 0, 0⟩, ⟨0, true, 0x61, 0, 0⟩], vTree := .deser }

/-- The container of V7.1. -/
def contAB : List Byte := [0x00, 0x03, 0x00, 0x00, 0x00, 0x01, 0x00, 0x62, 0x61, 0xF0]

/-- A core with TEXT_CAP = 16 and PAY_CAP = 1 (V9.10). -/
def tiny : State := State.resetWith ⟨16, 1, 255, 11⟩

/-- A step whose projection is known answers a next state with that projection. -/
theorem next_of_after {α : Type} {f : State → α} {o : Host.Outcome State Fault Refusal} {v : α} (h : after f o = some v) :
    ∃ t, o = .next t ∧ f t = v := by
  cases o with
  | next t => exact ⟨t, rfl, by simpa [after] using h⟩
  | fault e => simp [after] at h
  | refused r => simp [after] at h

/-! ### WellFormed: each check refuses a term that breaks it -/

/-- TEXT_CAP = 0 and TEXT_CAP = 2^32 are refused (00_scope.md R6). -/
theorem test_wf_textCap :
    Params.legal ⟨0, 1024, 255, 11⟩ = false ∧ Params.textCapOk ⟨0, 1024, 255, 11⟩ = false ∧
      Params.textCapOk ⟨2 ^ 32, 1024, 255, 64⟩ = false := by decide

/-- PAY_CAP = 0 and PAY_CAP = 2^32 − 65541 are refused (00_scope.md R6). -/
theorem test_wf_payCap :
    Params.legal ⟨1024, 0, 255, 11⟩ = false ∧ Params.payCapOk ⟨1024, 0, 255, 11⟩ = false ∧
      Params.payCapOk ⟨1024, 2 ^ 32 - 65541, 255, 11⟩ = false := by decide

/-- NODE_CAP = 254 and NODE_CAP = 65536 are refused (00_scope.md R6). -/
theorem test_wf_nodeCap :
    Params.legal ⟨1024, 1024, 254, 11⟩ = false ∧ Params.nodeCapOk ⟨1024, 1024, 254, 11⟩ = false ∧
      Params.nodeCapOk ⟨1024, 1024, 65536, 11⟩ = false := by decide

/-- 2^CNT_W = TEXT_CAP is refused (00_scope.md R6). -/
theorem test_wf_cntW : Params.legal ⟨1024, 1024, 255, 10⟩ = false ∧ Params.cntWOk ⟨1024, 1024, 255, 10⟩ = false := by decide

/-- The two instantiations the spec gives are legal (00_scope.md R6; 92_eei_decisions.md section 2). -/
theorem test_wf_legal : Params.reference.legal = true ∧ Params.small.legal = true := by decide

/-- A string may not hold the codes 0x1F and 0x7F; a byte list may (30_encoding.md R49). -/
theorem test_wf_puts :
    (Pseudo.puts .text [0x1F]).wellFormed = false ∧ (Pseudo.puts .text [0x61, 0x7F]).wellFormed = false ∧
      (Pseudo.putb .text [0x1F, 0x7F, 0xFF]).wellFormed = true := by decide

/-- The form of the memory refuses a buffer beyond its capacity (10_state.md R13): PAY_CAP = 1. -/
theorem test_wf_memory : (tiny.mem.set .pay [0, 0]).wf tiny.params = false ∧ (tiny.mem.set .pay [0]).wf tiny.params = true := by
  decide

/-! ### Decoding: words written out from 30_encoding.md R43, R44 -/

theorem test_decode_nop : decode 0b0000000000000000 = .ok .nop := by decide
theorem test_decode_clr : decode 0b0000000100000000 = .ok .clr := by decide
theorem test_decode_pushT : decode 0b0001000001100001 = .ok (.pushT 0x61) := by decide
theorem test_decode_pushS : decode 0b0001000111111111 = .ok (.pushS 0xFF) := by decide
theorem test_decode_pushP : decode 0b0001001010000001 = .ok (.pushP 0x81) := by decide
theorem test_decode_pushC : decode 0b0001001100000011 = .ok (.pushC 0x03) := by decide
theorem test_decode_count : decode 0b0010000000000000 = .ok .count := by decide
theorem test_decode_build : decode 0b0010000100000000 = .ok .build := by decide
theorem test_decode_gencode : decode 0b0010001000000000 = .ok .gencode := by decide
theorem test_decode_pack : decode 0b0010001100000000 = .ok .pack := by decide
theorem test_decode_unpack : decode 0b0010010000000000 = .ok .unpack := by decide
theorem test_decode_tser : decode 0b0010010100000000 = .ok .tser := by decide
theorem test_decode_tdes : decode 0b0010011000000000 = .ok .tdes := by decide
theorem test_decode_cenc : decode 0b0010011100000000 = .ok .cenc := by decide
theorem test_decode_cdec : decode 0b0010100000000000 = .ok .cdec := by decide
theorem test_decode_compress : decode 0b0011000000000000 = .ok .compress := by decide
theorem test_decode_decompress : decode 0b0011000100000000 = .ok .decompress := by decide

/-- A format C opcode with a non-zero low byte (30_encoding.md R46; V0.9, V0.12). -/
theorem test_decode_lowByte :
    decode 0x2001 = .error .lowByteNotZero ∧ decode 0x01FF = .error .lowByteNotZero ∧
      decode 0x3180 = .error .lowByteNotZero := by decide

/-- The ends of the opcode ranges without a row (30_encoding.md R46). -/
theorem test_decode_noSuchOpcode :
    [(0x0200 : CmdWord), 0x0FFF, 0x1400, 0x1FFF, 0x2900, 0x2FFF, 0x3200, 0xFFFF].map decode =
      List.replicate 8 (.error .noSuchOpcode) := by decide +kernel

/-- No two rows of the opcode map overlap (30_encoding.md R44): a word in both would agree with both patterns. -/
theorem test_opRows_disjoint :
    opRows.Pairwise (fun a b => a.pattern &&& (a.mask &&& b.mask) ≠ b.pattern &&& (a.mask &&& b.mask)) := by
  decide +kernel

/-! ### One step of every command -/

/-- V0.1. -/
theorem test_nop : after (fun t => (t == start, rdCsr t 0, rdCsr t 8)) (issued start 0x0000) = some (true, some 0, some 0) := by
  decide +kernel

/-- V0.17: CLR with ERR = 12 and TEXT = `61`. -/
theorem test_clr :
    after (fun t => (statusWord t, t.errInfo, t.mem.text))
      (issued { withText [0x61] with err := 12, errInfo := 0x2001 } 0x0100) = some (0, 0, []) := by decide +kernel

/-- V0.2. -/
theorem test_pushT :
    after (fun t => (t.mem.text, rdBuf t 0 0, rdBuf t 0 1)) (issued start 0x1061) = some ([0x61], some 0x61, none) := by
  decide +kernel

/-- V0.3: no sign extension, no refusal of a byte above 127. -/
theorem test_pushT_high : after (fun t => (t.mem.text, t.err)) (issued start 0x10FF) = some ([0xFF], 0) := by decide +kernel

/-- V0.4, its last word. -/
theorem test_pushS :
    after (fun t => t.mem.treeb) (issued (start.commit .treeb [0x00, 0x62]) 0x1161) = some [0x00, 0x62, 0x61] := by
  decide +kernel

/-- V0.5. -/
theorem test_pushP : after (fun t => (t.mem.pay, t.mem.text)) (issued start 0x12F0) = some ([0xF0], []) := by decide +kernel

/-- PAY_CAP = 1: the second byte overflows buffer 2 (40_control_and_host.md R66; 60_exceptions.md R132). -/
theorem test_pushP_full :
    after (fun t => (t.err, t.errInfo, t.mem.pay)) (issued (tiny.commit .pay [0x01]) 0x1202) = some (9, 2, [0x01]) := by
  decide +kernel

/-- V0.6, its last word. -/
theorem test_pushC : after (fun t => t.mem.cont) (issued (start.commit .cont [0x00]) 0x1303) = some [0x00, 0x03] := by
  decide +kernel

/-- V1.2. -/
theorem test_count :
    after (fun t => (t.freq == freqAB 4 1, t.nsym, t.vFreq)) (issued (withText [0x61, 0x61, 0x61, 0x61, 0x62]) 0x2000) =
      some (true, 2, true) := by decide +kernel

/-- V1.6: the first offending offset. -/
theorem test_count_high :
    after (fun t => (t.err, t.errInfo, t.vFreq)) (issued (withText [0x61, 0x80, 0x62, 0xFF]) 0x2000) = some (7, 1, false) := by
  decide +kernel

/-- V2.1: the first pop is the left child. -/
theorem test_build :
    after (fun t => (t.nodes, t.root, t.vTree)) (issued { start with freq := freqAB 4 1, vFreq := true } 0x2100) =
      some (arenaAB, 2, .built) := by decide +kernel

/-- V2.7 "aaabbc": a tie between a leaf and an internal node goes to the lower index. -/
theorem test_build_tie :
    after (fun t => (t.nodes[3]?, t.nodes[4]?))
      (issued { start with freq := (freqAB 3 2).set 0x63 1, vFreq := true } 0x2100) =
      some (some ⟨3, false, 0, 2, 1⟩, some ⟨6, false, 0, 0, 3⟩) := by decide +kernel

/-- V3.1. -/
theorem test_gencode :
    after (fun t => (t.code == codeAB, t.vCode))
      (issued { start with nodes := arenaAB, root := 2, vTree := .built } 0x2200) = some (true, true) := by decide +kernel

/-- V3.13. -/
theorem test_gencode_deser : after (fun t => (t.err, t.errInfo)) (issued deserialized 0x2200) = some (11, 4) := by
  decide +kernel

/-- V4.1. -/
theorem test_pack : after (fun t => t.mem.pay) (issued built 0x2300) = some [0xF0] := by decide +kernel

/-- V4.14: a code word longer than a byte, two emissions after one symbol. -/
theorem test_pack_long :
    after (fun t => t.mem.pay)
      (issued { withText [0x79, 0x78] with
          code := ((Vector.replicate 128 CodeEntry.invalid).set 0x78 ⟨true, 0x2AB, 10⟩).set 0x79 ⟨true, 0, 1⟩,
          vCode := true } 0x2300) = some [0x55, 0x60] := by decide +kernel

/-- V5.1: the three padding bits decode to three phantom symbols. -/
theorem test_unpack :
    after (fun t => t.mem.text) (issued (deserialized.commit .pay [0xF0]) 0x2400) =
      some [0x61, 0x61, 0x61, 0x61, 0x62, 0x62, 0x62, 0x62] := by decide +kernel

/-- V5.15: one leaf and a payload bit. -/
theorem test_unpack_leaf :
    after (fun t => (t.err, t.errInfo, t.mem.text))
      (issued { start.commit .pay [0x00] with nodes := [⟨0, true, 0x61, 0, 0⟩], vTree := .deser } 0x2400) =
      some (6, 0, []) := by decide +kernel

/-- V6.1. -/
theorem test_tser : after (fun t => t.mem.treeb) (issued built 0x2500) = some [0x00, 0x62, 0x61] := by decide +kernel

/-- V6.6: the leaf of symbol 0. -/
theorem test_tser_nul :
    after (fun t => (t.err, t.errInfo, t.mem.treeb))
      (issued { start with
          nodes := [⟨1, true, 0x00, 0, 0⟩, ⟨1, true, 0x61, 0, 0⟩, ⟨2, false, 0, 0, 1⟩], root := 2, vTree := .built }
        0x2500) = some (3, 0, []) := by decide +kernel

/-- V6.3, its TDES: right children after the left subtrees, every freq 0. -/
theorem test_tdes :
    after (fun t => (t.nodes.map (fun n => (n.left, n.right)), t.nodes.map (·.freq), t.root))
      (issued (start.commit .treeb [0x00, 0x00, 0x61, 0x62, 0x00, 0x63, 0x64]) 0x2600) =
      some ([(1, 4), (2, 3), (0, 0), (0, 0), (5, 6), (0, 0), (0, 0)], [0, 0, 0, 0, 0, 0, 0], 0) := by decide +kernel

/-- V6.12: the right child is missing. -/
theorem test_tdes_truncated :
    after (fun t => (t.err, t.errInfo, t.nodes)) (issued (start.commit .treeb [0x00, 0x61]) 0x2600) = some (5, 2, []) := by
  decide +kernel

/-- V7.1. -/
theorem test_cenc :
    after (fun t => t.mem.cont) (issued ((start.commit .treeb [0x00, 0x62, 0x61]).commit .pay [0xF0]) 0x2700) =
      some contAB := by decide +kernel

/-- V7.10: the bytes after the container are ignored. -/
theorem test_cdec :
    after (fun t => (t.mem.treeb, t.mem.pay)) (issued (start.commit .cont (contAB ++ [0xAA, 0xBB])) 0x2800) =
      some ([0x00, 0x62, 0x61], [0xF0]) := by decide +kernel

/-- V7.12: the tree is checked before the payload. -/
theorem test_cdec_truncated :
    after (fun t => (t.err, t.errInfo)) (issued (start.commit .cont [0xFF, 0xFF, 0xFF, 0xFF, 0xFF, 0xFF]) 0x2800) =
      some (2, 1) := by decide +kernel

/-- V8.1, STATUS as P1 has it. -/
theorem test_compress :
    after (fun t => (t.mem.cont, statusWord t)) (issued (withText [0x61, 0x61, 0x61, 0x61, 0x62]) 0x3000) =
      some (contAB, 0x00000700) := by decide +kernel

/-- V8.5. -/
theorem test_compress_single :
    after (fun t => (statusWord t, t.errInfo, t.mem.cont)) (issued (withText [0x61, 0x61, 0x61, 0x61]) 0x3000) =
      some (0x00000504, 0x61, []) := by decide +kernel

/-- V8.1, the other direction. -/
theorem test_decompress :
    after (fun t => (t.mem.text, statusWord t)) (issued (start.commit .cont contAB) 0x3100) =
      some ([0x61, 0x61, 0x61, 0x61, 0x62, 0x62, 0x62, 0x62], 0x00000800) := by decide +kernel

/-- V8.18: CDEC has committed, TDES has not. -/
theorem test_decompress_partial :
    after (fun t => (statusWord t, t.errInfo, t.mem.treeb, t.mem.pay))
      (issued (start.commit .cont [0x00, 0x02, 0x00, 0x00, 0x00, 0x01, 0x00, 0x61, 0xF0]) 0x3100) =
      some (0x00000005, 2, [0x00, 0x61], [0xF0]) := by decide +kernel

/-! ### The host's side -/

/-- V0.14: the first error wins. -/
theorem test_sticky_error :
    after (fun t => (t.err, t.errInfo)) (issued { start with err := 12, errInfo := 0x2001 } 0x0200) = some (12, 0x2001) := by
  decide +kernel

/-- V0.13. -/
theorem test_illegal : after (fun t => (t.err, t.errInfo)) (issued start 0xFFFF) = some (12, 0x0000FFFF) := by decide +kernel

/-- V0.21: a port read while nothing else happens, and V0.18's refusal. -/
theorem test_ports :
    after (fun t => t.reply) (step { built with host := [.rdnode 2] }) = some (some (.node ⟨5, false, 0, 1, 0⟩)) ∧
      after (fun t => t.reply) (step { built with host := [.rdnode 3] }) = some (some .refused) ∧
      after (fun t => t.reply) (step { start with host := [.rdcsr 9] }) = some (some .refused) := by decide +kernel

/-- 30_encoding.md R49: `PUTS.T "aa"` and `PUTB.C 00 03`; 30_encoding.md R48: the listing of `PUSH.T 'a'` read back. -/
theorem test_assembler :
    assembleLine ['P', 'U', 'T', 'S', '.', 'T', ' ', '"', 'a', 'a', '"'] = some [.pushT 0x61, .pushT 0x61] ∧
      assembleLine ['P', 'U', 'T', 'B', '.', 'C', ' ', '0', '0', ' ', '0', '3'] = some [.pushC 0x00, .pushC 0x03] ∧
      assembleLine ['P', 'U', 'S', 'H', '.', 'T', ' ', '\'', 'a', '\'', ' ', ';', 'x'] = some [.pushT 0x61] := by
  decide +kernel

/-! ### Witnesses: the hypotheses of the obligations can be met -/

/-- The core after BUILD and GENCODE meets the invariant, with a host operation still to come. -/
theorem built_inv : { built with host := [.issue 0x2300] }.Inv where
  params := by decide
  mem := by decide
  freq := ⟨by decide +kernel, by decide +kernel, by decide⟩
  arena :=
    { none := by decide, tree := by decide, fits := by decide, unused := by decide, builtSyms := by decide,
      builtNodup := by decide, builtFreq := by decide, builtSum := by decide, deserSyms := by decide,
      deserFreq := by decide }
  code := ⟨by decide +kernel, by decide⟩
  error := ⟨by decide, by decide⟩

/-- The core after TDES meets the invariant. -/
theorem deserialized_inv : deserialized.Inv where
  params := by decide
  mem := by decide
  freq := ⟨by decide +kernel, by decide +kernel, by decide +kernel⟩
  arena :=
    { none := by decide, tree := by decide, fits := by decide, unused := by decide, builtSyms := by decide,
      builtNodup := by decide, builtFreq := by decide, builtSum := by decide, deserSyms := by decide,
      deserFreq := by decide }
  code := ⟨by decide +kernel, by decide +kernel⟩
  error := ⟨by decide, by decide⟩

/-- The core after TDES of `00 62 61` with TEXT_CAP = 7 and one byte of payload. -/
def cramped : State := { deserialized.commit .pay [0x00] with params := ⟨7, 1, 255, 11⟩ }

theorem cramped_inv : cramped.Inv where
  params := by decide
  mem := by decide
  freq := ⟨by decide +kernel, by decide +kernel, by decide +kernel⟩
  arena :=
    { none := by decide, tree := by decide, fits := by decide, unused := by decide, builtSyms := by decide,
      builtNodup := by decide, builtFreq := by decide, builtSum := by decide, deserSyms := by decide,
      deserFreq := by decide }
  code := ⟨by decide +kernel, by decide +kernel⟩
  error := ⟨by decide, by decide⟩

/-- The core after COUNT and BUILD on a text of one NUL. -/
def nulBuilt : State :=
  { withText [0x00] with
    freq := (Vector.replicate 128 0).set 0 1, nsym := 1, vFreq := true, nodes := [⟨1, true, 0x00, 0, 0⟩], vTree := .built }

theorem nulBuilt_inv : nulBuilt.Inv where
  params := by decide
  mem := by decide
  freq := ⟨by decide +kernel, by decide +kernel, by decide⟩
  arena :=
    { none := by decide, tree := by decide, fits := by decide, unused := by decide, builtSyms := by decide,
      builtNodup := by decide, builtFreq := by decide, builtSum := by decide, deserSyms := by decide,
      deserFreq := by decide }
  code := ⟨by decide +kernel, by decide +kernel⟩
  error := ⟨by decide, by decide⟩

/-- A buffer within its capacity does not touch the rest of the invariant. -/
theorem inv_commit {s : State} (h : s.Inv) (b : BufId) {bs : List Byte} (hb : bs.length ≤ cap s.params b) :
    (s.commit b bs).Inv where
  params := h.params
  mem := Memory.wf_set _ _ _ h.mem hb
  freq := ⟨h.freq.total, h.freq.nsym, h.freq.clear⟩
  arena := ⟨h.arena.none, h.arena.tree, h.arena.fits, h.arena.unused, h.arena.builtSyms, h.arena.builtNodup,
    h.arena.builtFreq, h.arena.builtSum, h.arena.deserSyms, h.arena.deserFreq⟩
  code := ⟨h.code.entries, h.code.clear⟩
  error := ⟨h.error.code, h.error.info⟩

/-- The leaf symbols of a tree are among its bytes. -/
theorem leaves_subset_bytes (sh : Shape) : ∀ v ∈ sh.leaves, v ∈ sh.bytes := by
  induction sh with
  | leaf v => simp [Shape.leaves, Shape.bytes]
  | node l r ihl ihr =>
    intro v hv
    simp only [Shape.leaves, List.mem_append] at hv
    simp only [Shape.bytes, List.mem_cons, List.mem_append]
    rcases hv with hv | hv
    · exact .inr (.inl (ihl v hv))
    · exact .inr (.inr (ihr v hv))

/-- A tree has a leaf. -/
theorem exists_leaf (sh : Shape) : ∃ v, v ∈ sh.leaves := by
  induction sh with
  | leaf v => exact ⟨v, by simp [Shape.leaves]⟩
  | node l r ihl ihr => obtain ⟨v, hv⟩ := ihl; exact ⟨v, by simp [Shape.leaves, hv]⟩

/-- No serialized tree is made of zeros. -/
theorem zeros_no_tree (n : Nat) (sh : Shape) (rest : List Byte) (h0 : (0 : Byte) ∉ sh.leaves) :
    List.replicate n (0 : Byte) ≠ sh.bytes ++ rest := by
  intro h
  obtain ⟨v, hv⟩ := exists_leaf sh
  have hm : v ∈ List.replicate n (0 : Byte) := by
    rw [h]; exact List.mem_append_left _ (leaves_subset_bytes sh v hv)
  exact h0 ((List.mem_replicate.1 hm).2 ▸ hv)

/-- The word 0x2001 is no command's encoding. -/
theorem test_hyp_IllegalWordRaisesIllegalCommand : start.err = 0 ∧ ∀ i : Instr, encode i ≠ 0x2001 := by
  refine ⟨rfl, fun i => ?_⟩
  cases i with
  | pushT v | pushS v | pushP v | pushC v => revert v; decide +kernel
  | _ => decide

theorem test_hyp_PortsAnswerFromReset :
    (8 ≤ 8) ∧ rdCsr start 8 = some 0 ∧ rdCsr start 9 = none := by decide +kernel

theorem test_hyp_CoreWaitsForTheHost : State.reset.host = [] := rfl

/-- Both cases: no error pending, and CLR with one pending. -/
theorem test_hyp_StepRunsTheDecodedCommand :
    (decode 0x2000 = .ok .count ∧ Instr.count.wellFormed = true ∧ start.err = 0) ∧
      (decode 0x0100 = .ok .clr ∧ Instr.clr.wellFormed = true ∧ ({ start with err := 1 } : State).err ≠ 0) := by decide

theorem test_hyp_PendingErrorIgnoresEveryOtherWord :
    ({ start with err := 12 } : State).err ≠ 0 ∧ (0x01FF : CmdWord) ≠ 0x0100 := by decide

/-- All three cases: a word ignored, CLR, reset. -/
theorem test_hyp_ErrorEndsOnlyByClrOrReset :
    after (·.err) (step { start with err := 12, host := [.issue 0x2000] }) = some 12 ∧
      after (·.err) (step { start with err := 12, host := [.issue 0x0100] }) = some 0 ∧
      after (·.err) (step { start with err := 12, host := [.reset] }) = some 0 := by decide +kernel

/-- Each origin of the tree, and the first port number above the last register. -/
theorem test_hyp_CsrPortReadsTheNineRegisters :
    start.vTree = .none ∧ built.vTree = .built ∧ deserialized.vTree = .deser ∧ 8 < 9 := by decide

theorem test_hyp_BufferPortReadsBelowTheLength : 3 < 4 ∧ rdBuf start 4 0 = none := by decide +kernel

/-- Each clause at the ends of its range. -/
theorem test_hyp_TablePortsNeedTheirValidFlag :
    (0 < 128 ∧ 127 < 128 ∧ built.vFreq = true) ∧ (128 ≤ 128 ∨ built.vFreq = false) ∧
      (start.vFreq = false ∧ start.vTree = .none ∧ start.vCode = false) ∧
      ((2 : Idx).toNat < built.nodes.length ∧ built.vTree ≠ .none) ∧ built.nodes.length ≤ (3 : Idx).toNat ∧
      built.vCode = true := by decide

theorem test_hyp_DecodeAndEncodeAgree :
    (Instr.pushC 0xFF).wellFormed = true ∧ decode 0x13FF = .ok (.pushC 0xFF) ∧ encode (.pushC 0xFF) = 0x13FF := by
  decide

/-- A string that fills TEXT to its capacity of 16. -/
theorem test_hyp_PseudoInstructionsAppendTheirBytes :
    (tiny.commit .text (List.replicate 14 0x61)).err = 0 ∧
      ((tiny.commit .text (List.replicate 14 0x61)).mem.get .text).length + [(0x20 : Byte), 0x7E].length ≤
        cap tiny.params .text ∧
      ∀ i ∈ [Pseudo.puts .text [0x20, 0x7E], Pseudo.putb .text [0x20, 0x7E]], i.wellFormed = true := by decide

/-- One byte below each capacity: the appending clauses. -/
theorem test_hyp_PushAppendsTheByteOrOverflows :
    (List.replicate 15 (0 : Byte)).length ≠ tiny.params.textCap ∧ (List.replicate 65534 (0 : Byte)).length ≠ 65535 ∧
      tiny.mem.pay.length ≠ tiny.params.payCap ∧ (List.replicate 65541 (0 : Byte)).length ≠ tiny.params.payCap + 65541 := by
  refine ⟨by decide, ?_, by decide, ?_⟩ <;> rw [List.length_replicate] <;> decide

/-- At each capacity: the overflowing clauses. -/
theorem test_hyp_PushAppendsTheByteOrOverflows_full :
    (tiny.commit .text (List.replicate 16 0)).mem.text.length = tiny.params.textCap ∧
      (tiny.commit .treeb (List.replicate 65535 0)).mem.treeb.length = 65535 ∧
      (tiny.commit .pay [0]).mem.pay.length = tiny.params.payCap ∧
      (tiny.commit .cont (List.replicate 65542 0)).mem.cont.length = tiny.params.payCap + 65541 :=
  ⟨List.length_replicate, List.length_replicate, rfl, List.length_replicate⟩

theorem test_hyp_CountTalliesTheText : ∀ v ∈ (withText [0x00, 0x7F]).mem.text, v.toNat < 128 := by decide

theorem test_hyp_CountRejectsTheFirstHighByte :
    (withText [0x7F, 0x80, 0xFF]).mem.text = [0x7F] ++ 0x80 :: [0xFF] ∧ (∀ u ∈ [(0x7F : Byte)], u.toNat < 128) ∧
      128 ≤ (0x80 : Byte).toNat := by decide

/-- A second text with the same symbols in another order, on which COUNT answers too. -/
theorem test_hyp_CountDependsOnTheMultiset :
    (∀ v ∈ (withText [0x61, 0x61, 0x62]).mem.text, v.toNat < 128) ∧
      (withText [0x62, 0x61, 0x61]).mem.text.Perm (withText [0x61, 0x61, 0x62]).mem.text ∧
      ∃ t, exec .count (withText [0x62, 0x61, 0x61]) = .next t := by
  refine ⟨by decide, by decide, ?_⟩
  obtain ⟨t, h, -⟩ := next_of_after (f := fun t => t.nsym) (v := 2) (o := exec .count (withText [0x62, 0x61, 0x61]))
    (by decide +kernel)
  exact ⟨t, h⟩

/-- Two entries of one frequency, the one with the smaller index second. -/
theorem test_hyp_PopMinTakesTheSmallestKey :
    (([⟨1, 5⟩, ⟨1, 2⟩] : List PqEntry).map (·.idx)).Nodup ∧ popMin ⟨1, 5⟩ [⟨1, 2⟩] = (⟨1, 2⟩, [⟨1, 5⟩]) := by decide

theorem test_hyp_BuildRefusesAMissingOrEmptyTable :
    start.vFreq = false ∧ ({ start with vFreq := true } : State).vFreq = true ∧
      ∀ k (h : k < 128), ({ start with vFreq := true } : State).freq[k] = 0 := by decide +kernel

/-- Two symbols, so that an entry is merged (BuildMergesTheTwoSmallest, BuildOrdersTheArena). -/
theorem test_hyp_BuildMergesTheTwoSmallest :
    built.vFreq = true ∧ presentSyms built.freq = [0x61, 0x62] ∧ presentSyms built.freq ≠ [] := by decide +kernel

theorem test_hyp_BuildOrdersTheArena : built.vFreq = true ∧ presentSyms built.freq ≠ [] := by decide +kernel

theorem test_hyp_BuildOfOneSymbolIsOneLeaf :
    ({ start with freq := (Vector.replicate 128 0).set 127 2, vFreq := true } : State).vFreq = true ∧
      presentSyms ((Vector.replicate 128 0).set 127 2) = [127] ∧
      ((Vector.replicate 128 0).set 127 2 : FreqTable)[127]? = some 2 := by decide +kernel

theorem test_hyp_MissingPrerequisitesRaiseSequence :
    start.vFreq = false ∧ start.vTree = .none ∧ start.vCode = false ∧ deserialized.vTree = .deser ∧
      ∃ t, exec .nop { start with err := 11 } = .next t ∧ t.err = 11 :=
  ⟨by decide, by decide, by decide, by decide, _, rfl, rfl⟩

theorem test_hyp_GencodeRecordsEveryPath : { built with host := [.issue 0x2300] }.Inv ∧ built.vTree = .built :=
  ⟨built_inv, rfl⟩

theorem test_hyp_GeneratedCodesArePrefixFree : { built with host := [.issue 0x2300] }.Inv ∧ built.vTree = .built :=
  ⟨built_inv, rfl⟩

/-- Five bits, and PAY_CAP = 1. -/
theorem test_hyp_PackWritesTheBitStream :
    ({ built with params := tiny.params } : State).vCode = true ∧ (∀ e ∈ built.code.toList, e.ok = true) ∧
      packable built.code built.mem.text ∧
      ((built.mem.text.map (fun v => (entryOf built.code v).len.toNat)).sum + 7) / 8 ≤ tiny.params.payCap ∧
      (textBits built.code built.mem.text)[4]? = some false ∧
      ∀ v ∈ built.mem.text, (entryOf built.code v).len.toNat ≤ 8 := by
  refine ⟨rfl, by decide +kernel, ?_, by decide +kernel, by decide +kernel, by decide +kernel⟩
  unfold packable; decide +kernel

/-- Nine bits, and PAY_CAP = 1 (V9.10). -/
theorem test_hyp_PackOverflowsBeyondTheCapacity :
    built.vCode = true ∧ packable built.code (List.replicate 9 0x61) ∧
      8 * tiny.params.payCap < ((List.replicate 9 (0x61 : Byte)).map (fun v => (entryOf built.code v).len.toNat)).sum := by
  refine ⟨rfl, ?_, by decide +kernel⟩
  unfold packable; decide +kernel

/-- V4.17 and V4.16: a byte of 128, and a symbol without a code. -/
theorem test_hyp_PackReportsTheFirstOffendingSymbol :
    built.vCode = true ∧ packable built.code [0x61] ∧
      (([0x61] : List Byte).map (fun u => (entryOf built.code u).len.toNat)).sum < 8 * (tiny.params.payCap + 1) ∧
      128 ≤ (0x80 : Byte).toNat ∧ (0x7A : Byte).toNat < 128 ∧ (entryOf built.code 0x7A).valid = false := by
  refine ⟨rfl, ?_, by decide +kernel, by decide, by decide, by decide +kernel⟩
  unfold packable; decide +kernel

/-- A payload whose symbols fit TEXT, and one whose eight symbols exceed TEXT_CAP = 7. -/
theorem test_hyp_UnpackDecodesEveryBit :
    ((deserialized.commit .pay [0xF0]).Inv ∧ deserialized.vTree ≠ .none ∧
        deserialized.shape = some (.node (.leaf 0x62) (.leaf 0x61)) ∧
        ((Shape.node (.leaf 0x62) (.leaf 0x61)).decode (.node (.leaf 0x62) (.leaf 0x61)) (streamBits [0xF0])).length ≤
          deserialized.params.textCap) ∧
      cramped.Inv ∧ cramped.vTree ≠ .none ∧ cramped.shape = some (.node (.leaf 0x62) (.leaf 0x61)) ∧
        cramped.params.textCap <
          ((Shape.node (.leaf 0x62) (.leaf 0x61)).decode (.node (.leaf 0x62) (.leaf 0x61))
            (streamBits cramped.mem.pay)).length :=
  ⟨⟨inv_commit deserialized_inv .pay (by decide), by decide, by decide, by decide +kernel⟩,
    cramped_inv, by decide, by decide, by decide +kernel⟩

/-- One leaf, with no payload and with one (V5.14, V5.15). -/
theorem test_hyp_UnpackOfTheDegenerateTree :
    ({ start with nodes := [⟨0, true, 0x61, 0, 0⟩], vTree := .deser } : State).vTree ≠ .none ∧
      ([⟨0, true, 0x61, 0, 0⟩] : List Node)[start.root.toNat]? = some ⟨0, true, 0x61, 0, 0⟩ ∧ start.mem.pay = [] ∧
      (start.commit .pay [0x00]).mem.pay ≠ [] := by decide

/-- S1: "aaaab" and three padding bits. -/
theorem test_hyp_PaddingDecodesToPhantomSymbols :
    (deserialized.commit .pay [0xF0]).Inv ∧ deserialized.vTree ≠ .none ∧
      deserialized.shape = some (.node (.leaf 0x62) (.leaf 0x61)) ∧
      (∀ q ∈ [((0x61 : Byte), [true]), (0x61, [true]), (0x61, [true]), (0x61, [true]), (0x62, [false])],
        q ∈ (Shape.node (.leaf 0x62) (.leaf 0x61)).paths) ∧
      streamBits [0xF0] =
        [((0x61 : Byte), [true]), (0x61, [true]), (0x61, [true]), (0x61, [true]), (0x62, [false])].flatMap (·.2) ++
          List.replicate 3 false ∧
      5 + 3 / (Shape.node (.leaf 0x62) (.leaf 0x61)).leftDepth ≤ deserialized.params.textCap :=
  ⟨inv_commit deserialized_inv .pay (by decide), by decide, by decide, by decide, by decide +kernel, by decide⟩

/-- A tree without the symbol 0, and one with it. -/
theorem test_hyp_TserWritesThePreorderBytes :
    (deserialized.Inv ∧ deserialized.vTree ≠ .none ∧ deserialized.shape = some (.node (.leaf 0x62) (.leaf 0x61)) ∧
        (0 : Byte) ∉ (Shape.node (.leaf 0x62) (.leaf 0x61)).leaves) ∧
      nulBuilt.Inv ∧ nulBuilt.vTree ≠ .none ∧ nulBuilt.shape = some (.leaf 0) ∧ (0 : Byte) ∈ (Shape.leaf 0).leaves :=
  ⟨⟨deserialized_inv, by decide, by decide, by decide⟩, nulBuilt_inv, by decide, by decide, by decide⟩

/-- A table with the symbol 0 and another (V2.11). -/
theorem test_hyp_TserRejectsNulInABuiltTree :
    ({ start with freq := ((Vector.replicate 128 0).set 0 1).set 0x61 1, vFreq := true } : State).vFreq = true ∧
      (((Vector.replicate 128 0).set 0 1).set 0x61 1 : FreqTable)[0] ≠ 0 := by decide +kernel

/-- A tree that fills NODE_CAP = 3, a byte after it, leaf symbols above 127. -/
theorem test_hyp_TdesBuildsThePreorderArena :
    (start.commit .treeb [0x00, 0x80, 0xFF, 0x55]).mem.treeb = (Shape.node (.leaf 0x80) (.leaf 0xFF)).bytes ++ [0x55] ∧
      (0 : Byte) ∉ (Shape.node (.leaf 0x80) (.leaf 0xFF)).leaves ∧
      (Shape.node (.leaf 0x80) (.leaf 0xFF)).size ≤ ({ start.params with nodeCap := 3 } : Params).nodeCap := by decide

/-- V6.11: TREEB = `00`. -/
theorem test_hyp_TdesRejectsATruncatedTree :
    (∀ (sh : Shape) (rest : List Byte), (0 : Byte) ∉ sh.leaves →
        (start.commit .treeb [0x00]).mem.treeb ≠ sh.bytes ++ rest) ∧
      (start.commit .treeb [0x00]).mem.treeb.length ≤ start.params.nodeCap :=
  ⟨fun sh rest h0 => zeros_no_tree 1 sh rest h0, by decide⟩

/-- 256 zeros, and NODE_CAP = 255. -/
theorem test_hyp_TdesOverflowsTheArena :
    start.params.nodeCap < (start.commit .treeb (List.replicate 256 0)).mem.treeb.length ∧
      ∀ (sh : Shape) (rest : List Byte), (0 : Byte) ∉ sh.leaves → sh.size ≤ start.params.nodeCap →
        (start.commit .treeb (List.replicate 256 0)).mem.treeb ≠ sh.bytes ++ rest :=
  ⟨by decide +kernel, fun sh rest h0 _ => zeros_no_tree 256 sh rest h0⟩

/-- A built tree, and a TDES whose tree fills TREEB (V6.9). -/
theorem test_hyp_TreeRoundTrip :
    ({ built with host := [.issue 0x2300] }.Inv ∧ built.vTree ≠ .none ∧
        built.shape = some (.node (.leaf 0x62) (.leaf 0x61)) ∧
        (0 : Byte) ∉ (Shape.node (.leaf 0x62) (.leaf 0x61)).leaves) ∧
      ∃ t, start.params.legal = true ∧ exec .tdes (start.commit .treeb [0x00, 0x62, 0x61]) = .next t ∧ t.err = start.err ∧
        start.err = 0 ∧ t.nodes.length = [(0x00 : Byte), 0x62, 0x61].length := by
  refine ⟨⟨built_inv, by decide, by decide, by decide⟩, ?_⟩
  obtain ⟨t, h, hf⟩ := next_of_after (f := fun t => (t.err, t.nodes.length)) (v := (0, 3))
    (o := exec .tdes (start.commit .treeb [0x00, 0x62, 0x61])) (by decide +kernel)
  simp only [Prod.mk.injEq] at hf
  exact ⟨t, by decide, h, hf.1, rfl, hf.2⟩

/-- Both buffers at their capacities. -/
theorem test_hyp_CencFramesBothBuffers :
    (tiny.commit .treeb (List.replicate 65535 0)).mem.treeb.length ≤ 65535 ∧
      (tiny.commit .pay [0]).mem.pay.length ≤ tiny.params.payCap :=
  ⟨le_of_eq List.length_replicate, by decide⟩

/-- V7.10 with PAY_CAP = 1: a payload that fills PAY, and two bytes after the container. -/
theorem test_hyp_CdecSplitsTheContainer :
    [(0x00 : Byte), 0x62, 0x61].length < 2 ^ 16 ∧ [(0xF0 : Byte)].length < 2 ^ 32 ∧
      [(0xF0 : Byte)].length ≤ tiny.params.payCap ∧
      (tiny.commit .cont (contAB ++ [0xAA, 0xBB])).mem.cont =
        headerBytes [(0x00 : Byte), 0x62, 0x61].length [(0xF0 : Byte)].length ++ [0x00, 0x62, 0x61] ++ [0xF0] ++
          [0xAA, 0xBB] := by decide

/-- V7.6, V7.7, V7.8 and V9.12: each clause. -/
theorem test_hyp_CdecReportsTruncation :
    (start.commit .cont [0x00, 0x03, 0x00, 0x00, 0x00]).mem.cont.length < 6 ∧ 3 < 2 ^ 16 ∧ 1 < 2 ^ 32 ∧
      ([0x00, 0x03, 0x00, 0x00, 0x00, 0x01, 0x00, 0x62] : List Byte) = headerBytes 3 1 ++ [0x00, 0x62] ∧
      [(0x00 : Byte), 0x62].length < 3 ∧
      (3 ≤ [(0x00 : Byte), 0x62, 0x61].length ∧ [(0x00 : Byte), 0x62, 0x61].length - 3 < 1) ∧
      (3 ≤ [(0x00 : Byte), 0x62, 0x61, 0xF0, 0x00].length ∧ 2 ≤ [(0x00 : Byte), 0x62, 0x61, 0xF0, 0x00].length - 3 ∧
        tiny.params.payCap < 2) := by decide

theorem test_hyp_ContainerRoundTrip :
    (built.params.legal = true ∧ built.mem.wf built.params = true) ∧
      (start.commit .cont contAB).mem.cont =
        headerBytes [(0x00 : Byte), 0x62, 0x61].length [(0xF0 : Byte)].length ++ [0x00, 0x62, 0x61] ++ [0xF0] ∧
      [(0x00 : Byte), 0x62, 0x61].length < 2 ^ 16 ∧ [(0xF0 : Byte)].length < 2 ^ 32 ∧
      [(0xF0 : Byte)].length ≤ start.params.payCap := by decide

theorem test_hyp_CompressRunsItsSteps : (withText [0x61, 0x62]).err = 0 := rfl

theorem test_hyp_DecompressRunsItsSteps : (start.commit .cont contAB).err = 0 := rfl

/-- Each clause: a byte of 128, no byte, one byte of the largest symbol. -/
theorem test_hyp_CompressRefusesInStepOrder :
    ((withText [0x61, 0x80]).mem.text = [0x61] ++ 0x80 :: [] ∧ (∀ u ∈ [(0x61 : Byte)], u.toNat < 128) ∧
        128 ≤ (0x80 : Byte).toNat) ∧
      start.mem.text = [] ∧ (0x7F : Byte).toNat < 128 ∧ (withText [0x7F]).mem.text = List.replicate (0 + 1) 0x7F := by
  decide

/-- The text of V9.10 and V9.11: nine bits of payload, and PAY_CAP = 1. -/
theorem test_hyp_CompressReportsAPayloadOverflow :
    (∀ v ∈ (tiny.commit .text (List.replicate 8 0x61 ++ [0x00])).mem.text, v.toNat < 128) ∧
      (∃ u ∈ (tiny.commit .text (List.replicate 8 0x61 ++ [0x00])).mem.text,
        ∃ v ∈ (tiny.commit .text (List.replicate 8 0x61 ++ [0x00])).mem.text, u ≠ v) ∧
      8 * tiny.params.payCap < (tiny.commit .text (List.replicate 8 0x61 ++ [0x00])).payloadBits := by
  refine ⟨by decide, by decide, by decide +kernel⟩

/-- Seven 'a' and a NUL: eight bits of payload fill PAY_CAP = 1. -/
theorem test_hyp_CompressRefusesNul :
    (∀ v ∈ (tiny.commit .text (List.replicate 7 0x61 ++ [0x00])).mem.text, v.toNat < 128) ∧
      (0 : Byte) ∈ (tiny.commit .text (List.replicate 7 0x61 ++ [0x00])).mem.text ∧
      (∃ v ∈ (tiny.commit .text (List.replicate 7 0x61 ++ [0x00])).mem.text, v ≠ 0) ∧
      (tiny.commit .text (List.replicate 7 0x61 ++ [0x00])).payloadBits = 8 * tiny.params.payCap := by
  refine ⟨by decide, by decide, by decide, by decide +kernel⟩

/-- The smallest and the largest symbol, and eight bits of payload that fill PAY_CAP = 1. -/
theorem test_hyp_CompressCommitsTheContainer :
    (∀ v ∈ (tiny.commit .text (List.replicate 7 0x01 ++ [0x7F])).mem.text, 1 ≤ v.toNat ∧ v.toNat < 128) ∧
      (∃ u ∈ (tiny.commit .text (List.replicate 7 0x01 ++ [0x7F])).mem.text,
        ∃ v ∈ (tiny.commit .text (List.replicate 7 0x01 ++ [0x7F])).mem.text, u ≠ v) ∧
      (tiny.commit .text (List.replicate 7 0x01 ++ [0x7F])).payloadBits = 8 * tiny.params.payCap := by
  refine ⟨by decide, by decide, by decide +kernel⟩

/-- The container of V7.1 with a byte after it. -/
theorem test_hyp_DecompressCommitsTheText :
    start.params.legal = true ∧ (0 : Byte) ∉ (Shape.node (.leaf 0x62) (.leaf 0x61)).leaves ∧
      (Shape.node (.leaf 0x62) (.leaf 0x61)).size ≤ start.params.nodeCap ∧
      ((Shape.node (.leaf 0x62) (.leaf 0x61)).bytes ++ []).length < 2 ^ 16 ∧
      [(0xF0 : Byte)].length ≤ start.params.payCap ∧
      (start.commit .cont (contAB ++ [0xAA])).mem.cont =
        headerBytes ((Shape.node (.leaf 0x62) (.leaf 0x61)).bytes ++ []).length [(0xF0 : Byte)].length ++
          ((Shape.node (.leaf 0x62) (.leaf 0x61)).bytes ++ []) ++ [0xF0] ++ [0xAA] ∧
      ((Shape.node (.leaf 0x62) (.leaf 0x61)).decode (.node (.leaf 0x62) (.leaf 0x61)) (streamBits [0xF0])).length ≤
        start.params.textCap := by decide +kernel

/-- S1: COMPRESS of "aaaab" commits the container of V7.1, and a core that holds it has room for text and phantoms. -/
theorem test_hyp_DecompressAppendsPhantomSymbols :
    ∃ t, exec .compress (withText [0x61, 0x61, 0x61, 0x61, 0x62]) = .next t ∧ t.err = 0 ∧
      (start.commit .cont contAB).mem.cont = t.mem.cont ∧ t.mem.pay.length ≤ start.params.payCap ∧
      5 + padCount (textBits t.code [0x61, 0x61, 0x61, 0x61, 0x62]).length / 1 ≤ start.params.textCap ∧
      start.params.legal = true ∧ start.err = 0 ∧
      (∀ v ∈ [(0x61 : Byte), 0x61, 0x61, 0x61, 0x62], 1 ≤ v.toNat ∧ v.toNat < 128) ∧
      ∃ u ∈ [(0x61 : Byte), 0x61, 0x61, 0x61, 0x62], ∃ v ∈ [(0x61 : Byte), 0x61, 0x61, 0x61, 0x62], u ≠ v := by
  obtain ⟨t, h, hf⟩ := next_of_after
    (f := fun t => (t.err, t.mem.cont, t.mem.pay.length, (textBits t.code [0x61, 0x61, 0x61, 0x61, 0x62]).length))
    (v := (0, contAB, 1, 5)) (o := exec .compress (withText [0x61, 0x61, 0x61, 0x61, 0x62])) (by decide +kernel)
  simp only [Prod.mk.injEq] at hf
  obtain ⟨h1, h2, h3, h4⟩ := hf
  refine ⟨t, h, h1, by rw [h2]; rfl, by rw [h3]; decide, by rw [h4]; decide, by decide, rfl, by decide, by decide⟩

/-- A component command (it writes none of the text, the tree and the buffers) and a refused one. -/
theorem test_hyp_CommandsWriteOnlyWhatIsListed :
    writesText .count = false ∧ writesTreeb .count = false ∧ writesPay .count = false ∧ writesCont .count = false ∧
      writesTree .count = false ∧ writesCode .count = false ∧ writesFreq .build = false ∧
      (∃ t, exec .count built = .next t) ∧ ∃ t, exec .build start = .next t := by
  refine ⟨rfl, rfl, rfl, rfl, rfl, rfl, rfl, ?_, ?_⟩
  · obtain ⟨t, h, -⟩ := next_of_after (f := fun t => t.nsym) (v := 2) (o := exec .count built) (by decide +kernel)
    exact ⟨t, h⟩
  · obtain ⟨t, h, -⟩ := next_of_after (f := fun t => t.err) (v := 11) (o := exec .build start) (by decide +kernel)
    exact ⟨t, h⟩

/-- A command that completes and one that raises. -/
theorem test_hyp_ErrorsCommitNothing :
    isMacro .build = false ∧ Instr.build ≠ .clr ∧ (∃ t, exec .build built = .next t ∧ t.err = built.err) ∧
      ∃ t, exec .build start = .next t ∧ t.err = 11 := by
  refine ⟨rfl, by decide, ?_, ?_⟩
  · exact next_of_after (by decide +kernel)
  · exact next_of_after (by decide +kernel)

/-- The three flags set, and a command that leaves them so. -/
theorem test_hyp_OnlyClrLowersFlags :
    built.vFreq = true ∧ built.vCode = true ∧ built.vTree ≠ .none ∧ Instr.pack ≠ .clr ∧
      ∃ t, exec .pack built = .next t ∧ t.vTree = .built :=
  ⟨rfl, rfl, by decide, by decide, next_of_after (by decide +kernel)⟩

theorem test_hyp_InvariantHoldsAtReset : Params.small.legal = true := by decide

/-- A state that is not a reset state and has a host operation to come. -/
theorem test_hyp_EveryStepKeepsTheInvariant : { built with host := [.issue 0x2300] }.Inv := built_inv

end Sys2Proof.Machine
end

section
/-! PROOFS. A command as its list of steps, what the steps update, and the statements of 10_state.md about what a command
writes (R28) and which flags it lowers (R18). -/

namespace Sys2Proof.Machine

/-! ### A command as its steps -/

/-- The steps a command runs; CLR, which is none of them, is apart (40_control_and_host.md R63). -/
def stepsOf : Instr → List CmdStep
  | .nop | .clr => []
  | .pushT v => [pushStep .text v]
  | .pushS v => [pushStep .treeb v]
  | .pushP v => [pushStep .pay v]
  | .pushC v => [pushStep .cont v]
  | .count => [countStep]
  | .build => [buildStep]
  | .gencode => [gencodeStep]
  | .pack => [packStep]
  | .unpack => [unpackStep]
  | .tser => [tserStep]
  | .tdes => [tdesStep]
  | .cenc => [cencStep]
  | .cdec => [cdecStep]
  | .compress => compressSteps
  | .decompress => decompressSteps

/-- Every command but CLR is the run of its steps. -/
theorem exec_eq_runSteps {i : Instr} (hi : i ≠ .clr) (s : State) : exec i s = runSteps (stepsOf i) s := by
  cases i with
  | clr => exact absurd rfl hi
  | _ => rfl

theorem exec_clr (s : State) : exec .clr s = .next s.clear := rfl

/-! ### The updates a command is made of -/

/-- The parts of the state that 10_state.md R28 tells apart. -/
inductive Part where
  | buf (b : BufId)
  | freq
  | tree
  | code

/-- `s` becomes `t` by named updates, each of a part in `w`, and by raised errors. -/
inductive Updates (w : Part → Bool) : State → State → Prop where
  | refl (s : State) : Updates w s s
  | trans {s t u : State} : Updates w s t → Updates w t u → Updates w s u
  | raise (s : State) (e : CoreError) : Updates w s (s.raiseError e)
  | commit (s : State) {b : BufId} (out : List Byte) (hw : w (.buf b) = true) : Updates w s (s.commit b out)
  | setFreq (s : State) (f : FreqTable) (n : BitVec 8) (hw : w .freq = true) : Updates w s (s.setFreq f n)
  | setTree (s : State) (ns : List Node) (r : Nat) {o : TreeOrigin} (hw : w .tree = true) (ho : o ≠ .none) :
      Updates w s (s.setTree ns r o)
  | setCode (s : State) (c : CodeTable) (hw : w .code = true) : Updates w s (s.setCode c)

section
variable {w : Part → Bool} {s t : State}

theorem pushStep_updates {b : BufId} {v : Byte} (hw : w (.buf b) = true) (h : pushStep b v s = .ok t) :
    Updates w s t := by
  rcases pushStep_cases b v s with ⟨-, h'⟩ | ⟨-, h'⟩ <;> rw [h'] at h
  · cases h
  · cases h; exact .commit s _ hw

theorem countStep_updates (hw : w .freq = true) (h : countStep s = .ok t) : Updates w s t := by
  unfold countStep at h
  split at h <;> cases h
  exact .setFreq s _ _ hw

theorem buildStep_updates (hw : w .tree = true) (h : buildStep s = .ok t) : Updates w s t := by
  unfold buildStep at h
  split at h
  · cases h
  · dsimp only at h
    split at h <;> cases h
    exact .setTree s _ _ hw (by decide)

theorem singleSymbolStep_updates (h : singleSymbolStep s = .ok t) : Updates w s t := by
  unfold singleSymbolStep at h
  split at h <;> cases h
  exact .refl s

theorem gencodeStep_updates (hw : w .code = true) (h : gencodeStep s = .ok t) : Updates w s t := by
  unfold gencodeStep at h
  split at h
  · cases h
  · split at h <;> cases h
    exact .setCode s _ hw

theorem packStep_updates (hw : w (.buf .pay) = true) (h : packStep s = .ok t) : Updates w s t := by
  unfold packStep at h
  split at h
  · cases h
  · split at h
    · cases h
    · split at h <;> cases h
      exact .commit s _ hw

theorem unpackStep_updates (hw : w (.buf .text) = true) (h : unpackStep s = .ok t) : Updates w s t := by
  unfold unpackStep at h
  split at h
  · cases h
  · split at h <;> cases h
    exact .commit s _ hw

theorem tserStep_updates (hw : w (.buf .treeb) = true) (h : tserStep s = .ok t) : Updates w s t := by
  unfold tserStep at h
  split at h
  · cases h
  · split at h <;> cases h
    exact .commit s _ hw

theorem tdesStep_updates (hw : w .tree = true) (h : tdesStep s = .ok t) : Updates w s t := by
  unfold tdesStep at h
  split at h <;> cases h
  exact .setTree s _ _ hw (by decide)

theorem cencStep_updates (hw : w (.buf .cont) = true) (h : cencStep s = .ok t) : Updates w s t := by
  unfold cencStep at h
  dsimp only at h
  split at h <;> cases h
  exact .commit s _ hw

theorem splitContainer_updates {tl pl : Nat} (hs : w (.buf .treeb) = true) (hp : w (.buf .pay) = true)
    (h : splitContainer s tl pl = .ok t) : Updates w s t := by
  unfold splitContainer at h
  dsimp only at h
  split at h
  · cases h
  · split at h
    · cases h
    · split at h <;> cases h
      exact .trans (.commit s _ hs) (.commit _ _ hp)

theorem cdecStep_updates (hs : w (.buf .treeb) = true) (hp : w (.buf .pay) = true) (h : cdecStep s = .ok t) :
    Updates w s t := by
  unfold cdecStep at h
  split at h
  · cases h
  · split at h
    · cases h
    · split at h
      · cases h
      · exact splitContainer_updates hs hp h

end

/-- The parts a command may write (10_state.md R28). -/
def mayWrite (i : Instr) : Part → Bool
  | .buf .text => writesText i
  | .buf .treeb => writesTreeb i
  | .buf .pay => writesPay i
  | .buf .cont => writesCont i
  | .freq => writesFreq i
  | .tree => writesTree i
  | .code => writesCode i

/-- COMPRESS writes what COUNT, BUILD, GENCODE, PACK, TSER and CENC write. -/
theorem compressSteps_update {w : Part → Bool} (hs : w (.buf .treeb) = true) (hp : w (.buf .pay) = true)
    (hc : w (.buf .cont) = true) (hf : w .freq = true) (ht : w .tree = true) (hk : w .code = true) :
    ∀ f ∈ compressSteps, ∀ s t, f s = .ok t → Updates w s t := by
  simp only [compressSteps, List.forall_mem_cons]
  exact ⟨fun _ _ => countStep_updates hf, fun _ _ => buildStep_updates ht, fun _ _ => singleSymbolStep_updates,
    fun _ _ => gencodeStep_updates hk, fun _ _ => packStep_updates hp, fun _ _ => tserStep_updates hs,
    fun _ _ => cencStep_updates hc, by simp⟩

/-- DECOMPRESS writes what CDEC, TDES and UNPACK write. -/
theorem decompressSteps_update {w : Part → Bool} (hx : w (.buf .text) = true) (hs : w (.buf .treeb) = true)
    (hp : w (.buf .pay) = true) (ht : w .tree = true) :
    ∀ f ∈ decompressSteps, ∀ s t, f s = .ok t → Updates w s t := by
  simp only [decompressSteps, List.forall_mem_cons]
  exact ⟨fun _ _ => cdecStep_updates hs hp, fun _ _ => tdesStep_updates ht, fun _ _ => unpackStep_updates hx, by simp⟩

/-- Every step of a command updates only what the command may write. -/
theorem stepsOf_update (i : Instr) : ∀ f ∈ stepsOf i, ∀ s t, f s = .ok t → Updates (mayWrite i) s t := by
  cases i with
  | nop | clr => simp [stepsOf]
  | pushT v | pushS v | pushP v | pushC v => simpa [stepsOf] using fun _ _ => pushStep_updates rfl
  | count => simpa [stepsOf] using fun _ _ => countStep_updates rfl
  | build => simpa [stepsOf] using fun _ _ => buildStep_updates rfl
  | gencode => simpa [stepsOf] using fun _ _ => gencodeStep_updates rfl
  | pack => simpa [stepsOf] using fun _ _ => packStep_updates rfl
  | unpack => simpa [stepsOf] using fun _ _ => unpackStep_updates rfl
  | tser => simpa [stepsOf] using fun _ _ => tserStep_updates rfl
  | tdes => simpa [stepsOf] using fun _ _ => tdesStep_updates rfl
  | cenc => simpa [stepsOf] using fun _ _ => cencStep_updates rfl
  | cdec => simpa [stepsOf] using fun _ _ => cdecStep_updates rfl rfl
  | compress => exact compressSteps_update rfl rfl rfl rfl rfl rfl
  | decompress => exact decompressSteps_update rfl rfl rfl rfl

/-- Every command but CLR, completed or stopped by an error, is a sequence of updates of what it may write. -/
theorem exec_updates {i : Instr} {s t : State} (hi : i ≠ .clr) (h : exec i s = .next t) :
    Updates (mayWrite i) s t := by
  rw [exec_eq_runSteps hi] at h
  exact runSteps_induct (P := Updates (mayWrite i) s) (fun f hf u v hu hv => hu.trans (stepsOf_update i f hf u v hv))
    (fun _ _ u e hu _ => hu.trans (.raise u e)) (.refl s) h

/-! ### What updates keep -/

/-- The part `p` of the state is the same in `s` and `t`. -/
def Part.same (s t : State) : Part → Prop
  | .buf b => t.mem.get b = s.mem.get b
  | .freq => t.freq = s.freq ∧ t.nsym = s.nsym ∧ t.vFreq = s.vFreq
  | .tree => t.nodes = s.nodes ∧ t.root = s.root ∧ t.vTree = s.vTree
  | .code => t.code = s.code ∧ t.vCode = s.vCode

theorem Part.same_refl (s : State) (p : Part) : p.same s s := by cases p <;> simp [same]

theorem Part.same_trans {s t u : State} {p : Part} (h : p.same s t) (h' : p.same t u) : p.same s u := by
  cases p <;> simp_all [same]

/-- Every part outside `w` is unchanged. -/
theorem Updates.same {w : Part → Bool} {s t : State} (h : Updates w s t) {p : Part} (hp : w p = false) :
    p.same s t := by
  have other {q : Part} (hq : w q = true) : p ≠ q := by rintro rfl; simp [hp] at hq
  induction h with
  | refl s => exact p.same_refl s
  | trans _ _ ih ih' => exact Part.same_trans ih ih'
  | raise s e => cases p <;> simp [Part.same]
  | @commit s b out hw =>
    cases p with
    | buf c => exact Memory.get_set_other _ _ _ _ fun hc => other hw (hc ▸ rfl)
    | _ => simp [Part.same]
  | setFreq s f n hw =>
    cases p with
    | freq => exact absurd rfl (other hw)
    | _ => simp [Part.same]
  | setTree s ns r hw _ =>
    cases p with
    | tree => exact absurd rfl (other hw)
    | _ => simp [Part.same]
  | setCode s c hw =>
    cases p with
    | code => exact absurd rfl (other hw)
    | _ => simp [Part.same]

/-- The parameters and the host's side are unchanged (log 1, log 2, log 3). -/
theorem Updates.model_fields {w : Part → Bool} {s t : State} (h : Updates w s t) :
    t.params = s.params ∧ t.host = s.host ∧ t.reply = s.reply := by
  induction h with
  | trans _ _ ih ih' => simp_all
  | _ => simp

/-- No update lowers a valid flag (10_state.md R18). -/
theorem Updates.flags {w : Part → Bool} {s t : State} (h : Updates w s t) :
    (s.vFreq = true → t.vFreq = true) ∧ (s.vCode = true → t.vCode = true) ∧ (s.vTree ≠ .none → t.vTree ≠ .none) := by
  induction h with
  | trans _ _ ih ih' =>
    obtain ⟨h1, h2, h3⟩ := ih
    obtain ⟨h1', h2', h3'⟩ := ih'
    exact ⟨h1' ∘ h1, h2' ∘ h2, h3' ∘ h3⟩
  | setTree s ns r hw ho => simp [ho]
  | _ => simp

/-- Any command leaves the parts it may not write, and the model's own fields (10_state.md R28). -/
theorem exec_frame {i : Instr} {s t : State} (h : exec i s = .next t) :
    (t.params = s.params ∧ t.host = s.host ∧ t.reply = s.reply) ∧ ∀ p, mayWrite i p = false → p.same s t := by
  by_cases hi : i = .clr
  · subst hi
    cases exec_clr s ▸ h
    refine ⟨by simp, fun p hp => ?_⟩
    rcases p with (_ | _ | _ | _) | _ | _ | _ <;> cases hp
  · exact ⟨(exec_updates hi h).model_fields, fun _ => (exec_updates hi h).same⟩

end Sys2Proof.Machine

open Sys2Proof Sys2Proof.Machine

/-- Settles O55: a command is a sequence of updates of the parts it may write. -/
theorem commandsWriteOnlyWhatIsListed : Obligations.CommandsWriteOnlyWhatIsListed := by
  intro i s t h
  obtain ⟨⟨hp, hh, hr⟩, same⟩ := exec_frame h
  have read {b : BufId} (hb : mayWrite i (.buf b) = false) (a : Nat) : t.mem.read b a = s.mem.read b a :=
    congrArg (·[a]?) (same (.buf b) hb)
  refine ⟨hp, hh, hr, fun hw => read hw, fun hw => read hw, fun hw => read hw, fun hw => read hw, same .freq, same .tree,
    same .code, ?_⟩
  rintro rfl
  cases h; rfl

/-- Settles O57: no update of a command lowers a flag. -/
theorem onlyClrLowersFlags : Obligations.OnlyClrLowersFlags :=
  fun _ _ _ hi h => (exec_updates hi h).flags
end

section
/-! PROOFS. The reset state (10_state.md R25), and the invariant of 10_state.md R26 under each update of the state. -/

namespace Sys2Proof.Machine

/-! ### The reset state -/

theorem State.cleared_resetWith (p : Params) : (State.resetWith p).Cleared where
  text := rfl
  treeb := rfl
  pay := rfl
  cont := rfl
  freq := by simp
  nsym := rfl
  nodes := rfl
  root := rfl
  code := by simp [CodeEntry.invalid]
  vFreq := rfl
  vCode := rfl
  vTree := rfl
  err := rfl
  errInfo := rfl
  status := by simp [statusWord, TreeOrigin.bits]

theorem State.cleared_clear (s : State) : s.clear.Cleared where
  __ := State.cleared_resetWith s.params

/-! ### The invariant's parts depend on their own fields -/

theorem FreqInv.congr {s t : State} (h : FreqInv s) (hp : t.params = s.params := by rfl)
    (hf : t.freq = s.freq := by rfl) (hn : t.nsym = s.nsym := by rfl) (hv : t.vFreq = s.vFreq := by rfl) : FreqInv t :=
  ⟨by rw [hf, hp]; exact h.total, by rw [hn, hf]; exact h.nsym, by rw [hv, hf]; exact h.clear⟩

theorem ArenaInv.congr {s t : State} (h : ArenaInv s) (hp : t.params = s.params := by rfl)
    (hn : t.nodes = s.nodes := by rfl) (hr : t.root = s.root := by rfl) (hv : t.vTree = s.vTree := by rfl) :
    ArenaInv t := by
  constructor <;> simp only [hp, hn, hr, hv]
  exacts [h.none, h.tree, h.fits, h.unused, h.builtSyms, h.builtNodup, h.builtFreq, h.builtSum, h.deserSyms,
    h.deserFreq]

theorem CodeInv.congr {s t : State} (h : CodeInv s) (hc : t.code = s.code := by rfl)
    (hv : t.vCode = s.vCode := by rfl) : CodeInv t :=
  ⟨by rw [hc]; exact h.entries, by rw [hc, hv]; exact h.clear⟩

theorem ErrInv.congr {s t : State} (h : ErrInv s) (he : t.err = s.err := by rfl)
    (hi : t.errInfo = s.errInfo := by rfl) : ErrInv t :=
  ⟨by rw [he]; exact h.code, by rw [he, hi]; exact h.info⟩

/-- The codes of 60_exceptions.md R122 are 1 to 12. -/
theorem CoreError.code_bounds (e : CoreError) : e.code ≠ 0 ∧ e.code.toNat ≤ 12 := by
  cases e <;> exact ⟨by simp [code], by simp [code]⟩

/-! ### The invariant under each update -/

namespace State.Inv

theorem resetWith {p : Params} (hp : p.legal = true) : (State.resetWith p).Inv where
  params := hp
  mem := by simp
  freq := ⟨by simp, by simp, by simp⟩
  arena := by constructor <;> simp
  code := ⟨by simp +contextual [CodeEntry.invalid, CodeEntry.ok], by simp⟩
  error := ⟨by simp, by simp⟩

variable {s : State} (h : s.Inv)
include h

theorem clear : s.clear.Inv :=
  have r := resetWith h.params
  ⟨r.params, r.mem, r.freq.congr, r.arena.congr, r.code.congr, r.error.congr⟩

theorem raiseError (e : CoreError) : (s.raiseError e).Inv :=
  ⟨h.params, h.mem, h.freq.congr, h.arena.congr, h.code.congr, ⟨e.code_bounds.2, fun h0 => absurd h0 e.code_bounds.1⟩⟩

theorem commit (b : BufId) {out : List Byte} (hb : out.length ≤ cap s.params b) : (s.commit b out).Inv :=
  ⟨h.params, Memory.wf_set _ _ _ h.mem hb, h.freq.congr, h.arena.congr, h.code.congr, h.error.congr⟩

theorem setHost (ops : List HostOp) : (s.setHost ops).Inv :=
  ⟨h.params, h.mem, h.freq.congr, h.arena.congr, h.code.congr, h.error.congr⟩

theorem setReply (r : PortReply) : (s.setReply r).Inv :=
  ⟨h.params, h.mem, h.freq.congr, h.arena.congr, h.code.congr, h.error.congr⟩

theorem setFreq {f : FreqTable} {n : BitVec 8} (hf : f.toList.sum ≤ s.params.textCap)
    (hn : n.toNat = f.toList.countP (fun k => decide (0 < k))) : (s.setFreq f n).Inv :=
  ⟨h.params, h.mem, ⟨hf, hn, by simp⟩, h.arena.congr, h.code.congr, h.error.congr⟩

theorem setTree {ns : List Node} {r : Nat} {o : TreeOrigin} (ht : ArenaInv (s.setTree ns r o)) :
    (s.setTree ns r o).Inv :=
  ⟨h.params, h.mem, h.freq.congr, ht, h.code.congr, h.error.congr⟩

theorem setCode {c : CodeTable} (hc : ∀ e ∈ c.toList, e.ok = true) : (s.setCode c).Inv :=
  ⟨h.params, h.mem, h.freq.congr, h.arena.congr, ⟨hc, by simp⟩, h.error.congr⟩

/-- Every buffer is within its capacity (10_state.md R13). -/
theorem length_le_cap (b : BufId) : (s.mem.get b).length ≤ cap s.params b := (Memory.wf_iff _ _).1 h.mem b

/-- A count of a text fits CNT_W bits (00_scope.md R6). -/
theorem textCap_lt : s.params.textCap < 2 ^ s.params.cntW := by
  have hp := h.params
  simp only [Params.legal, Params.cntWOk, Bool.and_eq_true, decide_eq_true_eq] at hp
  exact hp.2

/-- The arena holds a tree of 128 leaves and is indexed by 16 bits (00_scope.md R6). -/
theorem nodeCap_bounds : 255 ≤ s.params.nodeCap ∧ s.params.nodeCap ≤ 65535 := by
  have hp := h.params
  simp only [Params.legal, Params.nodeCapOk, Bool.and_eq_true, decide_eq_true_eq] at hp
  exact hp.1.2

end State.Inv

end Sys2Proof.Machine

open Sys2Proof Sys2Proof.Machine

/-- Settles O1: reset and CLR give one and the same record. -/
theorem resetStateValues : Obligations.ResetStateValues :=
  ⟨State.cleared_resetWith _, State.cleared_resetWith, fun s => ⟨s.clear, rfl, s.cleared_clear⟩⟩

/-- Settles O58: empty buffers, an empty arena and empty tables meet every clause. -/
theorem invariantHoldsAtReset : Obligations.InvariantHoldsAtReset :=
  ⟨State.Inv.resetWith (by decide), fun _ => State.Inv.resetWith⟩
end

section
/-! PROOFS. What BUILD makes of a frequency table: at every merge the arena is a forest under the queue (42_tree_builder.md
R80), so that at the end it is the one tree of 10_state.md R26. -/

namespace Sys2Proof.Machine

/-! ### The leaves -/

/-- The leaf symbols are among the symbols of the counters, ascending (42_tree_builder.md R80). -/
theorem leavesFrom_syms_sublist (l : List Nat) (i : Nat) :
    ((leavesFrom l i).map (·.sym)).Sublist ((List.range' i l.length).map (BitVec.ofNat 8)) := by
  induction l generalizing i with
  | nil => simp [leavesFrom]
  | cons n l ih =>
    rw [List.length_cons, List.range'_succ, List.map_cons, leavesFrom]
    split
    · exact (ih (i + 1)).cons_cons _
    · exact (ih (i + 1)).cons _

theorem length_leavesFrom_le (l : List Nat) (i : Nat) : (leavesFrom l i).length ≤ l.length := by
  simpa using (leavesFrom_syms_sublist l i).length_le

/-- Each leaf is the leaf of a positive counter (42_tree_builder.md R80). -/
theorem mem_leavesFrom {l : List Nat} {i : Nat} {n : Node} (h : n ∈ leavesFrom l i) :
    ∃ k y, 0 < k ∧ n = leafNode k y := by
  rw [leavesFrom_eq] at h
  obtain ⟨⟨k, y⟩, -, hq⟩ := List.mem_filterMap.1 h
  split at hq <;> cases hq
  exact ⟨k, y, ‹_›, rfl⟩

/-- The leaves hold the whole of the table. -/
theorem sum_leavesFrom (l : List Nat) (i : Nat) : ((leavesFrom l i).map (·.freq)).sum = l.sum := by
  induction l generalizing i with
  | nil => rfl
  | cons n l ih =>
    rw [leavesFrom]
    split
    · simp [ih, leafNode]
    · simp [ih]; omega

theorem length_seedFrom (ns : List Node) (i : Nat) : (seedFrom ns i).length = ns.length := by
  induction ns generalizing i with
  | nil => rfl
  | cons n ns ih => simp [seedFrom, ih]

theorem map_freq_seedFrom (ns : List Node) (i : Nat) : (seedFrom ns i).map (·.freq) = ns.map (·.freq) := by
  induction ns generalizing i with
  | nil => rfl
  | cons n ns ih => simp [seedFrom, ih]

theorem map_idx_seedFrom (ns : List Node) (i : Nat) : (seedFrom ns i).map (·.idx) = List.range' i ns.length := by
  induction ns generalizing i with
  | nil => rfl
  | cons n ns ih => simp [seedFrom, ih, List.range'_succ]

/-! ### The queue -/

/-- `popMin` parts the queue into one entry and the others (42_tree_builder.md R79). -/
theorem popMin_perm (k : PqEntry) (ks : List PqEntry) : ((popMin k ks).1 :: (popMin k ks).2).Perm (k :: ks) := by
  induction ks generalizing k with
  | nil => exact .refl _
  | cons x xs ih =>
    simp only [popMin]
    split
    · exact .refl _
    · exact (List.Perm.swap ..).trans ((ih x).cons k)

/-! ### Walks in a growing arena -/

/-- A walk that ends is the same in a larger arena and with more fuel. -/
theorem preorder_mono {ns : List Node} {f g i : Nat} {is : List Nat} (h : preorder ns f i = some is) (hfg : f ≤ g)
    (ms : List Node) : preorder (ns ++ ms) g i = some is := by
  induction f generalizing g i is with
  | zero => simp [preorder] at h
  | succ f ih =>
    obtain ⟨g, rfl⟩ : ∃ g', g = g' + 1 := ⟨g - 1, by omega⟩
    rw [preorder] at h ⊢
    split at h
    · cases h
    · next n hn =>
      rw [List.getElem?_append_left (List.getElem?_eq_some_iff.1 hn).1, hn]
      split at h
      · next hl => simpa [hl] using h
      · next hl =>
        split at h
        · next l r el er =>
          have hfg' : f ≤ g := by omega
          simpa [hl, ih el hfg', ih er hfg'] using h
        · cases h

/-- The walk from an internal node goes through both subtrees. -/
theorem preorder_node {ns : List Node} {f i : Nat} {n : Node} {l r : List Nat} (hn : ns[i]? = some n)
    (hl : n.leaf = false) (el : preorder ns f n.left.toNat = some l) (er : preorder ns f n.right.toNat = some r) :
    preorder ns (f + 1) i = some (i :: (l ++ r)) := by
  simp [preorder, hn, hl, el, er]

theorem Node.sumsChildren_append {ns : List Node} {n : Node} (h : n.sumsChildren ns = true) (ms : List Node) :
    n.sumsChildren (ns ++ ms) = true := by
  unfold sumsChildren at h ⊢
  rw [Bool.or_eq_true] at h ⊢
  refine h.imp_right fun h => ?_
  split at h
  · next l r hl hr =>
    rw [List.getElem?_append_left (List.getElem?_eq_some_iff.1 hl).1,
      List.getElem?_append_left (List.getElem?_eq_some_iff.1 hr).1, hl, hr]
    exact h
  · cases h

/-! ### The forest under the queue -/

/-- The clauses of 10_state.md R26 (e) and R15 for one record of a BUILT arena of `total` counts. -/
structure Node.BuiltOk (ns : List Node) (total : Nat) (n : Node) : Prop where
  unused : n.unusedZero = true
  sym : n.leaf = true → n.sym.toNat < 128
  pos : 1 ≤ n.freq
  le : n.freq ≤ total
  sums : n.sumsChildren ns = true

/-- The indices a walk from `i` visits, where it ends. -/
def treeBelow (ns : List Node) (i : Nat) : List Nat := (preorder ns ns.length i).getD []

/-- The entry is the key of a record of the arena from which a walk ends. -/
structure PqEntry.Roots (ns : List Node) (e : PqEntry) : Prop where
  record : ∃ n, ns[e.idx]? = some n ∧ n.freq = e.freq
  walk : preorder ns ns.length e.idx = some (treeBelow ns e.idx)

/-- The arena of BUILD, while `q` is the queue: a forest of the trees below the entries of `q`, of `total` counts. -/
structure Forest (total : Nat) (ns : List Node) (q : List PqEntry) : Prop where
  nodes : ∀ n ∈ ns, n.BuiltOk ns total
  roots : ∀ e ∈ q, e.Roots ns
  cover : (q.flatMap (fun e => treeBelow ns e.idx)).Perm (List.range ns.length)
  sum : (q.map (·.freq)).sum = total

/-- The order of the queue does not matter. -/
theorem Forest.perm {total : Nat} {ns : List Node} {q q' : List PqEntry} (h : Forest total ns q) (hq : q'.Perm q) :
    Forest total ns q' where
  nodes := h.nodes
  roots e he := h.roots e (hq.subset he)
  cover := (hq.flatMap_right _).trans h.cover
  sum := (hq.map _).sum_eq.trans h.sum

theorem PqEntry.Roots.walk_append {ns : List Node} {e : PqEntry} (h : e.Roots ns) (m : Node) :
    preorder (ns ++ [m]) (ns ++ [m]).length e.idx = some (treeBelow ns e.idx) :=
  preorder_mono h.walk (by simp) [m]

theorem PqEntry.Roots.treeBelow_append {ns : List Node} {e : PqEntry} (h : e.Roots ns) (m : Node) :
    treeBelow (ns ++ [m]) e.idx = treeBelow ns e.idx := by
  rw [treeBelow, h.walk_append m]; rfl

theorem PqEntry.Roots.idx_lt {ns : List Node} {e : PqEntry} (h : e.Roots ns) : e.idx < ns.length := by
  obtain ⟨n, hn, -⟩ := h.record
  exact (List.getElem?_eq_some_iff.1 hn).1

theorem PqEntry.Roots.append {ns : List Node} {e : PqEntry} (h : e.Roots ns) (m : Node) : e.Roots (ns ++ [m]) where
  record := by
    obtain ⟨n, hn, hf⟩ := h.record
    exact ⟨n, by rw [List.getElem?_append_left h.idx_lt, hn], hf⟩
  walk := by rw [h.walk_append m, h.treeBelow_append m]

theorem mergedNode_left {a b : PqEntry} (h : a.idx < 2 ^ 16) : (mergedNode a b).left.toNat = a.idx := by
  simpa [mergedNode] using h

theorem mergedNode_right {a b : PqEntry} (h : b.idx < 2 ^ 16) : (mergedNode a b).right.toNat = b.idx := by
  simpa [mergedNode] using h

/-- The record of a merge is within 10_state.md R26 (e): it sums its children. -/
theorem mergedNode_builtOk {ns : List Node} {total : Nat} {a b : PqEntry} (ha : a.Roots ns) (hb : b.Roots ns)
    (hn : ∀ n ∈ ns, n.BuiltOk ns total) (hle : a.freq + b.freq ≤ total) (hw : ns.length < 2 ^ 16) :
    (mergedNode a b).BuiltOk (ns ++ [mergedNode a b]) total := by
  obtain ⟨m, hm, hma⟩ := ha.record
  obtain ⟨n, hn', hnb⟩ := hb.record
  have hl : (mergedNode a b).left.toNat = a.idx := mergedNode_left (ha.idx_lt.trans hw)
  have hr : (mergedNode a b).right.toNat = b.idx := mergedNode_right (hb.idx_lt.trans hw)
  have hpos : 1 ≤ m.freq := (hn m (List.mem_of_getElem? hm)).pos
  have hfreq : (mergedNode a b).freq = m.freq + n.freq := by rw [hma, hnb]; rfl
  refine ⟨rfl, by simp [mergedNode], by omega, hle, Node.sumsChildren_append ?_ _⟩
  simp [Node.sumsChildren, hl, hr, hm, hn', hfreq]

/-- The entry of a merge roots the tree over its two children. -/
theorem mergedNode_walk {ns : List Node} {a b : PqEntry} (ha : a.Roots ns) (hb : b.Roots ns)
    (hw : ns.length < 2 ^ 16) :
    preorder (ns ++ [mergedNode a b]) (ns ++ [mergedNode a b]).length ns.length =
      some (ns.length :: (treeBelow ns a.idx ++ treeBelow ns b.idx)) := by
  rw [List.length_append, List.length_singleton]
  refine preorder_node (n := mergedNode a b) (by simp) rfl ?_ ?_
  · rw [mergedNode_left (ha.idx_lt.trans hw)]
    exact preorder_mono ha.walk le_rfl _
  · rw [mergedNode_right (hb.idx_lt.trans hw)]
    exact preorder_mono hb.walk le_rfl _

/-- A merge takes two trees of the forest and puts the tree over both in their place (42_tree_builder.md R80). -/
theorem Forest.merge {total : Nat} {ns : List Node} {a b : PqEntry} {q : List PqEntry}
    (h : Forest total ns (a :: b :: q)) (hw : ns.length < 2 ^ 16) :
    Forest total (ns ++ [mergedNode a b]) (⟨a.freq + b.freq, ns.length⟩ :: q) := by
  have ha : a.Roots ns := h.roots a (by simp)
  have hb : b.Roots ns := h.roots b (by simp)
  have hq : ∀ e ∈ q, e.Roots ns := fun e he => h.roots e (by simp [he])
  have hsum : a.freq + (b.freq + (q.map (·.freq)).sum) = total := by simpa using h.sum
  have hbelow : treeBelow (ns ++ [mergedNode a b]) ns.length =
      ns.length :: (treeBelow ns a.idx ++ treeBelow ns b.idx) := by
    rw [treeBelow, mergedNode_walk ha hb hw]; rfl
  constructor
  · intro n hn
    rcases List.mem_append.1 hn with hn | hn
    · have ok := h.nodes n hn
      exact ⟨ok.unused, ok.sym, ok.pos, ok.le, Node.sumsChildren_append ok.sums _⟩
    · rw [List.mem_singleton.1 hn]
      exact mergedNode_builtOk ha hb h.nodes (by omega) hw
  · intro e he
    rcases List.mem_cons.1 he with rfl | he
    · exact ⟨⟨mergedNode a b, by simp, rfl⟩, by rw [mergedNode_walk ha hb hw, hbelow]⟩
    · exact (hq e he).append _
  · have hold : q.flatMap (fun e => treeBelow (ns ++ [mergedNode a b]) e.idx) =
        q.flatMap (fun e => treeBelow ns e.idx) :=
      List.flatMap_congr fun e he => (hq e he).treeBelow_append _
    have hcover := h.cover
    simp only [List.flatMap_cons, ← List.append_assoc] at hcover
    rw [List.flatMap_cons, hold, hbelow, List.cons_append, List.length_append, List.length_singleton,
      List.range_succ]
    exact (hcover.cons _).trans (List.perm_append_singleton _ _).symm
  · simpa [Nat.add_assoc] using hsum

/-- The merge loop ends with one tree (42_tree_builder.md R83); it adds no leaf. -/
theorem mergeLoop_forest {total fuel : Nat} {ns : List Node} {k : PqEntry} {ks : List PqEntry}
    (h : Forest total ns (k :: ks)) (hf : ks.length ≤ fuel) (hw : ns.length + ks.length < 2 ^ 16) :
    ∃ e, e.idx = (mergeLoop fuel ns k ks).2 ∧ Forest total (mergeLoop fuel ns k ks).1 [e] ∧
      (mergeLoop fuel ns k ks).1.filter (·.leaf) = ns.filter (·.leaf) := by
  induction fuel generalizing ns k ks with
  | zero =>
    cases List.length_eq_zero_iff.1 (Nat.le_zero.1 hf)
    exact ⟨k, rfl, h, rfl⟩
  | succ fuel ih =>
    have hp := popMin_perm k ks
    rw [mergeLoop]
    split
    · next a ha =>
      rw [ha] at hp
      exact ⟨a, rfl, h.perm hp, rfl⟩
    · next a x xs ha =>
      rw [ha] at hp
      have hlen := hp.length_eq
      have hlen' := popMin_length x xs
      simp only [List.length_cons] at hlen
      have hm := (h.perm (((popMin_perm x xs).cons a).trans hp)).merge (by omega)
      obtain ⟨e, h1, h2, h3⟩ := ih hm (by omega) (by rw [List.length_append, List.length_singleton]; omega)
      exact ⟨e, h1, h2, by simpa [mergedNode] using h3⟩

/-- In an arena of leaves a walk visits its start. -/
theorem treeBelow_leavesFrom {l : List Nat} {y i : Nat} (hi : i < (leavesFrom l y).length) :
    preorder (leavesFrom l y) (leavesFrom l y).length i = some [i] ∧ treeBelow (leavesFrom l y) i = [i] := by
  obtain ⟨f, hf⟩ : ∃ f, (leavesFrom l y).length = f + 1 := ⟨(leavesFrom l y).length - 1, by omega⟩
  obtain ⟨k, z, -, he⟩ := mem_leavesFrom (List.getElem_mem hi)
  have walk : preorder (leavesFrom l y) (leavesFrom l y).length i = some [i] := by
    rw [hf, preorder, List.getElem?_eq_getElem hi, he]; rfl
  exact ⟨walk, by rw [treeBelow, walk]; rfl⟩

/-- The leaves of a frequency table are within 10_state.md R26 (e). -/
theorem leavesFrom_builtOk {l : List Nat} (hl : l.length ≤ 128) {n : Node} (hn : n ∈ leavesFrom l 0)
    (ns : List Node) : n.BuiltOk ns l.sum := by
  have hle : n.freq ≤ l.sum :=
    sum_leavesFrom l 0 ▸ List.single_le_sum (by simp) _ (List.mem_map_of_mem hn)
  have hsym : n.sym.toNat < 128 := by
    obtain ⟨z, hz, hzy⟩ := List.mem_map.1 ((leavesFrom_syms_sublist l 0).subset (List.mem_map_of_mem hn))
    have := (List.mem_range'_1.1 hz).2
    rw [← hzy, BitVec.toNat_ofNat]
    omega
  obtain ⟨k, y, hk, rfl⟩ := mem_leavesFrom hn
  exact ⟨rfl, fun _ => hsym, hk, hle, rfl⟩

/-- The leaves alone are the forest of the seeded queue. -/
theorem forest_leavesFrom (l : List Nat) (hl : l.length ≤ 128) :
    Forest l.sum (leavesFrom l 0) (seedFrom (leavesFrom l 0) 0) := by
  have idx : (seedFrom (leavesFrom l 0) 0).map (·.idx) = List.range (leavesFrom l 0).length := by
    rw [map_idx_seedFrom, List.range_eq_range']
  have lt : ∀ e ∈ seedFrom (leavesFrom l 0) 0, e.idx < (leavesFrom l 0).length := fun e he =>
    List.mem_range.1 (idx ▸ List.mem_map_of_mem he)
  constructor
  · exact fun n hn => leavesFrom_builtOk hl hn _
  · intro e he
    obtain ⟨walk, below⟩ := treeBelow_leavesFrom (lt e he)
    obtain ⟨k, hk⟩ := List.mem_iff_getElem?.1 he
    rw [getElem?_seedFrom] at hk
    obtain ⟨n, hn, rfl⟩ := Option.map_eq_some_iff.1 hk
    exact ⟨⟨n, by simpa using hn, rfl⟩, by rw [walk, below]⟩
  · rw [← idx, ← List.flatMap_singleton' ((seedFrom (leavesFrom l 0) 0).map (·.idx)), List.flatMap_map]
    exact .of_eq (List.flatMap_congr fun e he => (treeBelow_leavesFrom (lt e he)).2)
  · rw [map_freq_seedFrom, sum_leavesFrom]

/-- A forest of one tree is one tree (10_state.md R26 a, b, c). -/
theorem Forest.oneTree {total : Nat} {ns : List Node} {e : PqEntry} (h : Forest total ns [e]) :
    oneTree ns e.idx = true := by
  rw [Machine.oneTree, (h.roots e (by simp)).walk]
  exact List.isPerm_iff.2 (by simpa using h.cover)

end Sys2Proof.Machine
end

section
/-! PROOFS. Every step of every command answers within the invariant, or raises an error of the core; no step faults
(10_state.md R26; 60_exceptions.md R122). -/

namespace Sys2Proof.Machine

/-! ### A computation without a fault -/

/-- The computation answers within `P`, or raises an error of the core: it does not fault. -/
def Answers {α : Type} (P : α → Prop) : Except Stop α → Prop
  | .ok a => P a
  | .error (.raise _) => True
  | .error (.fault _) => False

theorem Answers.cases {α : Type} {P : α → Prop} {x : Except Stop α} (h : Answers P x) :
    (∃ a, x = .ok a ∧ P a) ∨ ∃ e, x = .error (.raise e) := by
  match x, h with
  | .ok a, h => exact .inl ⟨a, rfl, h⟩
  | .error (.raise e), _ => exact .inr ⟨e, rfl⟩

/-- Steps that each answer within the invariant run to a next state within it. -/
theorem runSteps_inv {fs : List CmdStep} (hf : ∀ f ∈ fs, ∀ s : State, s.Inv → Answers State.Inv (f s)) {s : State}
    (h : s.Inv) : ∃ t, runSteps fs s = .next t ∧ t.Inv := by
  induction fs generalizing s with
  | nil => exact ⟨s, rfl, h⟩
  | cons f fs ih =>
    rcases (hf f List.mem_cons_self s h).cases with ⟨t, ht, hinv⟩ | ⟨e, he⟩
    · rw [runSteps_cons_ok ht]
      exact ih (fun g hg => hf g (List.mem_cons_of_mem f hg)) hinv
    · exact ⟨_, runSteps_cons_raise he, h.raiseError e⟩

variable {s : State}

/-! ### Data entry and the container -/

theorem pushStep_inv (b : BufId) (v : Byte) (h : s.Inv) : Answers State.Inv (pushStep b v s) := by
  rcases pushStep_cases b v s with ⟨-, h'⟩ | ⟨hne, h'⟩ <;> rw [h']
  · trivial
  · have hle : (s.mem.get b).length ≤ cap s.params b := h.length_le_cap b
    exact h.commit b (by rw [List.length_append, List.length_singleton]; exact Nat.lt_of_le_of_ne hle hne)

theorem cencStep_inv (h : s.Inv) : Answers State.Inv (cencStep s) := by
  have hs := h.length_le_cap .treeb
  have hp := h.length_le_cap .pay
  simp only [cap, Memory.get] at hs hp
  have hlen : (containerHeader (BitVec.ofNat 32 (s.mem.len .treeb)) (BitVec.ofNat 32 (s.mem.len .pay)) ++ s.mem.treeb ++
      s.mem.pay).length ≤ cap s.params .cont := by
    simp only [containerHeader, List.length_append, List.length_cons, List.length_nil, cap, Params.contCap]; omega
  unfold cencStep
  dsimp only
  rw [emitAll_ok _ (by simpa using hlen)]
  exact h.commit .cont hlen

/-- A number of `n` bytes is below `256 ^ n` (20_memory.md R33). -/
theorem bigEndian_lt (bs : List Byte) : bigEndian bs < 256 ^ bs.length := by
  induction bs using List.reverseRecOn with
  | nil => simp [bigEndian]
  | append_singleton bs v ih =>
    have hv : v.toNat < 256 := v.isLt
    have e : bigEndian (bs ++ [v]) = bigEndian bs * 256 + v.toNat := by simp [bigEndian]
    rw [e, List.length_append, List.length_singleton, Nat.pow_succ]
    omega

theorem splitContainer_inv {tl pl : Nat} (ht : tl ≤ treebCap) (h : s.Inv) :
    Answers State.Inv (splitContainer s tl pl) := by
  unfold splitContainer
  dsimp only
  split
  · trivial
  · split
    · trivial
    · split
      · trivial
      · next hp =>
        refine (h.commit .treeb ?_).commit .pay ?_
        · exact (List.length_take_le _ _).trans ht
        · exact (List.length_take_le _ _).trans (Nat.le_of_not_lt hp)

theorem cdecStep_inv (h : s.Inv) : Answers State.Inv (cdecStep s) := by
  unfold cdecStep
  split
  · trivial
  · next h6 =>
    simp only [Memory.len, Memory.get, Nat.not_lt] at h6
    rw [memRead_ok (by omega)]
    dsimp only
    rw [memRead_ok (by omega)]
    have := bigEndian_lt ((s.mem.cont.drop 0).take 2)
    have hlen : ((s.mem.cont.drop 0).take 2).length = 2 := by rw [List.length_take, List.length_drop]; omega
    rw [hlen] at this
    exact splitContainer_inv (Nat.le_of_lt_succ this) h

/-! ### COUNT -/

/-- One more occurrence of a symbol is one more in the total. -/
theorem sum_set_succ (f : FreqTable) (k : Nat) (hk : k < 128) :
    (f.set k (f[k] + 1)).toList.sum = f.toList.sum + 1 := by
  have hk' : k < f.toList.length := by simpa using hk
  have h := congrArg List.sum (List.set_getElem_self hk')
  rw [List.sum_set, if_pos hk', Vector.getElem_toList] at h
  rw [Vector.toList_set, List.sum_set, if_pos hk']
  omega

/-- Counting `bs` into a table adds their number to its total (41_symbol_table.md R77). -/
theorem countFrom_answers (bs : List Byte) (i : Nat) (f : FreqTable) :
    Answers (fun g => g.toList.sum = f.toList.sum + bs.length) (countFrom bs i f) := by
  induction bs generalizing i f with
  | nil => rfl
  | cons v vs ih =>
    rw [countFrom]
    split
    · next hv =>
      have h := ih (i + 1) (f.set v.toNat (f[v.toNat] + 1))
      rwa [sum_set_succ f v.toNat hv, Nat.add_assoc, Nat.add_comm 1] at h
    · trivial

theorem presentCount_le (f : FreqTable) : presentCount f ≤ 128 := by
  simpa [presentCount] using List.countP_le_length (p := fun n => decide (0 < n)) (l := f.toList)

theorem countStep_inv (h : s.Inv) : Answers State.Inv (countStep s) := by
  unfold countStep
  rcases (countFrom_answers s.mem.text 0 (Vector.replicate 128 0)).cases with ⟨f, hf, hsum⟩ | ⟨e, he⟩
  · rw [hf]
    refine h.setFreq ?_ ?_
    · simpa [hsum, cap] using h.length_le_cap .text
    · have := presentCount_le f
      rw [BitVec.toNat_ofNat, Nat.mod_eq_of_lt (by omega), presentCount]
  · rw [he]; trivial

/-! ### BUILD -/

/-- A forest of one tree, with the counts of a text and distinct symbols, is a BUILT arena (10_state.md R26). -/
theorem Forest.arenaInv {total : Nat} {ns : List Node} {e : PqEntry} (h : Forest total ns [e])
    (ht : total ≤ s.params.textCap) (hlen : ns.length ≤ s.params.nodeCap) (hcap : s.params.nodeCap ≤ 65535)
    (hnd : ((ns.filter (·.leaf)).map (·.sym)).Nodup) : ArenaInv (s.setTree ns e.idx .built) where
  none := by simp
  tree _ := by
    have := (h.roots e (by simp)).idx_lt
    simpa [Nat.mod_eq_of_lt (show e.idx < 65536 by omega)] using h.oneTree
  fits := hlen
  unused n hn := (h.nodes n hn).unused
  builtSyms _ n hn := (h.nodes n hn).sym
  builtNodup _ := hnd
  builtFreq _ n hn := ⟨(h.nodes n hn).pos, (h.nodes n hn).le.trans ht⟩
  builtSum _ n hn := (h.nodes n hn).sums
  deserSyms := by simp
  deserFreq := by simp

/-- The leaf symbols of BUILD are distinct (10_state.md R26 e). -/
theorem leavesFrom_syms_nodup (l : List Nat) (hl : l.length ≤ 128) : ((leavesFrom l 0).map (·.sym)).Nodup := by
  refine (leavesFrom_syms_sublist l 0).nodup (List.Nodup.map_on ?_ List.nodup_range')
  intro x hx y hy hxy
  have := (List.mem_range'_1.1 hx).2
  have := (List.mem_range'_1.1 hy).2
  have := congrArg BitVec.toNat hxy
  simp only [BitVec.toNat_ofNat] at this
  omega

theorem buildStep_inv (h : s.Inv) : Answers State.Inv (buildStep s) := by
  unfold buildStep
  by_cases hv : s.vFreq = true
  · rw [requireFreq_eq, if_pos hv]
    dsimp only
    split
    · trivial
    · next k ks hq =>
      obtain ⟨hcap, hcap'⟩ := h.nodeCap_bounds
      have hl : s.freq.toList.length ≤ 128 := by simp
      have hks : (leavesFrom s.freq.toList 0).length = ks.length + 1 := by
        rw [← length_seedFrom _ 0, hq, List.length_cons]
      have hle := length_leavesFrom_le s.freq.toList 0
      have hforest := forest_leavesFrom s.freq.toList hl
      rw [hq] at hforest
      obtain ⟨e, he, htree, hleaves⟩ := mergeLoop_forest hforest le_rfl (by omega)
      have hlen := (mergeLoop_length (ns := leavesFrom s.freq.toList 0) (k := k) (le_refl ks.length)).1
      rw [← he]
      refine h.setTree (htree.arenaInv h.freq.total (by omega) hcap' ?_)
      rw [hleaves]
      exact (List.filter_sublist.map _).nodup (leavesFrom_syms_nodup _ hl)
  · rw [requireFreq_eq, if_neg hv]; trivial

theorem singleSymbolStep_inv (h : s.Inv) : Answers State.Inv (singleSymbolStep s) := by
  unfold singleSymbolStep
  split
  · trivial
  · exact h

/-! ### GENCODE -/

/-- The leaf symbols of a tree in the order of a walk are those of the leaf records it visits. -/
theorem preorder_leaves {ns : List Node} {f i : Nat} {is : List Nat} {sh : Shape} (h : preorder ns f i = some is)
    (hs : shapeAt ns f i = some sh) :
    sh.leaves = ((is.filterMap (ns[·]?)).filter (·.leaf)).map (·.sym) := by
  induction f generalizing i is sh with
  | zero => simp [preorder] at h
  | succ f ih =>
    obtain ⟨n, hn, ⟨hl, rfl⟩ | ⟨hl, l, r, rfl, el, er⟩⟩ := shapeAt_cases hs
    · simp only [preorder, hn, hl, if_true, Option.some.injEq] at h
      subst h
      simp [hn, hl, Shape.leaves]
    · simp only [preorder, hn, hl, Bool.false_eq_true, if_false] at h
      split at h
      · next pl pr hpl hpr =>
        cases h
        simp [hn, hl, Shape.leaves, ih hpl el, ih hpr er]
      · cases h

/-- The entries of a list at all its indices are the list. -/
theorem filterMap_getElem?_range {α : Type} (l : List α) : (List.range l.length).filterMap (l[·]?) = l := by
  induction l with
  | nil => rfl
  | cons a l ih =>
    rw [List.length_cons, List.range_succ_eq_map]
    simpa [List.filterMap_map, Function.comp_def] using ih

/-- The leaf symbols of the tree are those of the leaf records of the arena (10_state.md R26 a, b). -/
theorem State.shape_leaves_perm {sh : Shape} (h : oneTree s.nodes s.root.toNat = true) (hs : s.shape = some sh) :
    sh.leaves.Perm ((s.nodes.filter (·.leaf)).map (·.sym)) := by
  unfold oneTree at h
  split at h
  · next is his =>
    have hp := (((List.isPerm_iff.1 h).filterMap (s.nodes[·]?)).filter (·.leaf)).map (·.sym)
    rwa [filterMap_getElem?_range, ← preorder_leaves his hs] at hp
  · cases h

/-- A BUILT tree has at most 128 leaves (43_code_table.md R85). -/
theorem ArenaInv.leaves_length_le {sh : Shape} (h : ArenaInv s) (hb : s.vTree = .built) (hs : s.shape = some sh) :
    sh.leaves.length ≤ 128 := by
  have hnd := h.builtNodup hb
  have hsub : ((s.nodes.filter (·.leaf)).map (·.sym)).map BitVec.toNat ⊆ List.range 128 := by
    intro k hk
    simp only [List.map_map, List.mem_map, List.mem_filter] at hk
    obtain ⟨n, ⟨hn, hl⟩, rfl⟩ := hk
    exact List.mem_range.2 (h.builtSyms hb n hn hl)
  have := ((hnd.map fun _ _ => BitVec.eq_of_toNat_eq).subperm hsub).length_le
  rw [(s.shape_leaves_perm (h.tree (by simp [hb])) hs).length_eq]
  simpa using this

/-- The record of a path of at most 127 steps is well-formed (10_state.md R17). -/
theorem codeWord_ok (bits : List Bool) (hb : bits.length ≤ 127) :
    (codeWord (pathPattern 0 bits) bits.length).ok = true := by
  have hpat := pathPattern_lt bits
  simp only [CodeEntry.ok, codeWord, if_true, decide_eq_true_eq, BitVec.toNat_ofNat,
    Nat.mod_eq_of_lt (show bits.length < 2 ^ 7 by omega)]
  exact (Nat.mod_le _ _).trans_lt hpat

/-- Recording well-formed code words keeps a table well-formed. -/
theorem foldl_setIfInBounds_ok (w : Byte × List Bool → CodeEntry) (ps : List (Byte × List Bool)) (c : CodeTable)
    (hc : ∀ e ∈ c.toList, e.ok = true) (hw : ∀ q ∈ ps, (w q).ok = true) :
    ∀ e ∈ (ps.foldl (fun c q => c.setIfInBounds q.1.toNat (w q)) c).toList, e.ok = true := by
  induction ps generalizing c with
  | nil => exact hc
  | cons q ps ih =>
    refine ih _ ?_ fun q hq => hw q (List.mem_cons_of_mem _ hq)
    intro e he
    rw [Vector.toList_setIfInBounds] at he
    rcases List.mem_or_eq_of_mem_set he with he | rfl
    · exact hc e he
    · exact hw q List.mem_cons_self

theorem gencodeStep_inv (h : s.Inv) : Answers State.Inv (gencodeStep s) := by
  unfold gencodeStep
  by_cases hb : s.vTree = .built
  · rw [requireBuilt_eq, if_pos hb]
    obtain ⟨sh, hs, -⟩ := oneTree_shape (h.arena.tree (by simp [hb]))
    have h7 : ∀ v ∈ sh.leaves, v.toNat < 128 := fun v hv => by
      obtain ⟨n, hn, hl, rfl⟩ := shapeAt_leaf hs hv
      exact h.arena.builtSyms hb n hn hl
    have h128 := h.arena.leaves_length_le hb hs
    rw [visit_ok hs h7]
    refine h.setCode (foldl_setIfInBounds_ok (fun q => codeWord (pathPattern 0 q.2) (0 + q.2.length)) _ _ ?_ ?_)
    · simp +contextual [CodeEntry.invalid, CodeEntry.ok]
    · intro q hq
      have := sh.path_length_lt q hq
      rw [Nat.zero_add]
      exact codeWord_ok q.2 (by omega)
  · rw [requireBuilt_eq, if_neg hb]; trivial

/-! ### PACK -/

/-- An emission stays within the capacity (00_scope.md R8). -/
theorem emit_answers (b : BufId) {capacity : Nat} {out : List Byte} (v : Byte) (hc : out.length ≤ capacity) :
    Answers (·.length ≤ capacity) (emit b capacity out v) := by
  rcases emit_cases (b := b) (capacity := capacity) (out := out) (v := v) with ⟨-, h⟩ | ⟨-, h⟩
  · rw [h]; trivial
  · have hle := (emit_le hc h).1
    rw [h]; exact hle

/-- What PACK emits stays within the capacity (44_bit_packer.md R91). -/
theorem drain_answers {capacity fuel : Nat} {p : PackState} (hp : p.out.length ≤ capacity) :
    Answers (·.out.length ≤ capacity) (drain capacity fuel p) := by
  induction fuel generalizing p with
  | zero => exact hp
  | succ fuel ih =>
    rw [drain]
    split
    · rcases (emit_answers .pay (topByte p.acc p.nbits) hp).cases with ⟨out, h, hout⟩ | ⟨e, h⟩ <;> rw [h]
      · exact ih hout
      · trivial
    · exact hp

theorem packFrom_answers {code : CodeTable} {capacity : Nat} (bs : List Byte) (i : Nat) {p : PackState}
    (hp : p.out.length ≤ capacity) : Answers (·.out.length ≤ capacity) (packFrom code capacity bs i p) := by
  induction bs generalizing i p with
  | nil => exact hp
  | cons v vs ih =>
    rw [packFrom]
    split
    · next hv =>
      split
      · trivial
      · rcases (drain_answers (fuel := (shiftIn p code[v.toNat]).nbits) (p := shiftIn p code[v.toNat]) hp).cases with
          ⟨p', hd, hp'⟩ | ⟨e, hd⟩ <;> rw [hd]
        · exact ih (i + 1) hp'
        · trivial
    · trivial

theorem padLast_answers {capacity : Nat} {p : PackState} (hp : p.out.length ≤ capacity) :
    Answers (·.length ≤ capacity) (padLast capacity p) := by
  rw [padLast]
  split
  · exact emit_answers .pay _ hp
  · exact hp

theorem packStep_inv (h : s.Inv) : Answers State.Inv (packStep s) := by
  unfold packStep
  by_cases hv : s.vCode = true
  · rw [requireCode_eq, if_pos hv]
    rcases (packFrom_answers (code := s.code) (capacity := cap s.params .pay) s.mem.text 0 (p := ⟨0, 0, []⟩)
      (Nat.zero_le _)).cases with ⟨p, hp, hle⟩ | ⟨e, he⟩
    · rw [hp]
      dsimp only
      rcases (padLast_answers hle).cases with ⟨out, ho, hle'⟩ | ⟨e, he⟩
      · rw [ho]; exact h.commit .pay hle'
      · rw [he]; trivial
    · rw [he]; trivial
  · rw [requireCode_eq, if_neg hv]; trivial

/-! ### UNPACK and TSER -/

/-- Where there is a tree, the arena has its shape (10_state.md R26). -/
theorem ArenaInv.shape {s : State} (h : ArenaInv s) (ht : s.vTree ≠ .none) :
    ∃ sh, s.shape = some sh ∧ sh.size = s.nodes.length := oneTree_shape (h.tree ht)

theorem unpackStep_inv (h : s.Inv) : Answers State.Inv (unpackStep s) := by
  unfold unpackStep
  by_cases ht : s.vTree = .none
  · rw [requireTree_eq, if_pos ht]; trivial
  · rw [requireTree_eq, if_neg ht]
    obtain ⟨sh, hs, hsize⟩ := h.arena.shape ht
    cases sh with
    | node l r =>
      obtain ⟨hfit, hover⟩ := unpackFrom_spec (capacity := cap s.params .text) (i := 0) hs s.mem.pay hs (out := [])
        (Nat.zero_le _)
      rcases Nat.lt_or_ge (cap s.params .text)
        (([] : List Byte).length + ((Shape.node l r).decode (.node l r) (streamBits s.mem.pay)).length) with hlt | hle
      · rw [hover hlt]; trivial
      · obtain ⟨cur, hok⟩ := hfit hle
        rw [hok]
        exact h.commit .text (by simpa using hle)
    | leaf v =>
      cases hp : s.mem.pay with
      | nil => exact h.commit .text (Nat.zero_le _)
      | cons b bs =>
        rw [State.shape, ← hsize] at hs
        obtain ⟨n, hn, ⟨hl, -⟩ | ⟨-, l, r, he, -⟩⟩ := shapeAt_cases (f := 0) hs
        · rw [unpackFrom_leaf hn hl]; trivial
        · cases he

theorem tserStep_inv (h : s.Inv) : Answers State.Inv (tserStep s) := by
  unfold tserStep
  by_cases ht : s.vTree = .none
  · rw [requireTree_eq, if_pos ht]; trivial
  · rw [requireTree_eq, if_neg ht]
    obtain ⟨sh, hs, hsize⟩ := h.arena.shape ht
    obtain ⟨-, hcap⟩ := h.nodeCap_bounds
    have hle : ([] : List Byte).length + sh.size ≤ treebCap := by
      have := h.arena.fits
      simp only [List.length_nil, treebCap]; omega
    by_cases h0 : (0 : Byte) ∈ sh.leaves
    · obtain ⟨j, n, -, -, -, hnul⟩ := serialize_nul hs h0 hle
      rw [hnul]; trivial
    · rw [serialize_ok hs h0 hle]
      exact h.commit .treeb (by simpa [cap] using hle)

/-! ### TDES -/

/-- The pre-order arena of a tree, wherever it lies, is walked in order (46_tree_codec.md R105). -/
theorem preorder_arena {sh : Shape} {pre post : List Node} {f : Nat} (hf : sh.size ≤ f)
    (hw : pre.length + sh.size ≤ 2 ^ 16) :
    preorder (pre ++ sh.arena pre.length ++ post) f pre.length = some (List.range' pre.length sh.size) := by
  induction sh generalizing pre post f with
  | leaf v =>
    obtain ⟨f, rfl⟩ : ∃ g, f = g + 1 := ⟨f - 1, by simp only [Shape.size] at hf; omega⟩
    simp [preorder, Shape.arena, Shape.size]
  | node l r ihl ihr =>
    simp only [Shape.size] at hf hw
    have := l.size_pos; have := r.size_pos
    obtain ⟨f, rfl⟩ : ∃ g, f = g + 1 := ⟨f - 1, by omega⟩
    set n : Node := ⟨0, false, 0, BitVec.ofNat 16 (pre.length + 1), BitVec.ofNat 16 (pre.length + 1 + l.size)⟩ with hn
    have e : pre ++ (Shape.node l r).arena pre.length ++ post =
        pre ++ [n] ++ l.arena (pre.length + 1) ++ (r.arena (pre.length + 1 + l.size) ++ post) := by
      simp [Shape.arena, hn]
    have el := ihl (pre := pre ++ [n]) (post := r.arena (pre.length + 1 + l.size) ++ post) (f := f) (by omega)
      (by simp only [List.length_append, List.length_singleton]; omega)
    have er := ihr (pre := pre ++ [n] ++ l.arena (pre.length + 1)) (post := post) (f := f) (by omega)
      (by simp only [List.length_append, List.length_singleton, Shape.length_arena]; omega)
    simp only [List.length_append, List.length_singleton, Shape.length_arena] at el er
    have h1 : n.left.toNat = pre.length + 1 := by simp [hn]; omega
    have h2 : n.right.toNat = pre.length + 1 + l.size := by simp [hn]; omega
    rw [preorder_node (n := n) (by simp [Shape.arena, hn]) rfl (by rw [h1, e, el])
      (by rw [h2, e, ← List.append_assoc, er])]
    simp only [Shape.size, Option.some.injEq]
    rw [List.range'_append_1, ← List.range'_succ]
    congr 1; omega

/-- Every record of a pre-order arena has frequency 0, its unused fields 0, and the symbol of a leaf of the tree
(46_tree_codec.md R105). -/
theorem mem_arena {sh : Shape} {k : Nat} {n : Node} (h : n ∈ sh.arena k) :
    n.freq = 0 ∧ n.unusedZero = true ∧ (n.leaf = true → n.sym ∈ sh.leaves) := by
  induction sh generalizing k with
  | leaf v => cases List.mem_singleton.1 h; simp [Node.unusedZero, Shape.leaves]
  | node l r ihl ihr =>
    simp only [Shape.arena, List.mem_cons, List.mem_append] at h
    rcases h with rfl | h | h
    · simp [Node.unusedZero]
    · obtain ⟨h1, h2, h3⟩ := ihl h
      exact ⟨h1, h2, fun hl => List.mem_append_left _ (h3 hl)⟩
    · obtain ⟨h1, h2, h3⟩ := ihr h
      exact ⟨h1, h2, fun hl => List.mem_append_right _ (h3 hl)⟩

/-- The pre-order arena of a tree without a leaf of symbol 0 is a DESER arena (10_state.md R26). -/
theorem arenaInv_arena {sh : Shape} (h0 : (0 : Byte) ∉ sh.leaves) (hcap : sh.size ≤ s.params.nodeCap)
    (hcap' : s.params.nodeCap ≤ 65535) : ArenaInv (s.setTree (sh.arena 0) 0 .deser) where
  none := by simp
  tree _ := by
    have := preorder_arena (sh := sh) (pre := []) (post := []) le_rfl (by simp; omega)
    simp only [List.nil_append, List.append_nil, List.length_nil] at this
    simp [oneTree, this, List.range_eq_range', List.isPerm_iff]
  fits := by simpa using hcap
  unused n hn := (mem_arena hn).2.1
  builtSyms := by simp
  builtNodup := by simp
  builtFreq := by simp
  builtSum := by simp
  deserSyms _ n hn hl hz := h0 (hz ▸ (mem_arena hn).2.2 hl)
  deserFreq _ n hn := (mem_arena hn).1

theorem tdesStep_inv (h : s.Inv) : Answers State.Inv (tdesStep s) := by
  obtain ⟨-, hcap⟩ := h.nodeCap_bounds
  unfold tdesStep
  by_cases htree : ∃ (sh : Shape) (rest : List Byte), (0 : Byte) ∉ sh.leaves ∧ sh.size ≤ s.params.nodeCap ∧
      s.mem.treeb = sh.bytes ++ rest
  · obtain ⟨sh, rest, h0, hsize, hbytes⟩ := htree
    have hlen : sh.size ≤ s.mem.len .treeb + 1 := by
      simp only [Memory.len, Memory.get, hbytes, List.length_append, Shape.length_bytes]; omega
    rw [parse_ok (p := ⟨0, []⟩) hbytes h0 hlen (by simpa using hsize)]
    exact h.setTree (arenaInv_arena h0 hsize hcap)
  · rw [parse_fails (p := ⟨0, []⟩) rfl (Nat.zero_le _) (Nat.zero_le _) (by simp [Memory.len, Memory.get])]
    · trivial
    · intro sh rest h0 hsize hbytes
      exact htree ⟨sh, rest, h0, by simpa using hsize, hbytes⟩

/-! ### Every command, every host operation -/

theorem stepsOf_inv (i : Instr) : ∀ f ∈ stepsOf i, ∀ s : State, s.Inv → Answers State.Inv (f s) := by
  cases i with
  | nop | clr => simp [stepsOf]
  | pushT v | pushS v | pushP v | pushC v => simpa [stepsOf] using fun _ => pushStep_inv _ v
  | count => simpa [stepsOf] using fun _ => countStep_inv
  | build => simpa [stepsOf] using fun _ => buildStep_inv
  | gencode => simpa [stepsOf] using fun _ => gencodeStep_inv
  | pack => simpa [stepsOf] using fun _ => packStep_inv
  | unpack => simpa [stepsOf] using fun _ => unpackStep_inv
  | tser => simpa [stepsOf] using fun _ => tserStep_inv
  | tdes => simpa [stepsOf] using fun _ => tdesStep_inv
  | cenc => simpa [stepsOf] using fun _ => cencStep_inv
  | cdec => simpa [stepsOf] using fun _ => cdecStep_inv
  | compress =>
    simp only [stepsOf, compressSteps, List.forall_mem_cons]
    exact ⟨fun _ => countStep_inv, fun _ => buildStep_inv, fun _ => singleSymbolStep_inv, fun _ => gencodeStep_inv,
      fun _ => packStep_inv, fun _ => tserStep_inv, fun _ => cencStep_inv, by simp⟩
  | decompress =>
    simp only [stepsOf, decompressSteps, List.forall_mem_cons]
    exact ⟨fun _ => cdecStep_inv, fun _ => tdesStep_inv, fun _ => unpackStep_inv, by simp⟩

theorem exec_inv (i : Instr) (h : s.Inv) : ∃ t, exec i s = .next t ∧ t.Inv := by
  by_cases hi : i = .clr
  · subst hi
    exact ⟨s.clear, rfl, h.clear⟩
  · rw [exec_eq_runSteps hi]
    exact runSteps_inv (stepsOf_inv i) h

theorem issue_inv (w : CmdWord) (h : s.Inv) : ∃ t, issue w s = .next t ∧ t.Inv := by
  unfold issue
  split
  · exact ⟨s, rfl, h⟩
  · split
    · exact ⟨_, rfl, h.raiseError _⟩
    · exact exec_inv _ h

theorem hostStep_inv (op : HostOp) (h : s.Inv) : ∃ t, hostStep op s = .next t ∧ t.Inv := by
  cases op with
  | issue w => exact issue_inv w h
  | reset => exact ⟨_, rfl, h.clear⟩
  | _ => exact ⟨_, rfl, h.setReply _⟩

theorem step_inv (h : s.Inv) : ∃ t, step s = .next t ∧ t.Inv := by
  unfold step nextOp
  split
  · exact ⟨s, rfl, h⟩
  · exact hostStep_inv _ (h.setHost _)

/-! ### No counter overflows -/

/-- A counter of FREQ is below `2 ^ CNT_W` (00_scope.md R9 a). -/
theorem State.Inv.freq_lt (h : s.Inv) (k : Nat) (hk : k < 128) : s.freq[k] < 2 ^ s.params.cntW := by
  have hle : s.freq[k] ≤ s.freq.toList.sum := List.single_le_sum (by simp) _ (by simp)
  exact (hle.trans h.freq.total).trans_lt h.textCap_lt

/-- The frequency of a node is below `2 ^ CNT_W` (00_scope.md R9 b). -/
theorem State.Inv.node_freq_lt (h : s.Inv) {n : Node} (hn : n ∈ s.nodes) : n.freq < 2 ^ s.params.cntW := by
  cases ht : s.vTree with
  | none => simp [(h.arena.none ht).1] at hn
  | built => exact (h.arena.builtFreq ht n hn).2.trans_lt h.textCap_lt
  | deser => rw [h.arena.deserFreq ht n hn]; exact Nat.two_pow_pos _

end Sys2Proof.Machine

open Sys2Proof Sys2Proof.Machine

/-- Settles O59: every step of every command answers within the invariant or raises, and the invariant bounds every
count by TEXT_CAP. -/
theorem everyStepKeepsTheInvariant : Obligations.EveryStepKeepsTheInvariant := by
  intro s h
  obtain ⟨t, ht, hinv⟩ := step_inv h
  exact ⟨t, ht, hinv, hinv.freq_lt, fun _ => hinv.node_freq_lt⟩
end

section
/-! PROOFS. The decoder and the encoder are one table (30_encoding.md R43 to R46), and issuing the expansion of a
pseudo-instruction appends its bytes (R49). -/

namespace Sys2Proof.Machine

/-! ### Words as numbers -/

theorem toNat_immField (w : CmdWord) : (immField w).toNat = w.toNat % 256 := by
  simp [immField]

theorem toNat_formatC (op : BitVec 8) : (formatC op).toNat = op.toNat * 256 := by
  rw [formatC, BitVec.toNat_append, Nat.shiftLeft_eq]
  simp

theorem toNat_formatP (b : BitVec 2) (v : Byte) : (formatP b v).toNat = 0x1000 + b.toNat * 256 + v.toNat := by
  rw [formatP, BitVec.toNat_append, ← Nat.shiftLeft_add_eq_or_of_lt v.isLt, BitVec.toNat_append,
    ← Nat.shiftLeft_add_eq_or_of_lt b.isLt]
  simp only [Nat.shiftLeft_eq, BitVec.reduceAppend, BitVec.reduceToNat]
  omega

/-- The mask of format P keeps the opcode (30_encoding.md R43). -/
theorem toNat_and_opMask (w : CmdWord) : (w &&& (0xFF00 : CmdWord)).toNat = w.toNat / 256 * 256 := by
  have h : w &&& (0xFF00 : CmdWord) = w >>> 8 <<< 8 := by
    ext i hi
    interval_cases i <;> simp
  have := w.isLt
  rw [h, BitVec.toNat_shiftLeft, BitVec.toNat_ushiftRight, Nat.shiftRight_eq_div_pow, Nat.shiftLeft_eq]
  omega

/-- A format C row holds one word (30_encoding.md R44). -/
theorem matches_formatC (p : CmdWord) (c : Byte → Instr) (w : CmdWord) :
    (OpRow.mk p 0xFFFF c).matches w = true ↔ w.toNat = p.toNat := by
  have h : w &&& (0xFFFF : CmdWord) = w := BitVec.and_allOnes
  rw [OpRow.matches, beq_iff_eq, h, BitVec.toNat_inj]

/-- A format P row holds the words of its opcode (30_encoding.md R44). -/
theorem matches_formatP (p : CmdWord) (c : Byte → Instr) (w : CmdWord) :
    (OpRow.mk p 0xFF00 c).matches w = true ↔ w.toNat / 256 * 256 = p.toNat := by
  rw [OpRow.matches, beq_iff_eq, ← BitVec.toNat_inj, toNat_and_opMask]

/-! ### The rows -/

/-- Two rows differ in a bit both masks keep, so no word matches both (30_encoding.md R44). -/
theorem opRows_disjoint : opRows.Pairwise fun r r' => r.pattern &&& r'.mask ≠ r'.pattern &&& r.mask := by
  decide

theorem patterns_agree {r r' : OpRow} {w : CmdWord} (h : r.matches w = true) (h' : r'.matches w = true) :
    r.pattern &&& r'.mask = r'.pattern &&& r.mask := by
  rw [OpRow.matches, beq_iff_eq] at h h'
  rw [← h, ← h', BitVec.and_assoc, BitVec.and_assoc, BitVec.and_comm r.mask]

theorem decode_of_matches {r : OpRow} {w : CmdWord} (hr : r ∈ opRows) (h : r.matches w = true) :
    decode w = .ok (r.command (immField w)) := by
  obtain ⟨as, bs, hrows⟩ := List.append_of_mem hr
  have hfind : opRows.find? (·.matches w) = some r := by
    refine List.find?_eq_some_iff_append.2 ⟨h, as, bs, hrows, fun a ha => ?_⟩
    have hne := (List.pairwise_append.1 (hrows ▸ opRows_disjoint)).2.2 a ha r (by simp)
    simpa using fun h' => hne (patterns_agree h' h)
  rw [decode, hfind]

theorem decode_eq_ok {w : CmdWord} {i : Instr} (h : decode w = .ok i) :
    ∃ r ∈ opRows, r.matches w = true ∧ r.command (immField w) = i := by
  unfold decode at h
  split at h
  · next r hr => exact ⟨r, List.mem_of_find?_eq_some hr, by simpa using List.find?_some hr, Except.ok.inj h⟩
  · cases h

theorem decode_eq_error_iff (w : CmdWord) :
    (∃ e, decode w = .error e) ↔ ∀ r ∈ opRows, ¬ r.matches w = true := by
  constructor
  · rintro ⟨e, he⟩ r hr h
    rw [decode_of_matches hr h] at he
    cases he
  · intro h
    exact ⟨rejectOf w, by rw [decode, List.find?_eq_none.2 h]⟩

/-- A word a row holds is the encoding of the row's command with the word's low byte (30_encoding.md R43, R44). -/
theorem encode_of_matches {r : OpRow} {w : CmdWord} (hr : r ∈ opRows) (h : r.matches w = true) :
    encode (r.command (immField w)) = w := by
  apply BitVec.eq_of_toNat_eq
  revert r
  simp only [opRows, controlRows, entryRows, componentRows, pipelineRows, List.cons_append, List.nil_append,
    List.forall_mem_cons, matches_formatC, matches_formatP, encode, toNat_formatC, toNat_formatP, toNat_immField,
    BitVec.reduceToNat, List.not_mem_nil, false_implies, implies_true, and_true]
  omega

/-- The row of a command in `Laws.TableRow` is a row of the decoder, with the command's operand. -/
theorem exists_opRow (i : Instr) :
    ∃ r ∈ opRows, r.pattern = (Laws.TableRow.row i).1 ∧ r.mask = (Laws.TableRow.row i).2.1 ∧
      r.command (Laws.TableRow.row i).2.2 = i := by
  cases i <;> simp [opRows, controlRows, entryRows, componentRows, pipelineRows, Laws.TableRow.row]

open Laws.TableRow in
theorem encode_row : ∀ i : Instr, Statement i
  | .nop => nop
  | .clr => clr
  | .pushT v => pushT v
  | .pushS v => pushS v
  | .pushP v => pushP v
  | .pushC v => pushC v
  | .count => count
  | .build => build
  | .gencode => gencode
  | .pack => pack
  | .unpack => unpack
  | .tser => tser
  | .tdes => tdes
  | .cenc => cenc
  | .cdec => cdec
  | .compress => compress
  | .decompress => decompress

theorem decode_encode (i : Instr) : decode (encode i) = .ok i := by
  obtain ⟨r, hr, hp, hm, hc⟩ := exists_opRow i
  obtain ⟨hword, himm⟩ := encode_row i
  have h : r.matches (encode i) = true := by rw [OpRow.matches, hm, hword, hp, beq_self_eq_true]
  rw [decode_of_matches hr h, himm, hc]

theorem encode_of_decode {w : CmdWord} {i : Instr} (h : decode w = .ok i) : encode i = w := by
  obtain ⟨r, hr, hm, rfl⟩ := decode_eq_ok h
  exact encode_of_matches hr hm

theorem decode_eq_ok_iff {w : CmdWord} {i : Instr} : decode w = .ok i ↔ encode i = w :=
  ⟨encode_of_decode, fun h => h ▸ decode_encode i⟩

/-- The words no row holds, by opcode and low byte (30_encoding.md R46). -/
theorem no_row_matches_iff (w : CmdWord) :
    (∀ r ∈ opRows, ¬ r.matches w = true) ↔
      ((w.toNat / 256 = 0x00 ∨ w.toNat / 256 = 0x01 ∨ (0x20 ≤ w.toNat / 256 ∧ w.toNat / 256 ≤ 0x28) ∨
            w.toNat / 256 = 0x30 ∨ w.toNat / 256 = 0x31) ∧ w.toNat % 256 ≠ 0) ∨
        (0x02 ≤ w.toNat / 256 ∧ w.toNat / 256 ≤ 0x0F) ∨ (0x14 ≤ w.toNat / 256 ∧ w.toNat / 256 ≤ 0x1F) ∨
        (0x29 ≤ w.toNat / 256 ∧ w.toNat / 256 ≤ 0x2F) ∨ 0x32 ≤ w.toNat / 256 := by
  simp only [opRows, controlRows, entryRows, componentRows, pipelineRows, List.cons_append, List.nil_append,
    List.forall_mem_cons, matches_formatC, matches_formatP, BitVec.reduceToNat, List.not_mem_nil, false_implies,
    implies_true, and_true]
  omega

/-! ### Issuing commands -/

theorem step_issue_encode {s : State} (i : Instr) (ops : List HostOp) (herr : s.err = 0) :
    step (s.setHost (.issue (encode i) :: ops)) = exec i (s.setHost ops) := by
  have hrun : ¬ (s.err ≠ 0 ∧ encode i ≠ clrWord) := fun h => h.1 herr
  show issue (encode i) (s.setHost ops) = _
  rw [issue, State.setHost_err, if_neg hrun, decode_encode]

theorem exec_pushInstr (b : BufId) (v : Byte) (s : State) : exec (pushInstr b v) s = runSteps [pushStep b v] s := by
  cases b <;> rfl

theorem exec_pushInstr_of_ne_cap {b : BufId} {s : State} (h : s.mem.len b ≠ cap s.params b) (v : Byte) :
    exec (pushInstr b v) s = .next (s.commit b (s.mem.get b ++ [v])) := by
  obtain ⟨hfull, -⟩ | ⟨-, hok⟩ := pushStep_cases b v s
  · exact absurd hfull h
  · rw [exec_pushInstr, runSteps_cons_ok hok, runSteps]

theorem State.commit_commit (s : State) (b : BufId) (out out' : List Byte) :
    (s.commit b out).commit b out' = s.commit b out' := by
  simp [State.commit]

/-- An issued PUSH below the capacity appends its byte (40_control_and_host.md R64 to R67). -/
theorem step_issue_pushInstr {b : BufId} {s : State} (v : Byte) (ops : List HostOp) (herr : s.err = 0)
    (h : s.mem.len b ≠ cap s.params b) :
    step (s.setHost (.issue (encode (pushInstr b v)) :: ops)) =
      .next ((s.commit b (s.mem.get b ++ [v])).setHost ops) := by
  rw [step_issue_encode _ _ herr, exec_pushInstr_of_ne_cap (s := s.setHost ops) h]
  rfl

theorem run_core_succ {s t : State} (h : step s = .next t) (k : Nat) :
    Host.Core.run core (k + 1) s = Host.Core.run core k t := by
  have hcore : core.step s = .next t := h
  simp only [Host.Core.run, hcore]

/-- Issuing the PUSH commands of a byte sequence that fits appends it (30_encoding.md R49). -/
theorem run_issueAll_pushInstr (b : BufId) (ops : List HostOp) (vs : List Byte) {s : State} (herr : s.err = 0)
    (hfit : (s.mem.get b).length + vs.length ≤ cap s.params b) :
    Host.Core.run core vs.length (s.setHost (issueAll (vs.map (pushInstr b)) ++ ops)) =
      .next ((s.commit b (s.mem.get b ++ vs)).setHost ops) := by
  induction vs generalizing s with
  | nil =>
    rw [List.append_nil, State.commit, Memory.set_get]
    rfl
  | cons v vs ih =>
    rw [List.length_cons] at hfit
    have hroom : (s.mem.get b).length ≠ cap s.params b := by omega
    have hrest := ih (s := s.commit b (s.mem.get b ++ [v])) herr (by simp; omega)
    rw [State.commit_mem, Memory.get_set_same, List.append_assoc, State.commit_commit] at hrest
    exact (run_core_succ (step_issue_pushInstr v _ herr hroom) _).trans hrest

end Sys2Proof.Machine

open Sys2Proof Sys2Proof.Machine

/-- Settles O15: a word decodes to a command exactly when a row holds it, and the encoder writes that row's words. -/
theorem decodeAndEncodeAgree : Obligations.DecodeAndEncodeAgree :=
  ⟨fun i _ => decode_encode i, fun _ _ => encode_of_decode⟩

/-- Settles O8: the rejected words are those no row holds. -/
theorem reservedEncodingsAreRejected : Obligations.ReservedEncodingsAreRejected :=
  fun w => (decode_eq_error_iff w).trans (no_row_matches_iff w)

/-- Settles O16: each listed word is its command's encoding. -/
theorem specWordsDecodeAsListed : Obligations.SpecWordsDecodeAsListed := by
  simp only [Obligations.SpecWordsDecodeAsListed, decode_eq_ok_iff]
  decide

/-- Settles O17: both pseudo-instructions expand to one PUSH for each byte. -/
theorem pseudoInstructionsAppendTheirBytes : Obligations.PseudoInstructionsAppendTheirBytes := by
  intro s b vs ops herr hfit i hi _
  have hexpand : i.expand = vs.map (pushInstr b) := by
    simp only [List.mem_cons, List.not_mem_nil, or_false] at hi
    rcases hi with rfl | rfl <;> rfl
  rw [hexpand]
  exact run_issueAll_pushInstr b ops vs herr hfit
end

section
/-! PROOFS. The issue of a command word, the five read ports, and the control and data-entry commands
(40_control_and_host.md). -/

namespace Sys2Proof.Machine

variable (s : State)

/-! ### The issue of a word -/

theorem step_host_cons (op : HostOp) (ops : List HostOp) :
    step { s with host := op :: ops } = hostStep op (s.setHost ops) := rfl

variable {s} in
theorem issue_of_pending {w : CmdWord} (herr : s.err ≠ 0) (hw : w ≠ clrWord) : issue w s = .next s :=
  if_pos ⟨herr, hw⟩

variable {s} in
theorem issue_of_decode {w : CmdWord} {i : Instr} (hd : decode w = .ok i) (h : s.err = 0 ∨ w = clrWord) :
    issue w s = exec i s := by
  have hrun : ¬ (s.err ≠ 0 ∧ w ≠ clrWord) := fun ⟨herr, hw⟩ => h.elim herr hw
  rw [issue, if_neg hrun, hd]

/-! ### The read ports -/

theorem replyOf_eq_elim {α : Type} (value : α → PortReply) (o : Option α) : replyOf value o = o.elim .refused value := by
  cases o <;> rfl

/-- The fields of STATUS (10_state.md R22), each read back from the word. -/
theorem statusWord_err : (statusWord s).extractLsb' 0 8 = s.err :=
  BitVec.extractLsb'_append_eq_right

theorem statusWord_vFreq : (statusWord s).getLsbD 8 = s.vFreq := by
  simp only [statusWord, BitVec.getLsbD_append]
  simp

theorem statusWord_vCode : (statusWord s).getLsbD 9 = s.vCode := by
  simp only [statusWord, BitVec.getLsbD_append]
  simp

/-- Above ERR, V_FREQ and V_CODE stand V_TREE and the zeros. -/
theorem statusWord_above_vCode (i n : Nat) :
    (statusWord s).extractLsb' (i + 10) n = ((0 : BitVec 20) ++ s.vTree.bits).extractLsb' i n :=
  (BitVec.extractLsb'_append_eq_of_le (by omega)).trans <|
    (BitVec.extractLsb'_append_eq_of_le (by omega)).trans <| BitVec.extractLsb'_append_eq_of_le (by omega)

theorem statusWord_vTree : (statusWord s).extractLsb' 10 2 = s.vTree.bits :=
  (statusWord_above_vCode s 0 2).trans BitVec.extractLsb'_append_eq_right

theorem statusWord_high : (statusWord s).extractLsb' 12 20 = 0 :=
  (statusWord_above_vCode s 2 20).trans BitVec.extractLsb'_append_eq_left

theorem rdCsr_above {k : Nat} (h : 8 < k) : rdCsr s k = none := by
  obtain ⟨m, rfl⟩ := Nat.exists_eq_add_of_le' h
  rfl

theorem bufOfNat_above {b : Nat} (h : 3 < b) : bufOfNat b = none := by
  obtain ⟨m, rfl⟩ := Nat.exists_eq_add_of_le' h
  rfl

/-! ### Data entry -/

/-- Everything a PUSH can do (40_control_and_host.md section 3). -/
theorem exec_pushInstr_eq (b : BufId) (v : Byte) :
    exec (pushInstr b v) s =
      if s.mem.len b = cap s.params b then .next (s.raiseError (.bufferOverflow b))
      else .next (s.commit b (s.mem.get b ++ [v])) := by
  obtain ⟨hfull, hraise⟩ | ⟨hroom, -⟩ := pushStep_cases b v s
  · rw [if_pos hfull, exec_pushInstr, runSteps_cons_raise hraise]
  · rw [if_neg hroom, exec_pushInstr_of_ne_cap hroom]

/-- A format P word as its opcode byte over its operand (30_encoding.md R43). -/
theorem formatP_eq_or (b : BitVec 2) (v : Byte) :
    formatP b v = (0x1000 ||| b.setWidth 16 <<< 8) ||| v.setWidth 16 := by
  rw [formatP, BitVec.append_def, BitVec.append_def]
  simp [BitVec.shiftLeftZeroExtend_eq, BitVec.shiftLeft_or_distrib]

end Sys2Proof.Machine

open Sys2Proof Sys2Proof.Machine

/-- Settles O2: CLR answers the reset record with the model's own fields kept. -/
theorem clrClearsEverything : Obligations.ClrClearsEverything :=
  fun s => ⟨s.clear, exec_clr s, s.cleared_clear, s.clear_params, s.clear_host, s.clear_reply⟩

/-- Settles O6: with no error pending, or for CLR, the issue goes on to the decoder. -/
theorem stepRunsTheDecodedCommand : Obligations.StepRunsTheDecodedCommand := by
  intro s w i ops hd _ h
  rw [step_host_cons]
  exact issue_of_decode hd h

/-- Settles O9: the pending error is tested before the word is decoded. -/
theorem pendingErrorIgnoresEveryOtherWord : Obligations.PendingErrorIgnoresEveryOtherWord := by
  intro s w ops herr hw
  rw [step_host_cons]
  exact issue_of_pending herr hw

/-- Settles O11: a port's step writes the host's record of the answer alone. -/
theorem portReadsAnswerAndChangeNothing : Obligations.PortReadsAnswerAndChangeNothing := by
  intro s ops
  simp only [step_host_cons, ← replyOf_eq_elim]
  exact ⟨fun _ => rfl, fun _ _ => rfl, fun _ => rfl, fun _ => rfl, fun _ => rfl⟩

/-- Settles O12: the register map, and STATUS field by field. -/
theorem csrPortReadsTheNineRegisters : Obligations.CsrPortReadsTheNineRegisters := by
  intro s
  have tree {o : TreeOrigin} (h : s.vTree = o) : (statusWord s).extractLsb' 10 2 = o.bits := h ▸ statusWord_vTree s
  exact ⟨⟨statusWord s, rfl, statusWord_err s, statusWord_vFreq s, statusWord_vCode s, tree, tree, tree,
    statusWord_high s⟩, rfl, rfl, rfl, rfl, rfl, rfl, rfl, rfl, fun _ => rdCsr_above s⟩

/-- Settles O13: operands 0 to 3 name the four buffers, and no other operand names one. -/
theorem bufferPortReadsBelowTheLength : Obligations.BufferPortReadsBelowTheLength :=
  fun _ _ => ⟨rfl, rfl, rfl, rfl, fun _ hb => by rw [rdBuf, bufOfNat_above hb]⟩

/-- Settles O14: each port is its table's lookup under the table's valid flag. -/
theorem tablePortsNeedTheirValidFlag : Obligations.TablePortsNeedTheirValidFlag := by
  intro s
  refine ⟨fun k h hv => ?_, ?_, fun i h hv => ?_, ?_, fun k h hv => ?_, ?_⟩
  · rw [rdFreq, if_pos hv, Vector.getElem?_eq_getElem h]
  · rintro k (h | h) <;> simp [rdFreq, h]
  · rw [rdNode, if_neg hv, List.getElem?_eq_getElem h]
  · rintro i (h | h) <;> simp [rdNode, h]
  · rw [rdCode, if_pos hv, Vector.getElem?_eq_getElem h]
  · rintro k (h | h) <;> simp [rdCode, h]

/-- Settles O18: 0x0000 is NOP's encoding, and NOP runs no step. -/
theorem nopChangesNothing : Obligations.NopChangesNothing :=
  ⟨decode_encode .nop, fun _ => rfl⟩

/-- Settles O19: the four words are the format P words, and each PUSH is `Push(b, v)` on its buffer. -/
theorem pushAppendsTheByteOrOverflows : Obligations.PushAppendsTheByteOrOverflows := by
  constructor
  · intro v
    simp only [decode_eq_ok_iff]
    exact ⟨formatP_eq_or 0 v, formatP_eq_or 1 v, formatP_eq_or 2 v, formatP_eq_or 3 v⟩
  · intro s v
    have hcont : s.params.payCap + 65541 = cap s.params .cont := by simp only [cap, Params.contCap, treebCap]; omega
    rw [hcont]
    exact ⟨exec_pushInstr_eq s .text v, exec_pushInstr_eq s .treeb v, exec_pushInstr_eq s .pay v,
      exec_pushInstr_eq s .cont v⟩
end

section
/-! PROOFS. The Symbol Table: what COUNT does to the state, told by the tally of the text (41_symbol_table.md). -/

namespace Sys2Proof.Machine

/-! ### The tally of a text -/

/-- The table of the occurrences of every symbol in a text; `countFrom_empty` ties it to COUNT's loop. -/
def tallyOf (text : List Byte) : FreqTable := Vector.ofFn fun k => text.count (BitVec.ofNat 8 k)

theorem getElem_tallyOf (text : List Byte) {k : Nat} (hk : k < 128) :
    (tallyOf text)[k] = text.count (BitVec.ofNat 8 k) := by
  simp [tallyOf]

theorem tallyOf_perm {text text' : List Byte} (h : text.Perm text') : tallyOf text = tallyOf text' := by
  simp only [tallyOf, h.count_eq]

theorem tallyOf_toList (text : List Byte) :
    (tallyOf text).toList = (List.range 128).map fun k => text.count (BitVec.ofNat 8 k) := by
  rw [tallyOf, Vector.toList_ofFn, List.ofFn_eq_map, ← List.map_coe_finRange_eq_range, List.map_map]
  rfl

/-- COUNT's loop, started on the zeroed table, answers the tally (41_symbol_table.md R75). -/
theorem countFrom_empty {text : List Byte} (h : ∀ v ∈ text, v.toNat < 128) :
    countFrom text 0 (Vector.replicate 128 0) = .ok (tallyOf text) := by
  obtain ⟨f, hf, hcount⟩ := countFrom_ok text 0 (Vector.replicate 128 0) h
  have htally : f = tallyOf text := Vector.ext fun k hk => by simp [hcount k hk, getElem_tallyOf]
  rw [hf, htally]

/-- The counters of a 7-bit text add up to its length (41_symbol_table.md R77). -/
theorem sum_tallyOf {text : List Byte} (h : ∀ v ∈ text, v.toNat < 128) : (tallyOf text).toList.sum = text.length := by
  have hsum := countFrom_answers text 0 (Vector.replicate 128 0)
  rw [countFrom_empty h] at hsum
  simpa [Answers] using hsum

/-! ### The symbols present -/

theorem presentCount_tallyOf (text : List Byte) :
    presentCount (tallyOf text) = (List.range 128).countP fun k => decide (0 < text.count (BitVec.ofNat 8 k)) := by
  rw [presentCount, tallyOf_toList, List.countP_map]
  rfl

/-- The symbols present in a 7-bit text, ascending, are its bytes without repetition. -/
theorem present_perm_dedup {text : List Byte} (h : ∀ v ∈ text, v.toNat < 128) :
    (((List.range 128).filter fun k => decide (0 < text.count (BitVec.ofNat 8 k))).map (BitVec.ofNat 8)).Perm
      text.dedup := by
  have hinj : ∀ j < 128, ∀ k < 128, BitVec.ofNat 8 j = BitVec.ofNat 8 k → j = k := by
    intro j hj k hk hjk
    bv_omega
  have hlt : ∀ {p : Nat → Bool} {k : Nat}, k ∈ (List.range 128).filter p → k < 128 := fun hk =>
    List.mem_range.1 (List.mem_of_mem_filter hk)
  refine (List.perm_ext_iff_of_nodup ?_ (List.nodup_dedup text)).2 fun v => ?_
  · exact (List.nodup_range.filter _).map_on fun j hj k hk => hinj j (hlt hj) k (hlt hk)
  · simp only [List.mem_map, List.mem_filter, List.mem_range, decide_eq_true_eq, List.count_pos_iff, List.mem_dedup]
    constructor
    · rintro ⟨k, ⟨-, hk⟩, rfl⟩
      exact hk
    · intro hv
      have hofNat : BitVec.ofNat 8 v.toNat = v := by simp
      exact ⟨v.toNat, ⟨h v hv, hofNat.symm ▸ hv⟩, hofNat⟩

/-- NSYM is the number of distinct bytes of a 7-bit text (10_state.md R20). -/
theorem presentCount_tallyOf_eq_length_dedup {text : List Byte} (h : ∀ v ∈ text, v.toNat < 128) :
    presentCount (tallyOf text) = text.dedup.length := by
  rw [presentCount_tallyOf, List.countP_eq_length_filter, ← (present_perm_dedup h).length_eq, List.length_map]

theorem length_dedup_eq_one_iff (text : List Byte) :
    text.dedup.length = 1 ↔ ∃ v n, 0 < n ∧ text = List.replicate n v := by
  rw [List.length_eq_one_iff]
  constructor
  · rintro ⟨v, hv⟩
    have hmem : ∀ u, u ∈ text ↔ u = v := fun u => by rw [← List.mem_dedup, hv, List.mem_singleton]
    exact ⟨v, text.length, List.length_pos_of_mem ((hmem v).2 rfl),
      List.eq_replicate_iff.2 ⟨rfl, fun u hu => (hmem u).1 hu⟩⟩
  · rintro ⟨v, n, hn, rfl⟩
    exact ⟨v, List.replicate_dedup hn.ne'⟩

/-- NSYM's 8 bits hold the number of symbols present (10_state.md R20). -/
theorem ofNat_presentCount_eq_iff (f : FreqTable) {n : Nat} (hn : n < 256) :
    BitVec.ofNat 8 (presentCount f) = BitVec.ofNat 8 n ↔ presentCount f = n := by
  have hle := presentCount_le f
  constructor
  · intro h
    bv_omega
  · rintro rfl
    rfl

/-! ### COUNT as a command -/

theorem exec_count_of_sevenBit {s : State} (h : ∀ v ∈ s.mem.text, v.toNat < 128) :
    exec .count s =
      .next (s.setFreq (tallyOf s.mem.text) (BitVec.ofNat 8 (presentCount (tallyOf s.mem.text)))) := by
  have hstep : countStep s =
      .ok (s.setFreq (tallyOf s.mem.text) (BitVec.ofNat 8 (presentCount (tallyOf s.mem.text)))) := by
    rw [countStep, countFrom_empty h]
  exact runSteps_cons_ok hstep

theorem exec_count_of_highByte {s : State} {pre post : List Byte} {v : Byte} (htext : s.mem.text = pre ++ v :: post)
    (hpre : ∀ u ∈ pre, u.toNat < 128) (hv : 128 ≤ v.toNat) :
    exec .count s = .next (s.raiseError (.invalidSymbol pre.length)) := by
  have hstep : countStep s = .error (.raise (.invalidSymbol pre.length)) := by
    rw [countStep, htext, countFrom_high pre post v 0 _ hpre hv, Nat.zero_add]
  exact runSteps_cons_raise hstep

end Sys2Proof.Machine

open Sys2Proof Sys2Proof.Machine

/-- Settles O20: the committed table is the tally of the text. -/
theorem countTalliesTheText : Obligations.CountTalliesTheText := by
  intro s h
  refine ⟨tallyOf s.mem.text, ?_, fun k hk => getElem_tallyOf s.mem.text hk⟩
  rw [exec_count_of_sevenBit h, presentCount_tallyOf]
  rfl

/-- Settles O21: COUNT's loop stops at the first high byte with its offset, before any write. -/
theorem countRejectsTheFirstHighByte : Obligations.CountRejectsTheFirstHighByte :=
  fun _ _ _ _ => exec_count_of_highByte

/-- Settles O22: NSYM is the number of distinct bytes, and the tally depends on the text's multiset alone. -/
theorem countDependsOnTheMultiset : Obligations.CountDependsOnTheMultiset := by
  intro s h
  have hdistinct := presentCount_tallyOf_eq_length_dedup h
  refine ⟨_, exec_count_of_sevenBit h, sum_tallyOf h, ?_, ?_, fun s' t' hperm ht' => ?_⟩
  · refine (ofNat_presentCount_eq_iff _ (n := 0) (by decide)).trans ?_
    rw [hdistinct, List.length_eq_zero_iff, List.dedup_eq_nil]
  · refine (ofNat_presentCount_eq_iff _ (n := 1) (by decide)).trans ?_
    rw [hdistinct, length_dedup_eq_one_iff]
  · have h' : ∀ v ∈ s'.mem.text, v.toNat < 128 := fun v hv => h v (hperm.mem_iff.1 hv)
    rw [exec_count_of_sevenBit h', tallyOf_perm hperm] at ht'
    cases ht'
    exact ⟨rfl, rfl⟩
end

section
/-! PROOFS. The Tree Builder: `popMin` answers the smallest key (42_tree_builder.md R79), so that every merge of BUILD takes
the two smallest keys of its queue, and what R83 says of the arena follows from that. -/

namespace Sys2Proof.Machine

/-! ### The order of the keys -/

theorem PqEntry.before_iff (a b : PqEntry) :
    a.before b = true ↔ a.freq < b.freq ∨ (a.freq = b.freq ∧ a.idx < b.idx) := by
  simp [PqEntry.before]

theorem PqEntry.before_trans {a b c : PqEntry} (hab : a.before b = true) (hbc : b.before c = true) :
    a.before c = true := by
  rw [before_iff] at *
  omega

/-- Keys of distinct indices are comparable (42_tree_builder.md R79). -/
theorem PqEntry.before_of_not_before {a b : PqEntry} (hne : a.idx ≠ b.idx) (h : ¬ a.before b = true) :
    b.before a = true := by
  rw [before_iff] at *
  omega

/-- The popped entry comes before all that stay (42_tree_builder.md R79). -/
theorem popMin_before {k : PqEntry} {ks : List PqEntry} (hnd : ((k :: ks).map (·.idx)).Nodup) :
    ∀ x ∈ (popMin k ks).2, (popMin k ks).1.before x = true := by
  induction ks generalizing k with
  | nil => simp [popMin]
  | cons y ys ih =>
    have hperm := popMin_perm y ys
    obtain ⟨hk, hnd'⟩ := List.nodup_cons.1 hnd
    have hmin := ih hnd'
    simp only [popMin]
    split
    · next hlt =>
      intro x hx
      rcases List.mem_cons.1 (hperm.mem_iff.2 hx) with rfl | hx
      · exact hlt
      · exact PqEntry.before_trans hlt (hmin x hx)
    · next hlt =>
      intro x hx
      rcases List.mem_cons.1 hx with rfl | hx
      · have hmem : (popMin y ys).1 ∈ y :: ys := hperm.mem_iff.1 List.mem_cons_self
        exact PqEntry.before_of_not_before (fun hidx => hk (List.mem_map.2 ⟨_, hmem, hidx.symm⟩)) hlt
      · exact hmin x hx

/-! ### Keys and queue of an arena -/

theorem keyBefore_iff {ns : List Node} {i j : Nat} :
    keyBefore ns i j ↔
      ∃ a b, ns[i]? = some a ∧ ns[j]? = some b ∧ (a.freq < b.freq ∨ (a.freq = b.freq ∧ i < j)) := by
  unfold keyBefore
  cases ns[i]? <;> cases ns[j]? <;> simp

/-- The order of two entries is the order of the keys they root (42_tree_builder.md R79). -/
theorem PqEntry.Roots.keyBefore {ns : List Node} {a b : PqEntry} (ha : a.Roots ns) (hb : b.Roots ns)
    (h : a.before b = true) : keyBefore ns a.idx b.idx := by
  obtain ⟨m, hm, hma⟩ := ha.record
  obtain ⟨n, hn, hnb⟩ := hb.record
  rw [PqEntry.before_iff, ← hma, ← hnb] at h
  exact keyBefore_iff.2 ⟨m, n, hm, hn, h⟩

theorem getElem?_append_of_eq_some {α : Type} {l : List α} {i : Nat} {x : α} (h : l[i]? = some x) (l' : List α) :
    (l ++ l')[i]? = some x := by
  rw [List.getElem?_append_left (List.getElem?_eq_some_iff.1 h).1, h]

theorem keyBefore_append {ns : List Node} {i j : Nat} (h : keyBefore ns i j) (ms : List Node) :
    keyBefore (ns ++ ms) i j := by
  obtain ⟨a, b, ha, hb, hab⟩ := keyBefore_iff.1 h
  exact keyBefore_iff.2 ⟨a, b, getElem?_append_of_eq_some ha ms, getElem?_append_of_eq_some hb ms, hab⟩

theorem keyBefore_freq_le {ns : List Node} {i j : Nat} {a b : Node} (h : keyBefore ns i j) (ha : ns[i]? = some a)
    (hb : ns[j]? = some b) : a.freq ≤ b.freq := by
  obtain ⟨a', b', ha', hb', hab⟩ := keyBefore_iff.1 h
  cases ha.symm.trans ha'
  cases hb.symm.trans hb'
  omega

/-- Node `j` is internal and `i` is one of its children. -/
def IsParent (ns : List Node) (j i : Nat) : Prop :=
  ∃ p : Node, ns[j]? = some p ∧ p.leaf = false ∧ (p.left.toNat = i ∨ p.right.toNat = i)

theorem inQueue_iff {ns : List Node} {j i : Nat} : inQueue ns j i ↔ i < j ∧ ∀ m < j, ¬ IsParent ns m i := by
  simp only [inQueue, IsParent, not_exists, not_and, not_or, ne_eq]

/-- The queue at the creation of node `j` depends on the nodes below `j` only. -/
theorem inQueue_append {ns : List Node} {j i : Nat} (hj : j ≤ ns.length) (ms : List Node) :
    inQueue (ns ++ ms) j i ↔ inQueue ns j i := by
  unfold inQueue
  refine and_congr_right fun _ => forall₂_congr fun m hm => ?_
  rw [List.getElem?_append_left (by omega)]

/-- Children come before their parents (42_tree_builder.md R83 d). -/
def ChildrenFirst (ns : List Node) : Prop :=
  ∀ (j : Nat) (n : Node), ns[j]? = some n → n.leaf = false → n.left.toNat < j ∧ n.right.toNat < j

theorem ChildrenFirst.lt_of_isParent {ns : List Node} {j i : Nat} (h : ChildrenFirst ns) (hp : IsParent ns j i) :
    i < j := by
  obtain ⟨p, hp, hl, rfl | rfl⟩ := hp
  · exact (h j p hp hl).1
  · exact (h j p hp hl).2

/-- The merge at `j` takes its two children out of the queue and puts `j` into it (42_tree_builder.md R80). -/
theorem inQueue_succ_iff {ns : List Node} {j i : Nat} {n : Node} (hfirst : ChildrenFirst ns) (hn : ns[j]? = some n)
    (hl : n.leaf = false) :
    inQueue ns (j + 1) i ↔ (i = j ∨ inQueue ns j i) ∧ n.left.toNat ≠ i ∧ n.right.toNat ≠ i := by
  have hlast : ¬ IsParent ns j i ↔ n.left.toNat ≠ i ∧ n.right.toNat ≠ i := by simp [IsParent, hn, hl]
  rw [inQueue_iff, inQueue_iff, Nat.forall_lt_succ_right, hlast, ← and_assoc]
  refine and_congr_left fun _ => ⟨fun ⟨hi, hold⟩ => ?_, ?_⟩
  · exact (Nat.lt_succ_iff_lt_or_eq.1 hi).symm.imp_right fun hi => ⟨hi, hold⟩
  · rintro (rfl | ⟨hi, hold⟩)
    · exact ⟨Nat.lt_succ_self i, fun m hm hp => hm.asymm (hfirst.lt_of_isParent hp)⟩
    · exact ⟨Nat.lt_succ_of_lt hi, hold⟩

/-! ### The greedy arena -/

/-- Node `j` merges the two entries of the smallest keys of its queue, the smallest as its left child (42_tree_builder.md
R80). -/
def MergedAt (ns : List Node) (j : Nat) : Prop :=
  ∃ n a b : Node, ns[j]? = some n ∧ n.leaf = false ∧ n.sym = 0 ∧
    ns[n.left.toNat]? = some a ∧ ns[n.right.toNat]? = some b ∧ n.freq = a.freq + b.freq ∧
    inQueue ns j n.left.toNat ∧ inQueue ns j n.right.toNat ∧ n.left ≠ n.right ∧
    ∀ i, inQueue ns j i → i ≠ n.left.toNat →
      keyBefore ns n.left.toNat i ∧ (i ≠ n.right.toNat → keyBefore ns n.right.toNat i)

theorem MergedAt.append {ns : List Node} {j : Nat} (h : MergedAt ns j) (ms : List Node) : MergedAt (ns ++ ms) j := by
  obtain ⟨n, a, b, hn, hl, hs, ha, hb, hf, hql, hqr, hne, hmin⟩ := h
  have hj : j ≤ ns.length := (List.getElem?_eq_some_iff.1 hn).1.le
  refine ⟨n, a, b, getElem?_append_of_eq_some hn ms, hl, hs, getElem?_append_of_eq_some ha ms,
    getElem?_append_of_eq_some hb ms, hf, (inQueue_append hj ms).2 hql, (inQueue_append hj ms).2 hqr, hne,
    fun i hi hil => ?_⟩
  obtain ⟨hleft, hright⟩ := hmin i ((inQueue_append hj ms).1 hi) hil
  exact ⟨keyBefore_append hleft ms, fun hir => keyBefore_append (hright hir) ms⟩

/-- The first `n` nodes are leaves, and each further node is a greedy merge (42_tree_builder.md R83 a, b). -/
structure GreedyArena (n : Nat) (ns : List Node) : Prop where
  le : n ≤ ns.length
  leaves : ∀ (k : Nat) (p : Node), k < n → ns[k]? = some p → p.leaf = true
  merged : ∀ j, n ≤ j → j < ns.length → MergedAt ns j

section
variable {n : Nat} {ns : List Node}

/-- One more greedy merge. -/
theorem GreedyArena.append (h : GreedyArena n ns) {m : Node} (hm : MergedAt (ns ++ [m]) ns.length) :
    GreedyArena n (ns ++ [m]) where
  le := h.le.trans (by simp)
  leaves k p hk hp := by
    rw [List.getElem?_append_left (hk.trans_le h.le)] at hp
    exact h.leaves k p hk hp
  merged j hj hlt := by
    rw [List.length_append, List.length_singleton] at hlt
    rcases Nat.lt_succ_iff_lt_or_eq.1 hlt with hlt | rfl
    · exact (h.merged j hj hlt).append [m]
    · exact hm

variable (h : GreedyArena n ns) {i j j' : Nat} {p p' c : Node}
include h

/-- An internal node is a merge. -/
theorem GreedyArena.mergedAt (hp : ns[j]? = some p) (hl : p.leaf = false) : MergedAt ns j := by
  refine h.merged j (Nat.le_of_not_lt fun hj => ?_) (List.getElem?_eq_some_iff.1 hp).1
  rw [h.leaves j p hj hp] at hl
  cases hl

theorem GreedyArena.children_inQueue (hp : ns[j]? = some p) (hl : p.leaf = false) :
    inQueue ns j p.left.toNat ∧ inQueue ns j p.right.toNat := by
  obtain ⟨m, -, -, hm, -, -, -, -, -, hleft, hright, -⟩ := h.mergedAt hp hl
  cases hp.symm.trans hm
  exact ⟨hleft, hright⟩

theorem GreedyArena.childrenFirst : ChildrenFirst ns := fun _ _ hp hl =>
  ⟨(h.children_inQueue hp hl).1.1, (h.children_inQueue hp hl).2.1⟩

/-- After the merge at `j` every entry of the queue has at least half of its frequency: it is the merge itself, or its key
comes after both children's. -/
theorem GreedyArena.freq_le_two_mul (hp : ns[j]? = some p) (hl : p.leaf = false) (hi : inQueue ns (j + 1) i)
    (hc : ns[i]? = some c) : p.freq ≤ 2 * c.freq := by
  obtain ⟨m, a, b, hm, -, -, ha, hb, hsum, -, hqr, hne, hmin⟩ := h.mergedAt hp hl
  cases hp.symm.trans hm
  obtain ⟨rfl | hi, hil, hir⟩ := (inQueue_succ_iff h.childrenFirst hp hl).1 hi
  · cases hp.symm.trans hc
    omega
  · have hab : a.freq ≤ b.freq :=
      keyBefore_freq_le (hmin _ hqr fun e => hne (BitVec.eq_of_toNat_eq e.symm)).1 ha hb
    have hbc : b.freq ≤ c.freq := keyBefore_freq_le ((hmin i hi hil.symm).2 hir.symm) hb hc
    omega

/-- The merged frequencies never decrease (42_tree_builder.md R83 e). -/
theorem GreedyArena.freq_le_succ (hp : ns[j]? = some p) (hp' : ns[j + 1]? = some p') (hl : p.leaf = false)
    (hl' : p'.leaf = false) : p.freq ≤ p'.freq := by
  obtain ⟨m, a, b, hm, -, -, ha, hb, hsum, hleft, hright, -⟩ := h.mergedAt hp' hl'
  cases hp'.symm.trans hm
  have := h.freq_le_two_mul hp hl hleft ha
  have := h.freq_le_two_mul hp hl hright hb
  omega

theorem GreedyArena.inQueue_of_isParent (hp : IsParent ns j i) : inQueue ns j i := by
  obtain ⟨p, hp, hl, rfl | rfl⟩ := hp
  · exact (h.children_inQueue hp hl).1
  · exact (h.children_inQueue hp hl).2

/-- A node is the child of one node only: the first takes it out of the queue (42_tree_builder.md R83 g). -/
theorem GreedyArena.isParent_unique (hj : IsParent ns j i) (hj' : IsParent ns j' i) : j = j' := by
  rcases Nat.lt_trichotomy j j' with hlt | heq | hlt
  · exact absurd hj ((inQueue_iff.1 (h.inQueue_of_isParent hj')).2 j hlt)
  · exact heq
  · exact absurd hj' ((inQueue_iff.1 (h.inQueue_of_isParent hj)).2 j' hlt)

end

/-! ### The merge loop keeps the arena greedy -/

/-- The arena of BUILD over `n` leaves of `total` counts, while `q` is the queue: `q` holds the nodes that are no child
yet. -/
structure Greedy (n total : Nat) (ns : List Node) (q : List PqEntry) : Prop
    extends Forest total ns q, GreedyArena n ns where
  queue : ∀ i, i ∈ q.map (·.idx) ↔ inQueue ns ns.length i
  nodup : (q.map (·.idx)).Nodup

section
variable {n total : Nat} {ns : List Node} {q : List PqEntry}

/-- The order of the queue does not matter. -/
theorem Greedy.perm {q' : List PqEntry} (h : Greedy n total ns q) (hq : q'.Perm q) : Greedy n total ns q' where
  toForest := h.toForest.perm hq
  toGreedyArena := h.toGreedyArena
  queue i := (hq.map _).mem_iff.trans (h.queue i)
  nodup := (hq.map _).nodup_iff.2 h.nodup

theorem Greedy.mergedNode_children {a b : PqEntry} (h : Greedy n total ns (a :: b :: q)) (hw : ns.length < 2 ^ 16) :
    (mergedNode a b).left.toNat = a.idx ∧ (mergedNode a b).right.toNat = b.idx :=
  ⟨mergedNode_left ((h.roots a (by simp)).idx_lt.trans hw), mergedNode_right ((h.roots b (by simp)).idx_lt.trans hw)⟩

theorem Greedy.idx_distinct {a b : PqEntry} (h : Greedy n total ns (a :: b :: q)) :
    a.idx ≠ b.idx ∧ a.idx ∉ q.map (·.idx) ∧ b.idx ∉ q.map (·.idx) ∧ (q.map (·.idx)).Nodup := by
  have hnd := h.nodup
  rwa [List.map_cons, List.map_cons, List.nodup_cons, List.nodup_cons, List.mem_cons, not_or, and_assoc] at hnd

/-- The node appended for the two smallest keys is a greedy merge (42_tree_builder.md R80). -/
theorem Greedy.mergedAt_append {a b : PqEntry} (h : Greedy n total ns (a :: b :: q)) (hw : ns.length < 2 ^ 16)
    (ha : ∀ x ∈ b :: q, a.before x = true) (hb : ∀ x ∈ q, b.before x = true) :
    MergedAt (ns ++ [mergedNode a b]) ns.length := by
  have hra : a.Roots ns := h.roots a (by simp)
  have hrb : b.Roots ns := h.roots b (by simp)
  obtain ⟨hleft, hright⟩ := h.mergedNode_children hw
  obtain ⟨m, hm, hma⟩ := hra.record
  obtain ⟨p, hp, hpb⟩ := hrb.record
  refine ⟨mergedNode a b, m, p, by simp, rfl, rfl, ?_⟩
  simp only [inQueue_append le_rfl, ← h.queue, hleft, hright]
  refine ⟨getElem?_append_of_eq_some hm _, getElem?_append_of_eq_some hp _, by rw [hma, hpb]; rfl, by simp, by simp,
    fun e => h.idx_distinct.1 (by rw [← hleft, e, hright]), fun i hi hia => ?_⟩
  obtain ⟨x, hx, rfl⟩ := List.mem_map.1 hi
  have hrx : x.Roots ns := h.roots x hx
  have hxa : x ∈ b :: q := List.mem_of_ne_of_mem (fun e => hia (e ▸ rfl)) hx
  refine ⟨keyBefore_append (hra.keyBefore hrx (ha x hxa)) _, fun hib => ?_⟩
  have hxb : x ∈ q := List.mem_of_ne_of_mem (fun e => hib (e ▸ rfl)) hxa
  exact keyBefore_append (hrb.keyBefore hrx (hb x hxb)) _

/-- A merge of the two smallest keys keeps the arena greedy (42_tree_builder.md R80). -/
theorem Greedy.merge {a b : PqEntry} (h : Greedy n total ns (a :: b :: q)) (hw : ns.length < 2 ^ 16)
    (ha : ∀ x ∈ b :: q, a.before x = true) (hb : ∀ x ∈ q, b.before x = true) :
    Greedy n total (ns ++ [mergedNode a b]) (⟨a.freq + b.freq, ns.length⟩ :: q) := by
  have harena := h.toGreedyArena.append (h.mergedAt_append hw ha hb)
  obtain ⟨hleft, hright⟩ := h.mergedNode_children hw
  obtain ⟨-, haq, hbq, hq⟩ := h.idx_distinct
  have hlt : ∀ i ∈ (a :: b :: q).map (·.idx), i < ns.length := fun i hi => ((h.queue i).1 hi).1
  refine ⟨h.toForest.merge hw, harena, fun i => ?_, ?_⟩
  · rw [List.length_append, List.length_singleton,
      inQueue_succ_iff (n := mergedNode a b) harena.childrenFirst (by simp) rfl, hleft, hright, inQueue_append le_rfl,
      ← h.queue]
    simp only [List.map_cons, List.mem_cons, forall_eq_or_imp] at hlt ⊢
    obtain ⟨hla, hlb, -⟩ := hlt
    constructor
    · rintro (rfl | hi)
      · exact ⟨.inl rfl, hla.ne, hlb.ne⟩
      · exact ⟨.inr (.inr (.inr hi)), (ne_of_mem_of_not_mem hi haq).symm, (ne_of_mem_of_not_mem hi hbq).symm⟩
    · rintro ⟨hi | rfl | rfl | hi, hia, hib⟩
      · exact .inl hi
      · exact absurd rfl hia
      · exact absurd rfl hib
      · exact .inr hi
  · refine List.nodup_cons.2 ⟨fun hmem => ?_, hq⟩
    exact lt_irrefl _ (hlt _ (List.mem_cons_of_mem _ (List.mem_cons_of_mem _ hmem)))

/-- The merge loop ends with a greedy arena under one entry (42_tree_builder.md R80). -/
theorem mergeLoop_greedy {fuel : Nat} {k : PqEntry} {ks : List PqEntry} (h : Greedy n total ns (k :: ks))
    (hf : ks.length ≤ fuel) (hw : ns.length + ks.length < 2 ^ 16) :
    ∃ e, e.idx = (mergeLoop fuel ns k ks).2 ∧ Greedy n total (mergeLoop fuel ns k ks).1 [e] := by
  induction fuel generalizing ns k ks with
  | zero =>
    cases List.length_eq_zero_iff.1 (Nat.le_zero.1 hf)
    exact ⟨k, rfl, h⟩
  | succ fuel ih =>
    have hperm := popMin_perm k ks
    have hfirst := popMin_before h.nodup
    rw [mergeLoop]
    split
    · next a ha =>
      rw [ha] at hperm
      exact ⟨a, rfl, h.perm hperm⟩
    · next a x xs ha =>
      rw [ha] at hperm hfirst
      have hpop := h.perm hperm
      have hperm' := popMin_perm x xs
      have hmerge := (hpop.perm (hperm'.cons a)).merge (by omega) (fun y hy => hfirst y (hperm'.mem_iff.1 hy))
        (popMin_before (List.nodup_cons.1 hpop.nodup).2)
      have hlen := hperm.length_eq
      have hlen' := popMin_length x xs
      simp only [List.length_cons] at hlen
      exact ih hmerge (by omega) (by rw [List.length_append, List.length_singleton]; omega)

/-- In the end the one node that is no child is the last (42_tree_builder.md R83 c). -/
theorem Greedy.root_eq {e : PqEntry} (h : Greedy n total ns [e]) : e.idx = ns.length - 1 := by
  have hpos := (h.roots e (by simp)).idx_lt
  have hlast : inQueue ns ns.length (ns.length - 1) := by
    refine inQueue_iff.2 ⟨by omega, fun m hm hp => ?_⟩
    have := h.childrenFirst.lt_of_isParent hp
    omega
  exact (List.mem_singleton.1 ((h.queue _).2 hlast)).symm

/-- Every node but the last has a parent (42_tree_builder.md R83 g). -/
theorem Greedy.exists_isParent {e : PqEntry} (h : Greedy n total ns [e]) {i : Nat} (hi : i < ns.length - 1) :
    ∃ j, IsParent ns j i := by
  by_contra! hnone
  have hq : inQueue ns ns.length i := inQueue_iff.2 ⟨by omega, fun m _ => hnone m⟩
  rw [← h.queue, List.map_singleton, List.mem_singleton, h.root_eq] at hq
  omega

/-- The root holds the total (42_tree_builder.md R83 f). -/
theorem Greedy.root_freq {e : PqEntry} (h : Greedy n total ns [e]) {p : Node} (hp : ns[ns.length - 1]? = some p) :
    p.freq = total := by
  obtain ⟨m, hm, hme⟩ := (h.roots e (by simp)).record
  rw [h.root_eq, hp] at hm
  cases hm
  rw [hme]
  simpa using h.sum

end

/-! ### The leaves -/

/-- The leaves of a table given by its counters are those of the symbols present, ascending (42_tree_builder.md R80). -/
theorem leavesFrom_map_range' (g : Nat → Nat) (i k : Nat) :
    leavesFrom ((List.range' i k).map g) i =
      ((List.range' i k).filter fun y => decide (0 < g y)).map fun y => leafNode (g y) y := by
  induction k generalizing i with
  | zero => rfl
  | succ k ih =>
    rw [List.range'_succ, List.map_cons, leavesFrom, ih, List.filter_cons]
    by_cases h : 0 < g i <;> simp [h]

theorem leavesFrom_freq (f : FreqTable) :
    leavesFrom f.toList 0 = (presentSyms f).map fun y => leafNode (f[y]?.getD 0) y := by
  have htable : f.toList = (List.range' 0 128).map fun y => f[y]?.getD 0 := by
    refine List.ext_getElem (by simp) fun k hk _ => ?_
    have : k < 128 := by simpa using hk
    simp [this]
  rw [htable, leavesFrom_map_range', presentSyms, List.range_eq_range']

theorem length_presentSyms_le (f : FreqTable) : (presentSyms f).length ≤ 128 := by
  simpa [presentSyms] using List.length_filter_le (fun k => decide (0 < f[k]?.getD 0)) (List.range 128)

/-- The leaves alone, all of them in the queue, are a greedy arena. -/
theorem greedy_leavesFrom (l : List Nat) (hl : l.length ≤ 128) :
    Greedy (leavesFrom l 0).length l.sum (leavesFrom l 0) (seedFrom (leavesFrom l 0) 0) := by
  have hleaf : ∀ (k : Nat) (p : Node), (leavesFrom l 0)[k]? = some p → p.leaf = true := by
    intro k p hp
    obtain ⟨c, y, -, rfl⟩ := mem_leavesFrom (List.mem_of_getElem? hp)
    rfl
  refine ⟨forest_leavesFrom l hl, ⟨le_rfl, fun k p _ => hleaf k p, fun j hj hlt => by omega⟩, fun i => ?_, ?_⟩
  · rw [map_idx_seedFrom, ← List.range_eq_range', List.mem_range]
    refine ⟨fun hi => ⟨hi, fun m _ p hp hl => ?_⟩, fun hi => hi.1⟩
    rw [hleaf m p hp] at hl
    cases hl
  · rw [map_idx_seedFrom]
    exact List.nodup_range'

/-! ### BUILD as a command -/

variable {s : State}

theorem exec_build_of_noTable (hv : s.vFreq = false) : exec .build s = .next (s.raiseError (.sequence 1)) := by
  refine runSteps_cons_raise (f := buildStep) ?_
  rw [buildStep, requireFreq_eq, if_neg (by simp [hv])]

theorem exec_build_of_empty (hv : s.vFreq = true) (he : presentSyms s.freq = []) :
    exec .build s = .next (s.raiseError .emptyInput) := by
  refine runSteps_cons_raise (f := buildStep) ?_
  rw [buildStep, requireFreq_eq, if_pos hv, leavesFrom_freq, he]
  rfl

/-- On a table with an entry BUILD commits a greedy arena over the leaves of the symbols present, the last node as its
root (42_tree_builder.md R80, R83 c). -/
theorem exec_build_of_present (hv : s.vFreq = true) (hne : presentSyms s.freq ≠ []) :
    ∃ ns e, exec .build s = .next (s.setTree ns (ns.length - 1) .built) ∧
      ns.length = 2 * (presentSyms s.freq).length - 1 ∧
      (presentSyms s.freq).map (fun y => leafNode (s.freq[y]?.getD 0) y) <+: ns ∧
      Greedy (presentSyms s.freq).length s.freq.toList.sum ns [e] := by
  have hgreedy := greedy_leavesFrom s.freq.toList (by simp)
  have hle := length_presentSyms_le s.freq
  have hlen : (leavesFrom s.freq.toList 0).length = (presentSyms s.freq).length := by
    rw [leavesFrom_freq, List.length_map]
  have hseed := length_seedFrom (leavesFrom s.freq.toList 0) 0
  cases hq : seedFrom (leavesFrom s.freq.toList 0) 0 with
  | nil =>
    rw [hq, hlen] at hseed
    exact absurd (List.length_eq_zero_iff.1 hseed.symm) hne
  | cons k ks =>
    rw [hq, hlen, List.length_cons] at hseed
    rw [hq, hlen] at hgreedy
    obtain ⟨e, he, hend⟩ := mergeLoop_greedy hgreedy le_rfl (by omega)
    obtain ⟨hlen', hleaves⟩ := mergeLoop_length (ns := leavesFrom s.freq.toList 0) (k := k) (le_refl ks.length)
    refine ⟨_, e, ?_, by omega, leavesFrom_freq s.freq ▸ hleaves, hend⟩
    refine runSteps_cons_ok (f := buildStep) (fs := []) ?_
    rw [buildStep, requireFreq_eq, if_pos hv]
    simp only [hq, ← he, hend.root_eq]

end Sys2Proof.Machine

open Sys2Proof Sys2Proof.Machine

/-- Settles O23: the popped entry and the others are the queue rearranged, and `before` is the order of R79's keys. -/
theorem popMinTakesTheSmallestKey : Obligations.PopMinTakesTheSmallestKey := fun k ks hnd =>
  ⟨popMin_perm k ks, fun x hx => (PqEntry.before_iff _ x).1 (popMin_before hnd x hx)⟩

/-- Settles O25: the merge loop keeps the arena greedy. -/
theorem buildMergesTheTwoSmallest : Obligations.BuildMergesTheTwoSmallest := by
  intro s hv hne
  obtain ⟨ns, e, hexec, hlen, hleaves, hgreedy⟩ := exec_build_of_present hv hne
  refine ⟨ns, ?_, hlen, fun k y hk => ?_, fun j => hgreedy.merged j⟩
  · rw [hexec, hlen]
    rfl
  · have hleaf : ((presentSyms s.freq).map fun y => leafNode (s.freq[y]?.getD 0) y)[k]? =
        some (leafNode (s.freq[y]?.getD 0) y) := by rw [List.getElem?_map, hk]; rfl
    obtain ⟨ms, rfl⟩ := hleaves
    exact getElem?_append_of_eq_some hleaf ms

/-- Settles O26: all five parts hold of a greedy arena under one entry. -/
theorem buildOrdersTheArena : Obligations.BuildOrdersTheArena := by
  intro s hv hne
  obtain ⟨ns, e, hexec, hlen, -, hgreedy⟩ := exec_build_of_present hv hne
  have hle := length_presentSyms_le s.freq
  have hroot : (s.setTree ns (ns.length - 1) .built).root.toNat = ns.length - 1 := by
    rw [State.setTree_root, BitVec.toNat_ofNat]
    omega
  refine ⟨_, hexec, hgreedy.childrenFirst, fun j a b => hgreedy.freq_le_succ, fun n hn => ?_, fun i hi => ?_,
    fun j n hn hl => ?_⟩
  · rw [hroot] at hn
    exact hgreedy.root_freq hn
  · obtain ⟨j, hj⟩ := hgreedy.exists_isParent hi
    exact ⟨j, hj, fun j' hj' => hgreedy.isParent_unique hj' hj⟩
  · have hj := (List.getElem?_eq_some_iff.1 hn).1
    have := hgreedy.childrenFirst j n hn hl
    simp only [State.setTree_nodes] at hj ⊢
    omega

/-- Settles O24: the two premises BUILD checks before it writes. -/
theorem buildRefusesAMissingOrEmptyTable : Obligations.BuildRefusesAMissingOrEmptyTable := by
  refine fun s => ⟨exec_build_of_noTable, fun hv hzero => exec_build_of_empty hv ?_⟩
  refine List.filter_eq_nil_iff.2 fun k hk => ?_
  have hk' : k < 128 := List.mem_range.1 hk
  simp [hk', hzero k hk']

/-- Settles O27: an arena of `2 · 1 − 1` nodes is its one leaf. -/
theorem buildOfOneSymbolIsOneLeaf : Obligations.BuildOfOneSymbolIsOneLeaf := by
  intro s y n hv hone hn
  obtain ⟨ns, -, hexec, hlen, hleaves, -⟩ := exec_build_of_present hv (by simp [hone])
  rw [hone] at hlen hleaves
  rw [hexec, ← hleaves.eq_of_length (by simp [hlen]), List.map_singleton, hn]
  rfl
end

section
/-! PROOFS. The Code Table Generator: what GENCODE records for every byte, told by the paths of the tree
(43_code_table.md). -/

namespace Sys2Proof.Machine

/-! ### One entry of a table that is written -/

theorem entryOf_setIfInBounds_self (c : CodeTable) (e : CodeEntry) {v : Byte} (hv : v.toNat < 128) :
    entryOf (c.setIfInBounds v.toNat e) v = e := by
  simp [entryOf, hv]

theorem entryOf_setIfInBounds_of_ne (c : CodeTable) (e : CodeEntry) {u v : Byte} (h : u ≠ v) :
    entryOf (c.setIfInBounds u.toNat e) v = entryOf c v := by
  have hne : u.toNat ≠ v.toNat := fun h' => h (BitVec.eq_of_toNat_eq h')
  rw [entryOf, Vector.getElem?_setIfInBounds_ne hne, entryOf]

theorem entryOf_blank (v : Byte) : entryOf (Vector.replicate 128 CodeEntry.invalid) v = CodeEntry.invalid := by
  rw [entryOf, Vector.getElem?_replicate]
  split <;> rfl

/-- The table's entry at a symbol number is the entry of that byte. -/
theorem entryOf_ofNat (code : CodeTable) (a : Fin 128) : entryOf code (BitVec.ofNat 8 a) = code[a] := by
  have ha : (BitVec.ofNat 8 a).toNat = a := by rw [BitVec.toNat_ofNat]; omega
  rw [entryOf, ha]
  simp

/-! ### The code word of a path -/

/-- The 7-bit length field holds every length up to 127 (43_code_table.md R85; 10_state.md R17). -/
theorem codeWord_len (bits : List Bool) (hb : bits.length ≤ 127) :
    (codeWord (pathPattern 0 bits) bits.length).len.toNat = bits.length := by
  rw [← length_codeBits, codeBits_codeWord bits hb]

theorem codeWord_pat_lt (bits : List Bool) (hb : bits.length ≤ 127) :
    (codeWord (pathPattern 0 bits) bits.length).pat.toNat < 2 ^ bits.length := by
  have hok := codeWord_ok bits hb
  have hvalid : (codeWord (pathPattern 0 bits) bits.length).valid = true := rfl
  rw [CodeEntry.ok, if_pos hvalid, codeWord_len bits hb] at hok
  exact of_decide_eq_true hok

/-! ### The table of a list of paths -/

/-- The table `c` with the code word of every path written in order; `exec_gencode_of_shape` ties it to GENCODE. -/
def recordPaths (ps : List (Byte × List Bool)) (c : CodeTable) : CodeTable :=
  ps.foldl (fun c q => c.setIfInBounds q.1.toNat (codeWord (pathPattern 0 q.2) q.2.length)) c

theorem recordPaths_cons (q : Byte × List Bool) (ps : List (Byte × List Bool)) (c : CodeTable) :
    recordPaths (q :: ps) c =
      recordPaths ps (c.setIfInBounds q.1.toNat (codeWord (pathPattern 0 q.2) q.2.length)) := rfl

theorem entryOf_recordPaths_of_not_mem {ps : List (Byte × List Bool)} {v : Byte} (hv : v ∉ ps.map (·.1))
    (c : CodeTable) : entryOf (recordPaths ps c) v = entryOf c v := by
  induction ps generalizing c with
  | nil => rfl
  | cons q ps ih =>
    rw [List.map_cons, List.mem_cons, not_or] at hv
    rw [recordPaths_cons, ih hv.2, entryOf_setIfInBounds_of_ne c _ (Ne.symm hv.1)]

/-- Distinct symbols do not overwrite each other, so the order of the writes does not matter (43_code_table.md R85). -/
theorem entryOf_recordPaths_of_mem {ps : List (Byte × List Bool)} (hnd : (ps.map (·.1)).Nodup)
    {q : Byte × List Bool} (hq : q ∈ ps) (h7 : q.1.toNat < 128) (c : CodeTable) :
    entryOf (recordPaths ps c) q.1 = codeWord (pathPattern 0 q.2) q.2.length := by
  induction ps generalizing c with
  | nil => cases hq
  | cons p ps ih =>
    rw [List.map_cons, List.nodup_cons] at hnd
    rw [recordPaths_cons]
    rcases List.mem_cons.1 hq with rfl | hq
    · rw [entryOf_recordPaths_of_not_mem hnd.1, entryOf_setIfInBounds_self c _ h7]
    · exact ih hnd.2 hq _

/-! ### GENCODE as a command -/

variable {s : State}

theorem exec_gencode_of_shape (hb : s.vTree = .built) {sh : Shape} (hs : s.shape = some sh)
    (h7 : ∀ v ∈ sh.leaves, v.toNat < 128) :
    exec .gencode s = .next (s.setCode (recordPaths sh.paths (Vector.replicate 128 CodeEntry.invalid))) := by
  refine runSteps_cons_ok (f := gencodeStep) (fs := []) ?_
  rw [gencodeStep, requireBuilt_eq, if_pos hb]
  simp only [visit_ok hs h7, Nat.zero_add, recordPaths]

/-- The leaf symbols of a BUILT tree are 7-bit (10_state.md R26 e). -/
theorem ArenaInv.leaves_lt (h : ArenaInv s) (hb : s.vTree = .built) {sh : Shape} (hs : s.shape = some sh) {v : Byte}
    (hv : v ∈ sh.leaves) : v.toNat < 128 := by
  obtain ⟨n, hn, hl, rfl⟩ := shapeAt_leaf hs hv
  exact h.builtSyms hb n hn hl

/-- The leaf symbols of a BUILT tree are distinct (10_state.md R26 e). -/
theorem ArenaInv.leaves_nodup (h : ArenaInv s) (hb : s.vTree = .built) {sh : Shape} (hs : s.shape = some sh) :
    sh.leaves.Nodup :=
  (State.shape_leaves_perm (h.tree (by simp [hb])) hs).nodup_iff.2 (h.builtNodup hb)

/-- A code word that another begins with is that code word: both are paths of one tree (43_code_table.md R87 b). -/
theorem prefixFree_of_paths {sh : Shape} {code : CodeTable}
    (hpath : ∀ q ∈ sh.paths, codeBits (entryOf code q.1) = q.2)
    (hother : ∀ v : Byte, v ∉ sh.leaves → entryOf code v = CodeEntry.invalid) : prefixFree code := by
  have path_of_valid : ∀ a : Fin 128, code[a].valid = true → (BitVec.ofNat 8 a, codeBits code[a]) ∈ sh.paths := by
    intro a ha
    have hleaf : BitVec.ofNat 8 a ∈ sh.leaves := by
      by_contra hnot
      rw [← entryOf_ofNat, hother _ hnot] at ha
      cases ha
    rw [← sh.map_fst_paths] at hleaf
    obtain ⟨q, hq, hqa⟩ := List.mem_map.1 hleaf
    rw [← entryOf_ofNat, ← hqa, hpath q hq]
    exact hq
  intro a b ha hb hab hpre
  have heq := sh.paths_prefixFree _ (path_of_valid a ha) _ (path_of_valid b hb) hpre
  have hsym : BitVec.ofNat 8 a = BitVec.ofNat 8 b := congrArg Prod.fst heq
  exact hab (Fin.ext (by bv_omega))

end Sys2Proof.Machine

open Sys2Proof Sys2Proof.Machine

/-- Settles O29: the table is that of the tree's paths, whose symbols are distinct and whose lengths are at most 127. -/
theorem gencodeRecordsEveryPath : Obligations.GencodeRecordsEveryPath := by
  intro s h hb
  obtain ⟨sh, hs, -⟩ := h.arena.shape (by simp [hb])
  have h7 : ∀ v ∈ sh.leaves, v.toNat < 128 := fun v => h.arena.leaves_lt hb hs
  have h128 := h.arena.leaves_length_le hb hs
  have hnd := h.arena.leaves_nodup hb hs
  rw [← sh.map_fst_paths] at hnd
  refine ⟨sh, _, hs, exec_gencode_of_shape hb hs h7, fun q hq => ?_, fun v hv => ?_⟩
  · have hleaf : q.1 ∈ sh.leaves := sh.map_fst_paths ▸ List.mem_map_of_mem hq
    have hlen : q.2.length ≤ 127 := by have := sh.path_length_lt q hq; omega
    rw [entryOf_recordPaths_of_mem hnd hq (h7 _ hleaf)]
    exact ⟨rfl, codeWord_len _ hlen, codeBits_codeWord _ hlen, codeWord_pat_lt _ hlen⟩
  · rw [← sh.map_fst_paths] at hv
    rw [entryOf_recordPaths_of_not_mem hv, entryOf_blank]
    rfl

/-- Settles O30: the code words are the paths of one tree (O29), and no path of a tree begins with another. -/
theorem generatedCodesArePrefixFree : Obligations.GeneratedCodesArePrefixFree := by
  intro s h hb
  obtain ⟨sh, c, -, hexec, hpath, hother⟩ := gencodeRecordsEveryPath s h hb
  refine ⟨_, hexec, prefixFree_of_paths (fun q hq => ?_) hother⟩
  obtain ⟨-, -, hbits, -⟩ := hpath q hq
  exact hbits
end

section
/-! PROOFS. The Bit Packer: what PACK commits, as the bit stream of the text completed with zero bits
(44_bit_packer.md). -/

namespace Sys2Proof.Machine

/-! ### Bit streams and their lengths -/

/-- A stream position read through the list of bits; beyond the payload it reads 0. -/
theorem streamBit_eq_getD (bs : List Byte) (q : Nat) : streamBit bs q = (streamBits bs)[q]?.getD false := by
  rcases Nat.lt_or_ge q (8 * bs.length) with hq | hq
  · rw [getElem?_streamBits bs q hq, Option.getD_some]
  · rw [streamBit_out bs q hq, List.getElem?_eq_none (by simpa using hq), Option.getD_none]

/-- The bit stream of a text is as long as its code words together. -/
theorem length_textBits (code : CodeTable) (text : List Byte) :
    (textBits code text).length = (text.map (fun v => (entryOf code v).len.toNat)).sum := by
  simp only [textBits, List.length_flatMap, length_codeBits]

/-- Code words of at most 8 bits take at most one byte each (44_bit_packer.md R93). -/
theorem length_textBits_le {code : CodeTable} {text : List Byte}
    (h : ∀ v ∈ text, (entryOf code v).len.toNat ≤ 8) : (textBits code text).length ≤ 8 * text.length := by
  have hsum := List.sum_le_card_nsmul (text.map (fun v => (entryOf code v).len.toNat)) 8 (by simpa using h)
  rw [List.length_map, smul_eq_mul] at hsum
  rw [length_textBits]
  omega

/-! ### PACK's last byte and PACK as a step -/

/-- Where the last byte fits, `padLast` completes the bits held with zero bits (44_bit_packer.md R92). -/
theorem padLast_ok {capacity : Nat} {p : PackState} (hp : p.nbits < 8) (hc : (p.bits.length + 7) / 8 ≤ capacity) :
    ∃ out, padLast capacity p = .ok out ∧
      streamBits out = p.bits ++ List.replicate (padCount p.bits.length) false := by
  rw [p.length_bits] at hc ⊢
  by_cases h0 : 0 < p.nbits
  · have hpad : padCount (8 * p.out.length + p.nbits) = 8 - p.nbits := by rw [padCount]; omega
    refine ⟨_, by rw [padLast, if_pos h0, emit_ok (by omega)], ?_⟩
    rw [hpad, streamBits_append, streamBits_cons, streamBits_nil, List.append_nil, bitsMsb_last _ _ hp.le,
      PackState.bits, List.append_assoc]
  · have h0' : p.nbits = 0 := by omega
    have hpad : padCount (8 * p.out.length + p.nbits) = 0 := by rw [padCount]; omega
    refine ⟨_, by rw [padLast, if_neg h0], ?_⟩
    rw [hpad, PackState.bits, h0']
    simp [lowBits]

/-- PACK where the payload fits: it commits the bit stream of the text completed with zero bits (44_bit_packer.md R93;
30_encoding.md R52). -/
theorem packStep_of_fits {s : State} (hv : s.vCode = true) (hok : ∀ e ∈ s.code.toList, e.ok = true)
    (ht : packable s.code s.mem.text) (hfit : ((textBits s.code s.mem.text).length + 7) / 8 ≤ s.params.payCap) :
    ∃ out, packStep s = .ok (s.commit .pay out) ∧
      streamBits out =
        textBits s.code s.mem.text ++ List.replicate (padCount (textBits s.code s.mem.text).length) false := by
  have hstart : PackState.bits ⟨0, 0, []⟩ = [] := rfl
  have hspec := packFrom_spec (capacity := cap s.params .pay) s.mem.text (i := 0) (p := ⟨0, 0, []⟩) hok ht
    (by decide) (Nat.zero_le _)
  rw [hstart, List.nil_append] at hspec
  have hcap : cap s.params .pay = s.params.payCap := rfl
  rcases hspec with ⟨-, p, hpack, hbits, hnbits, -⟩ | ⟨hover, -⟩
  · obtain ⟨out, hlast, hout⟩ := padLast_ok (capacity := cap s.params .pay) hnbits (by rw [hbits]; exact hfit)
    refine ⟨out, ?_, by rw [hout, hbits]⟩
    rw [packStep, requireCode_eq, if_pos hv]
    simp only [hpack, hlast]
  · omega

end Sys2Proof.Machine

open Sys2Proof Sys2Proof.Machine

/-- Settles O31: the committed payload's bits are the text's bit stream and its padding. -/
theorem packWritesTheBitStream : Obligations.PackWritesTheBitStream := by
  intro s hv hok ht hfit
  simp only [← length_textBits] at hfit ⊢
  obtain ⟨out, hstep, hout⟩ := packStep_of_fits hv hok ht hfit
  have hlen : out.length = ((textBits s.code s.mem.text).length + 7) / 8 := by
    have hbits := congrArg List.length hout
    rw [length_streamBits, List.length_append, List.length_replicate, padCount] at hbits
    omega
  refine ⟨out, runSteps_cons_ok hstep, hlen, fun q b hq => ?_, fun q hq => ?_, fun h8 => ?_⟩
  · rw [streamBit_eq_getD, hout, List.getElem?_append_left (List.getElem?_eq_some_iff.1 hq).1, hq, Option.getD_some]
  · rw [streamBit_eq_getD, hout, List.getElem?_append_right hq, List.getElem?_replicate]
    split <;> rfl
  · have := length_textBits_le h8
    omega
end

section
/-! PROOFS. The Bit Unpacker: what UNPACK commits, told by what the payload decodes to under the tree's shape
(45_bit_unpacker.md). -/

namespace Sys2Proof.Machine

variable {s : State}

/-! ### A tree whose root is internal -/

section
variable {l r : Shape} (ht : s.vTree ≠ .none) (hs : s.shape = some (.node l r))
include ht hs

/-- UNPACK where the symbols fit: it commits what the whole stream decodes to (45_bit_unpacker.md R96, R99). -/
theorem unpackStep_of_fits
    (hfit : ((Shape.node l r).decode (.node l r) (streamBits s.mem.pay)).length ≤ s.params.textCap) :
    unpackStep s = .ok (s.commit .text ((Shape.node l r).decode (.node l r) (streamBits s.mem.pay))) := by
  obtain ⟨cur, hok⟩ := (unpackFrom_spec (capacity := cap s.params .text) (i := 0) hs s.mem.pay hs (out := [])
    (Nat.zero_le _)).1 (by simpa [cap] using hfit)
  rw [unpackStep, requireTree_eq, if_neg ht]
  simp only [hok, List.nil_append]

/-- UNPACK where the symbols exceed TEXT_CAP (60_exceptions.md R132). -/
theorem unpackStep_of_overflow
    (hover : s.params.textCap < ((Shape.node l r).decode (.node l r) (streamBits s.mem.pay)).length) :
    unpackStep s = .error (.raise (.bufferOverflow .text)) := by
  have herror := (unpackFrom_spec (capacity := cap s.params .text) (i := 0) hs s.mem.pay hs (out := [])
    (Nat.zero_le _)).2 (by simpa [cap] using hover)
  rw [unpackStep, requireTree_eq, if_neg ht]
  simp only [herror]

end

/-! ### A tree of one leaf -/

section
variable (ht : s.vTree ≠ .none)
include ht

/-- No payload is no bit, whatever the tree (45_bit_unpacker.md R97). -/
theorem unpackStep_of_empty (hp : s.mem.pay = []) : unpackStep s = .ok (s.commit .text []) := by
  rw [unpackStep, requireTree_eq, if_neg ht, hp]
  rfl

/-- A leaf has no child to move to: the first bit is an error at offset 0 (45_bit_unpacker.md R97). -/
theorem unpackStep_of_leaf {n : Node} (hn : s.nodes[s.root.toNat]? = some n) (hl : n.leaf = true)
    (hp : s.mem.pay ≠ []) : unpackStep s = .error (.raise (.degenerateTree 0)) := by
  obtain ⟨v, vs, hv⟩ := List.exists_cons_of_ne_nil hp
  rw [unpackStep, requireTree_eq, if_neg ht, hv]
  simp only [unpackFrom_leaf hn hl]

end

/-! ### Code words and padding -/

/-- A stream of code words and `p` zero bits decodes to their symbols and `floor(p / k)` copies of the leftmost leaf's
symbol (45_bit_unpacker.md R100). -/
theorem Shape.decode_text_zeros {l r : Shape} {text : List (Byte × List Bool)}
    (h : ∀ q ∈ text, q ∈ (Shape.node l r).paths) (p : Nat) :
    (Shape.node l r).decode (.node l r) (text.flatMap (·.2) ++ List.replicate p false) =
      text.map (·.1) ++ List.replicate (p / (Shape.node l r).leftDepth) (Shape.node l r).leftmost := by
  rw [decode_text text h, decode_zeros]

end Sys2Proof.Machine

open Sys2Proof Sys2Proof.Machine

/-- Settles O34: both sides of TEXT_CAP, under the shape the invariant gives. -/
theorem unpackDecodesEveryBit : Obligations.UnpackDecodesEveryBit := by
  intro s h ht
  obtain ⟨sh, hs, -⟩ := h.arena.shape ht
  refine ⟨sh, hs, ?_⟩
  rintro ⟨l, r, rfl⟩
  exact ⟨fun hfit => runSteps_cons_ok (unpackStep_of_fits ht hs hfit),
    fun hover => runSteps_cons_raise (unpackStep_of_overflow ht hs hover)⟩

/-- Settles O35: without a payload no bit is read, and the first bit meets the leaf. -/
theorem unpackOfTheDegenerateTree : Obligations.UnpackOfTheDegenerateTree := fun _ _ ht hn hl =>
  ⟨fun hp => runSteps_cons_ok (unpackStep_of_empty ht hp),
    fun hp => runSteps_cons_raise (unpackStep_of_leaf ht hn hl hp)⟩

/-- Settles O36: the stream's code words and then its zeros are decoded. -/
theorem paddingDecodesToPhantomSymbols : Obligations.PaddingDecodesToPhantomSymbols := by
  intro s l r text p _ ht hs htext hbits hfit
  have hdecode := Shape.decode_text_zeros htext p
  rw [← hbits] at hdecode
  have hok := unpackStep_of_fits ht hs (by simpa [hdecode] using hfit)
  rw [hdecode] at hok
  exact runSteps_cons_ok hok
end

section
/-! PROOFS. The steps of COMPRESS and DECOMPRESS where each commits: TSER and CENC, then CDEC, TDES and UNPACK
(46_tree_codec.md, 47_container.md, 48_pipeline.md). -/

namespace Sys2Proof.Machine

variable {s : State}

/-! ### Running the next step -/

/-- A first command that leaves no error is followed by the rest (48_pipeline.md R117). -/
theorem runSteps_cons_of_next {f : CmdStep} {fs : List CmdStep} {t : State} (h : runSteps [f] s = .next t)
    (ht : t.err = 0) : runSteps (f :: fs) s = runSteps fs t := by
  rcases runSteps_one h with hok | ⟨e, -, rfl⟩
  · exact runSteps_cons_ok hok
  · exact absurd ht e.code_bounds.1

/-- What the parameter constraints give the pipeline: a payload's length fits the container's header, and the arena
holds a tree of 128 leaves (00_scope.md R6). -/
theorem Params.bounds_of_legal {p : Params} (h : p.legal = true) : p.payCap < 2 ^ 32 ∧ 255 ≤ p.nodeCap := by
  simp only [Params.legal, Params.payCapOk, Params.nodeCapOk, Bool.and_eq_true, decide_eq_true_eq] at h
  omega

/-! ### The tree codec -/

/-- TSER of a tree without a leaf of symbol 0 commits its pre-order bytes (46_tree_codec.md R102). -/
theorem tserStep_of_shape {sh : Shape} (ht : s.vTree ≠ .none) (hs : s.shape = some sh) (h0 : (0 : Byte) ∉ sh.leaves)
    (hsize : sh.size ≤ treebCap) : tserStep s = .ok (s.commit .treeb sh.bytes) := by
  have hok := serialize_ok (out := []) hs h0 (by simpa using hsize)
  rw [tserStep, requireTree_eq, if_neg ht]
  simp only [hok, List.nil_append]

/-- TDES of a tree that fits the arena commits its pre-order arena, whatever follows the tree (46_tree_codec.md R105,
R108). -/
theorem tdesStep_of_tree {sh : Shape} {rest : List Byte} (hb : s.mem.treeb = sh.bytes ++ rest)
    (h0 : (0 : Byte) ∉ sh.leaves) (hsize : sh.size ≤ s.params.nodeCap) :
    tdesStep s = .ok (s.setTree (sh.arena 0) 0 .deser) := by
  have hfuel : sh.size ≤ s.mem.len .treeb + 1 := by
    simp only [Memory.len, Memory.get_treeb, hb, List.length_append, Shape.length_bytes]
    omega
  have hok := parse_ok (p := ⟨0, []⟩) hb h0 hfuel (by simpa using hsize)
  rw [tdesStep]
  simp only [hok, List.length_nil, List.nil_append]

/-- The arena TDES commits holds the tree (46_tree_codec.md R105). -/
theorem State.shape_setTree_arena (s : State) {sh : Shape} (hsize : sh.size ≤ 2 ^ 16) (o : TreeOrigin) :
    (s.setTree (sh.arena 0) 0 o).shape = some sh := by
  have hat := shapeAt_arena (sh := sh) (pre := []) (post := []) le_rfl (by simpa using hsize)
  simpa [State.shape] using hat

/-! ### The container -/

/-- CENC where both buffers are within their capacities (47_container.md R110, R111). -/
theorem cencStep_of_fits (ht : s.mem.treeb.length ≤ treebCap) (hp : s.mem.pay.length ≤ s.params.payCap) :
    cencStep s =
      .ok (s.commit .cont (headerBytes s.mem.treeb.length s.mem.pay.length ++ s.mem.treeb ++ s.mem.pay)) := by
  have hfit : ([] : List Byte).length + (headerBytes s.mem.treeb.length s.mem.pay.length ++ s.mem.treeb ++
      s.mem.pay).length ≤ cap s.params .cont := by
    simp only [headerBytes, List.length_append, List.length_cons, List.length_nil, cap, Params.contCap]
    omega
  rw [cencStep]
  simp only [containerHeader_eq, Memory.len, Memory.get_treeb, Memory.get_pay, emitAll_ok _ hfit, List.nil_append]

/-- CDEC of a container splits it into its two sections, whatever follows them (47_container.md R112, R114). -/
theorem cdecStep_of_container {tree payload extra : List Byte} (ht : tree.length < 2 ^ 16)
    (hp : payload.length < 2 ^ 32) (hcap : payload.length ≤ s.params.payCap)
    (hc : s.mem.cont = headerBytes tree.length payload.length ++ tree ++ payload ++ extra) :
    cdecStep s = .ok ((s.commit .treeb tree).commit .pay payload) := by
  have hsplit : s.mem.cont = headerBytes tree.length payload.length ++ (tree ++ (payload ++ extra)) := by simp [hc]
  have hlen : s.mem.cont.length = 6 + (tree.length + (payload.length + extra.length)) := by
    simp only [hsplit, headerBytes, List.length_append, List.length_cons, List.length_nil]
  have htl : bigEndian ((s.mem.cont.drop 0).take 2) = tree.length := by
    rw [hsplit]
    exact bigEndian_two ht
  have hpl : bigEndian ((s.mem.cont.drop 2).take 4) = payload.length := by
    rw [hsplit]
    exact bigEndian_four hp
  have htree : (s.mem.cont.drop 6).take tree.length = tree := by
    rw [hsplit, List.drop_left' (by rfl), List.take_left' rfl]
  have hpay : (s.mem.cont.drop (6 + tree.length)).take payload.length = payload := by
    rw [← List.drop_drop, hsplit, List.drop_left' (by rfl), List.drop_left' rfl, List.take_left' rfl]
  have hlong : ¬ s.mem.len .cont < 6 := by simp [Memory.len, hlen]
  rw [cdecStep, if_neg hlong, memRead_ok (by omega), memRead_ok (by omega), htl, hpl]
  simp only [splitContainer, Memory.len, Memory.get_cont, hlen, htree, hpay]
  rw [if_neg (by omega), if_neg (by omega), if_neg (by omega)]

/-! ### DECOMPRESS -/

/-- DECOMPRESS of a container whose tree has an internal root and whose symbols fit TEXT (48_pipeline.md R119). -/
theorem exec_decompress_of_container {l r : Shape} {after payload extra : List Byte} (hlegal : s.params.legal = true)
    (h0 : (0 : Byte) ∉ (Shape.node l r).leaves) (hsize : (Shape.node l r).size ≤ s.params.nodeCap)
    (htree : ((Shape.node l r).bytes ++ after).length < 2 ^ 16) (hcap : payload.length ≤ s.params.payCap)
    (hc : s.mem.cont =
      headerBytes ((Shape.node l r).bytes ++ after).length payload.length ++ ((Shape.node l r).bytes ++ after) ++
        payload ++ extra)
    (hfit : ((Shape.node l r).decode (.node l r) (streamBits payload)).length ≤ s.params.textCap) :
    exec .decompress s =
      .next ((((s.commit .treeb ((Shape.node l r).bytes ++ after)).commit .pay payload).setTree
        ((Shape.node l r).arena 0) 0 .deser).commit .text
          ((Shape.node l r).decode (.node l r) (streamBits payload))) := by
  have hpay : payload.length < 2 ^ 32 := hcap.trans_lt (Params.bounds_of_legal hlegal).1
  have h16 : (Shape.node l r).size ≤ 2 ^ 16 := by
    rw [List.length_append, Shape.length_bytes] at htree
    omega
  have hcdec := cdecStep_of_container htree hpay hcap hc
  have htdes := tdesStep_of_tree (s := (s.commit .treeb ((Shape.node l r).bytes ++ after)).commit .pay payload)
    (rest := after) rfl h0 hsize
  have hunpack := unpackStep_of_fits (by simp) (State.shape_setTree_arena
    ((s.commit .treeb ((Shape.node l r).bytes ++ after)).commit .pay payload) h16 .deser) (by simpa using hfit)
  exact (runSteps_cons_ok hcdec).trans ((runSteps_cons_ok htdes).trans (runSteps_cons_ok hunpack))

end Sys2Proof.Machine
end

section
/-! PROOFS. COMPRESS up to its PACK step: the tree BUILD makes of the text and the table GENCODE makes of that tree
(48_pipeline.md R116). -/

namespace Sys2Proof.Machine

variable {s : State}

/-! ### The tree of BUILD -/

/-- The leaf records of a greedy arena are the `n` it begins with (42_tree_builder.md R80). -/
theorem GreedyArena.filter_leaf {n : Nat} {ns pre : List Node} (h : GreedyArena n ns) (hpre : pre <+: ns)
    (hn : pre.length = n) : ns.filter (·.leaf) = pre := by
  obtain ⟨ms, rfl⟩ := hpre
  have hleaf : pre.filter (·.leaf) = pre := List.filter_eq_self.2 fun p hp => by
    obtain ⟨k, hk, rfl⟩ := List.mem_iff_getElem.1 hp
    exact h.leaves k _ (hn ▸ hk) (by rw [List.getElem?_append_left hk, List.getElem?_eq_getElem hk])
  have hinternal : ms.filter (·.leaf) = [] := List.filter_eq_nil_iff.2 fun p hp => by
    obtain ⟨k, hk, rfl⟩ := List.mem_iff_getElem.1 hp
    obtain ⟨m, -, -, hm, hl, -⟩ := h.merged (pre.length + k) (by omega) (by simpa using hk)
    rw [List.getElem?_append_right (by omega), Nat.add_sub_cancel_left, List.getElem?_eq_getElem hk] at hm
    cases hm
    simp [hl]
  rw [List.filter_append, hleaf, hinternal, List.append_nil]

/-- On a table with an entry BUILD commits one tree, its leaves the symbols present (42_tree_builder.md R80, R83). -/
theorem exec_build_shape (hv : s.vFreq = true) (hne : presentSyms s.freq ≠ []) :
    ∃ ns sh, exec .build s = .next (s.setTree ns (ns.length - 1) .built) ∧
      (s.setTree ns (ns.length - 1) .built).shape = some sh ∧ sh.size = ns.length ∧
      sh.leaves.Perm ((presentSyms s.freq).map (BitVec.ofNat 8)) := by
  obtain ⟨ns, e, hexec, hlen, hpre, hgreedy⟩ := exec_build_of_present hv hne
  have hle := length_presentSyms_le s.freq
  have hroot : (s.setTree ns (ns.length - 1) .built).root.toNat = ns.length - 1 := by
    rw [State.setTree_root, BitVec.toNat_ofNat]
    omega
  have htree : oneTree ns (s.setTree ns (ns.length - 1) .built).root.toNat = true := by
    rw [hroot, ← hgreedy.root_eq]
    exact hgreedy.oneTree
  obtain ⟨sh, hs, hsize⟩ := oneTree_shape (s := s.setTree ns (ns.length - 1) .built) htree
  refine ⟨ns, sh, hexec, hs, hsize, (State.shape_leaves_perm htree hs).trans (.of_eq ?_)⟩
  rw [State.setTree_nodes, hgreedy.filter_leaf hpre (by simp), List.map_map]
  rfl

/-- The symbols present in the tally of a 7-bit text are its bytes without repetition (41_symbol_table.md R77). -/
theorem presentSyms_tallyOf_perm {text : List Byte} (h : ∀ v ∈ text, v.toNat < 128) :
    ((presentSyms (tallyOf text)).map (BitVec.ofNat 8)).Perm text.dedup := by
  have hpresent : presentSyms (tallyOf text) =
      (List.range 128).filter fun k => decide (0 < text.count (BitVec.ofNat 8 k)) :=
    List.filter_congr fun k hk => by
      have hk' : k < 128 := List.mem_range.1 hk
      simp [hk', getElem_tallyOf]
  rw [hpresent]
  exact present_perm_dedup h

/-- A tree of more than one node is no single symbol (48_pipeline.md R118). -/
theorem singleSymbolStep_of_many (h : s.nodes.length ≠ 1) : singleSymbolStep s = .ok s := by
  unfold singleSymbolStep
  split
  · next n hn => exact absurd (by rw [hn]; rfl) h
  · rfl

/-! ### The table of GENCODE -/

@[simp] theorem State.shape_setCode (s : State) (c : CodeTable) : (s.setCode c).shape = s.shape := rfl

/-- The table of a tree's paths; `exec_gencode_of_shape` ties it to GENCODE. -/
def Shape.codeTable (sh : Shape) : CodeTable := recordPaths sh.paths (Vector.replicate 128 CodeEntry.invalid)

section
variable {sh : Shape} (hnd : sh.leaves.Nodup) (h7 : ∀ v ∈ sh.leaves, v.toNat < 128)
include hnd h7

/-- A tree of distinct 7-bit symbols has at most 128 leaves (43_code_table.md R85). -/
theorem Shape.length_leaves_le : sh.leaves.length ≤ 128 := by
  have hsub : sh.leaves.map BitVec.toNat ⊆ List.range 128 := fun k hk => by
    obtain ⟨v, hv, rfl⟩ := List.mem_map.1 hk
    exact List.mem_range.2 (h7 v hv)
  simpa using ((hnd.map fun _ _ => BitVec.eq_of_toNat_eq).subperm hsub).length_le

theorem Shape.length_path_le {q : Byte × List Bool} (hq : q ∈ sh.paths) : q.2.length ≤ 127 := by
  have := sh.path_length_lt q hq
  have := sh.length_leaves_le hnd h7
  omega

theorem Shape.entryOf_codeTable {q : Byte × List Bool} (hq : q ∈ sh.paths) :
    entryOf sh.codeTable q.1 = codeWord (pathPattern 0 q.2) q.2.length := by
  have hleaf : q.1 ∈ sh.leaves := sh.map_fst_paths ▸ List.mem_map_of_mem hq
  exact entryOf_recordPaths_of_mem (by rwa [sh.map_fst_paths]) hq (h7 _ hleaf) _

/-- The code word of a leaf is its path (43_code_table.md R85). -/
theorem Shape.codeBits_codeTable {q : Byte × List Bool} (hq : q ∈ sh.paths) :
    codeBits (entryOf sh.codeTable q.1) = q.2 := by
  rw [Shape.entryOf_codeTable hnd h7 hq, codeBits_codeWord _ (Shape.length_path_le hnd h7 hq)]

/-- The records of the table are well-formed (10_state.md R17). -/
theorem Shape.codeTable_ok : ∀ e ∈ sh.codeTable.toList, e.ok = true :=
  foldl_setIfInBounds_ok (fun q => codeWord (pathPattern 0 q.2) q.2.length) _ _
    (by simp +contextual [CodeEntry.invalid, CodeEntry.ok]) fun q hq =>
      codeWord_ok q.2 (Shape.length_path_le hnd h7 hq)

/-- The leftmost leaf has the all-zero code word, as long as the leaf is deep (43_code_table.md R87 d). -/
theorem Shape.entryOf_leftmost :
    (entryOf sh.codeTable sh.leftmost).valid = true ∧ (entryOf sh.codeTable sh.leftmost).pat = 0 ∧
      (entryOf sh.codeTable sh.leftmost).len.toNat = sh.leftDepth := by
  have hzero : ∀ k, pathPattern 0 (List.replicate k false) = 0 := fun k => by
    induction k with
    | zero => rfl
    | succ k ih => exact ih
  have hentry := Shape.entryOf_codeTable hnd h7 sh.leftmost_mem
  refine ⟨by rw [hentry]; rfl, by rw [hentry, hzero]; rfl, ?_⟩
  rw [hentry, codeWord_len _ (Shape.length_path_le hnd h7 sh.leftmost_mem), List.length_replicate]

variable {text : List Byte} (htext : ∀ v ∈ text, v ∈ sh.leaves)
include htext

/-- A text of the tree's symbols is a sequence of the tree's paths, its code words (30_encoding.md R52). -/
theorem Shape.exists_paths_of_text :
    ∃ ps : List (Byte × List Bool), (∀ q ∈ ps, q ∈ sh.paths) ∧ ps.map (·.1) = text ∧
      ps.flatMap (·.2) = textBits sh.codeTable text := by
  refine ⟨text.map fun v => (v, codeBits (entryOf sh.codeTable v)), fun q hq => ?_, ?_, ?_⟩
  · obtain ⟨v, hv, rfl⟩ := List.mem_map.1 hq
    have hleaf := htext v hv
    rw [← sh.map_fst_paths] at hleaf
    obtain ⟨p, hp, rfl⟩ := List.mem_map.1 hleaf
    rwa [Shape.codeBits_codeTable hnd h7 hp]
  · simp [Function.comp_def]
  · rw [List.flatMap_map]
    rfl

/-- PACK accepts a text of the tree's symbols (44_bit_packer.md R90). -/
theorem Shape.packable_codeTable : packable sh.codeTable text := fun v hv => by
  have hleaf := htext v hv
  refine ⟨h7 v hleaf, ?_⟩
  rw [← sh.map_fst_paths] at hleaf
  obtain ⟨p, hp, rfl⟩ := List.mem_map.1 hleaf
  rw [Shape.entryOf_codeTable hnd h7 hp]
  rfl

end

/-! ### PACK beyond the capacity -/

/-- PACK where the payload does not fit (44_bit_packer.md R93; 60_exceptions.md R132). -/
theorem packStep_of_overflow (hv : s.vCode = true) (hok : ∀ e ∈ s.code.toList, e.ok = true)
    (ht : packable s.code s.mem.text) (hover : s.params.payCap < ((textBits s.code s.mem.text).length + 7) / 8) :
    packStep s = .error (.raise (.bufferOverflow .pay)) := by
  have hstart : PackState.bits ⟨0, 0, []⟩ = [] := rfl
  have hcap : cap s.params .pay = s.params.payCap := rfl
  have hspec := packFrom_spec (capacity := cap s.params .pay) s.mem.text (i := 0) (p := ⟨0, 0, []⟩) hok ht
    (by decide) (Nat.zero_le _)
  rw [hstart, List.nil_append] at hspec
  rw [packStep, requireCode_eq, if_pos hv]
  rcases hspec with ⟨-, p, hpack, hbits, hnbits, hle⟩ | ⟨-, hraise⟩
  · have hlen := p.length_bits
    rw [hbits] at hlen
    rcases emit_cases (b := .pay) (capacity := cap s.params .pay) (out := p.out)
      (v := (p.acc <<< (8 - p.nbits)).setWidth 8) with ⟨-, hemit⟩ | ⟨hne, -⟩
    · simp only [hpack, padLast, if_pos (show 0 < p.nbits by omega), hemit]
    · omega
  · simp only [hraise]

/-! ### COMPRESS -/

/-- A tree with two symbols has an internal root. -/
theorem Shape.exists_node_of_ne {sh : Shape} {a b : Byte} (ha : a ∈ sh.leaves) (hb : b ∈ sh.leaves) (hab : a ≠ b) :
    ∃ l r, sh = .node l r := by
  cases sh with
  | leaf x => exact absurd ((List.mem_singleton.1 ha).trans (List.mem_singleton.1 hb).symm) hab
  | node l r => exact ⟨l, r, rfl⟩

/-- COMPRESS of `s` completes its steps before PACK in the state `u`, which holds the tree `sh` of the text and the
table of that tree (48_pipeline.md R116); `exists_reachesPack` gives such a state. -/
structure ReachesPack (s u : State) (sh : Shape) : Prop where
  run : exec .compress s = runSteps [packStep, tserStep, cencStep] u
  mem : u.mem = s.mem
  params : u.params = s.params
  err : u.err = s.err
  errInfo : u.errInfo = s.errInfo
  vFreq : u.vFreq = true
  vTree : u.vTree = .built
  vCode : u.vCode = true
  shape : u.shape = some sh
  leaves : sh.leaves.Perm s.mem.text.dedup
  code : u.code = sh.codeTable

/-- A text of two or more 7-bit symbols passes COUNT, BUILD, the check of step 3 and GENCODE (48_pipeline.md R116). -/
theorem exists_reachesPack (h7 : ∀ v ∈ s.mem.text, v.toNat < 128) (h2 : ∃ u ∈ s.mem.text, ∃ v ∈ s.mem.text, u ≠ v)
    (herr : s.err = 0) : ∃ u l r, ReachesPack s u (.node l r) := by
  obtain ⟨a, ha, b, hb, hab⟩ := h2
  have hcount := exec_count_of_sevenBit h7
  set c := s.setFreq (tallyOf s.mem.text) (BitVec.ofNat 8 (presentCount (tallyOf s.mem.text))) with hc
  have hcerr : c.err = 0 := by simpa [hc] using herr
  have hpresent : ((presentSyms c.freq).map (BitVec.ofNat 8)).Perm s.mem.text.dedup := presentSyms_tallyOf_perm h7
  have hne : presentSyms c.freq ≠ [] := by
    intro hnil
    rw [hnil, List.map_nil, List.nil_perm, List.dedup_eq_nil] at hpresent
    rw [hpresent] at ha
    cases ha
  obtain ⟨ns, sh, hbuild, hs, hsize, hleaves⟩ := exec_build_shape (s := c) rfl hne
  set d := c.setTree ns (ns.length - 1) .built with hd
  have hderr : d.err = 0 := by simpa [hd] using hcerr
  have hperm := hleaves.trans hpresent
  have hmem : ∀ v, v ∈ sh.leaves ↔ v ∈ s.mem.text := fun v => by rw [hperm.mem_iff, List.mem_dedup]
  obtain ⟨l, r, rfl⟩ := sh.exists_node_of_ne ((hmem a).2 ha) ((hmem b).2 hb) hab
  have hmany : d.nodes.length ≠ 1 := by
    have := l.size_pos
    rw [hd, State.setTree_nodes, ← hsize, Shape.size]
    omega
  have hgencode := exec_gencode_of_shape (s := d) rfl hs fun v hv => h7 v ((hmem v).1 hv)
  refine ⟨d.setCode (Shape.node l r).codeTable, l, r, ?_, by simp [hd, hc], by simp [hd, hc], by simp [hd, hc],
    by simp [hd, hc], by simp [hd, hc], by simp [hd], by simp, by rw [State.shape_setCode, hs], hperm, by simp⟩
  calc exec .compress s
      = runSteps [buildStep, singleSymbolStep, gencodeStep, packStep, tserStep, cencStep] c :=
        runSteps_cons_of_next hcount hcerr
    _ = runSteps [singleSymbolStep, gencodeStep, packStep, tserStep, cencStep] d := runSteps_cons_of_next hbuild hderr
    _ = runSteps [gencodeStep, packStep, tserStep, cencStep] d := runSteps_cons_ok (singleSymbolStep_of_many hmany)
    _ = runSteps [packStep, tserStep, cencStep] (d.setCode (Shape.node l r).codeTable) :=
        runSteps_cons_of_next hgencode (by rw [State.setCode_err, hderr])

section
variable {u : State} {sh : Shape} (h : ReachesPack s u sh) (h7 : ∀ v ∈ s.mem.text, v.toNat < 128)
include h

theorem ReachesPack.mem_leaves {v : Byte} : v ∈ sh.leaves ↔ v ∈ s.mem.text := by
  rw [h.leaves.mem_iff, List.mem_dedup]

theorem ReachesPack.leaves_nodup : sh.leaves.Nodup := h.leaves.nodup_iff.2 (List.nodup_dedup _)

include h7

theorem ReachesPack.leaves_lt : ∀ v ∈ sh.leaves, v.toNat < 128 := fun v hv => h7 v (h.mem_leaves.1 hv)

theorem ReachesPack.size_le : sh.size ≤ 255 := by
  have := sh.size_leaves
  have := sh.length_leaves_le h.leaves_nodup (h.leaves_lt h7)
  omega

theorem ReachesPack.code_ok : ∀ e ∈ u.code.toList, e.ok = true :=
  h.code ▸ sh.codeTable_ok h.leaves_nodup (h.leaves_lt h7)

theorem ReachesPack.packable : packable u.code u.mem.text := by
  rw [h.code, h.mem]
  exact sh.packable_codeTable h.leaves_nodup (h.leaves_lt h7) fun v => h.mem_leaves.2

/-- COMPRESS where the payload exceeds PAY_CAP stops at PACK (48_pipeline.md R120 d). -/
theorem ReachesPack.exec_of_overflow (hover : u.params.payCap < ((textBits u.code u.mem.text).length + 7) / 8) :
    exec .compress s = .next (u.raiseError (.bufferOverflow .pay)) :=
  h.run.trans (runSteps_cons_raise (packStep_of_overflow h.vCode (h.code_ok h7) (h.packable h7) hover))

/-- COMPRESS where the payload fits and no symbol is 0 commits payload, tree and container (48_pipeline.md R116,
R120 f). -/
theorem ReachesPack.exec_of_fits (h0 : (0 : Byte) ∉ s.mem.text)
    (hfit : ((textBits u.code u.mem.text).length + 7) / 8 ≤ u.params.payCap) :
    ∃ out, exec .compress s =
        .next (((u.commit .pay out).commit .treeb sh.bytes).commit .cont
          (headerBytes sh.bytes.length out.length ++ sh.bytes ++ out)) ∧
      streamBits out =
        textBits u.code u.mem.text ++ List.replicate (padCount (textBits u.code u.mem.text).length) false := by
  have hsize : sh.size ≤ treebCap := (h.size_le h7).trans (by decide)
  obtain ⟨out, hpack, hout⟩ := packStep_of_fits h.vCode (h.code_ok h7) (h.packable h7) hfit
  have hlen : out.length ≤ u.params.payCap := by
    have := congrArg List.length hout
    rw [length_streamBits, List.length_append, List.length_replicate, padCount] at this
    omega
  have htser : tserStep (u.commit .pay out) = .ok ((u.commit .pay out).commit .treeb sh.bytes) :=
    tserStep_of_shape (by simp [h.vTree]) h.shape (mt h.mem_leaves.1 h0) hsize
  have hcenc := cencStep_of_fits (s := (u.commit .pay out).commit .treeb sh.bytes) (sh.length_bytes.trans_le hsize) hlen
  exact ⟨out, h.run.trans ((runSteps_cons_ok hpack).trans ((runSteps_cons_ok htser).trans (runSteps_cons_ok hcenc))),
    hout⟩

end

/-- The payload of COMPRESS decodes to the text and `floor(p / k)` copies of the leftmost leaf's symbol
(45_bit_unpacker.md R100). -/
theorem ReachesPack.decode_payload {u : State} {l r : Shape} (h : ReachesPack s u (.node l r))
    (h7 : ∀ v ∈ s.mem.text, v.toNat < 128) (p : Nat) :
    (Shape.node l r).decode (.node l r) (textBits u.code u.mem.text ++ List.replicate p false) =
      s.mem.text ++ List.replicate (p / (Shape.node l r).leftDepth) (Shape.node l r).leftmost := by
  obtain ⟨ps, hps, htext, hbits⟩ := Shape.exists_paths_of_text h.leaves_nodup (h.leaves_lt h7) fun v => h.mem_leaves.2
  rw [h.code, h.mem, ← hbits, Shape.decode_text_zeros hps, htext]

end Sys2Proof.Machine

open Sys2Proof Sys2Proof.Machine

/-- Settles O54: the payload's bits are the text's paths in the tree and the padding, and the tree comes back from the
container with the same paths. -/
theorem decompressAppendsPhantomSymbols : Obligations.DecompressAppendsPhantomSymbols := by
  intro s t htext h2 herr hexec hterr
  have h7 : ∀ v ∈ s.mem.text, v.toNat < 128 := fun v hv => (htext v hv).2
  have h0 : (0 : Byte) ∉ s.mem.text := fun hz => absurd (htext 0 hz).1 (by decide)
  obtain ⟨u, l, r, hu⟩ := exists_reachesPack h7 h2 herr
  rcases Nat.lt_or_ge u.params.payCap (((textBits u.code u.mem.text).length + 7) / 8) with hover | hfit
  · rw [hu.exec_of_overflow h7 hover] at hexec
    cases hexec
    exact absurd hterr (CoreError.bufferOverflow .pay).code_bounds.1
  obtain ⟨out, hcommit, hout⟩ := hu.exec_of_fits h7 h0 hfit
  rw [hcommit] at hexec
  cases hexec
  have hdecode := hu.decode_payload h7 (padCount (textBits u.code u.mem.text).length)
  rw [← hout, hu.mem] at hdecode
  have hk : 0 < (Shape.node l r).leftDepth := Nat.succ_pos _
  obtain ⟨hvalid, hpat, hlen⟩ := Shape.entryOf_leftmost hu.leaves_nodup (hu.leaves_lt h7)
  simp only [State.commit_code, ← hu.code] at hvalid hpat hlen ⊢
  refine ⟨_, _, hk, hvalid, hpat, hlen, fun s' hlegal herr' hcont hpay hcap => ?_⟩
  have hsize := hu.size_le h7
  have hnodes := (Params.bounds_of_legal hlegal).2
  have hrun := exec_decompress_of_container (after := []) (payload := out) (extra := []) hlegal
    (mt hu.mem_leaves.1 h0) (by omega) (by rw [List.append_nil, Shape.length_bytes]; omega) hpay
    (by simpa using hcont) (by simpa [hdecode] using hcap)
  refine ⟨_, hrun, herr', hdecode, ?_⟩
  -- The text comes back exactly when no phantom follows it, that is when `p / k = 0`.
  simp [hdecode, hk.ne']
end

section
/-! PROOFS. The Tree Codec: what TSER commits or refuses, what TDES accepts, and the round trip of a tree through TREEB
(46_tree_codec.md). -/

namespace Sys2Proof.Machine

variable {s : State}

/-- The largest arena serializes within TREEB (00_scope.md R6). -/
theorem Params.nodeCap_le_of_legal {p : Params} (h : p.legal = true) : p.nodeCap ≤ treebCap := by
  simp only [Params.legal, Params.nodeCapOk, Bool.and_eq_true, decide_eq_true_eq] at h
  exact h.1.2.2

/-! ### TSER -/

/-- The tree of an arena within the invariant serializes within TREEB, one byte a node (46_tree_codec.md R102, R104). -/
theorem State.Inv.shape_size (h : s.Inv) (ht : s.vTree ≠ .none) :
    ∃ sh, s.shape = some sh ∧ sh.size = s.nodes.length ∧ sh.size ≤ treebCap := by
  obtain ⟨sh, hs, hsize⟩ := h.arena.shape ht
  exact ⟨sh, hs, hsize, hsize ▸ h.arena.fits.trans (Params.nodeCap_le_of_legal h.params)⟩

/-- TSER of a tree with a leaf of symbol 0 raises UnrepresentableSymbol with the index of such a leaf (46_tree_codec.md
R103). -/
theorem tserStep_of_nul {sh : Shape} (ht : s.vTree ≠ .none) (hs : s.shape = some sh) (h0 : (0 : Byte) ∈ sh.leaves)
    (hsize : sh.size ≤ treebCap) :
    ∃ i n, s.nodes[i]? = some n ∧ n.leaf = true ∧ n.sym = 0 ∧
      tserStep s = .error (.raise (.unrepresentableSymbol i)) := by
  obtain ⟨i, n, hn, hl, hz, hnul⟩ := serialize_nul (out := []) hs h0 (by simpa using hsize)
  refine ⟨i, n, hn, hl, hz, ?_⟩
  rw [tserStep, requireTree_eq, if_neg ht]
  simp only [hnul]

theorem State.commit_self (s : State) (b : BufId) : s.commit b (s.mem.get b) = s := by
  rw [State.commit, Memory.set_get]

/-- TSER of a tree whose bytes TREEB holds changes nothing (46_tree_codec.md R109). -/
theorem exec_tser_of_serialized {sh : Shape} (ht : s.vTree ≠ .none) (hs : s.shape = some sh)
    (h0 : (0 : Byte) ∉ sh.leaves) (hsize : sh.size ≤ treebCap) (hb : s.mem.treeb = sh.bytes) :
    exec .tser s = .next s := by
  have hok := tserStep_of_shape ht hs h0 hsize
  rw [← hb, ← Memory.get_treeb, State.commit_self] at hok
  exact runSteps_cons_ok hok

/-! ### The symbol 0 in a BUILT tree -/

/-- The leaves of a greedy arena come before the merges (42_tree_builder.md R83 a, b). -/
theorem GreedyArena.lt_of_leaf {m j : Nat} {ns : List Node} {n : Node} (h : GreedyArena m ns) (hn : ns[j]? = some n)
    (hl : n.leaf = true) : j < m := by
  by_contra hj
  obtain ⟨n', -, -, hn', hl', -⟩ := h.merged j (Nat.le_of_not_lt hj) (List.getElem?_eq_some_iff.1 hn).1
  cases hn.symm.trans hn'
  rw [hl] at hl'
  cases hl'

theorem zero_mem_presentSyms {f : FreqTable} (h : f[0] ≠ 0) : 0 ∈ presentSyms f := by
  simpa [presentSyms, Nat.pos_iff_ne_zero] using h

/-- The symbols present ascend, so that only the first can be 0 (42_tree_builder.md R80). -/
theorem presentSyms_pos {f : FreqTable} {j : Nat} (hj : j < (presentSyms f).length) (hpos : 0 < j) :
    0 < (presentSyms f)[j] := by
  have hasc : (presentSyms f).Pairwise (· < ·) := List.pairwise_lt_range.filter _
  exact Nat.zero_lt_of_lt (List.pairwise_iff_getElem.1 hasc 0 j (hpos.trans hj) hj hpos)

/-- In an arena over the leaves of the symbols present only entry 0 can be a leaf of symbol 0 (46_tree_codec.md
R103). -/
theorem GreedyArena.eq_zero_of_nul {f : FreqTable} {ns : List Node} {j : Nat} {n : Node}
    (h : GreedyArena (presentSyms f).length ns)
    (hleaves : (presentSyms f).map (fun y => leafNode (f[y]?.getD 0) y) <+: ns) (hn : ns[j]? = some n)
    (hl : n.leaf = true) (hz : n.sym = 0) : j = 0 := by
  have hj : j < (presentSyms f).length := h.lt_of_leaf hn hl
  have h128 : (presentSyms f)[j] < 128 := List.mem_range.1 (List.mem_of_mem_filter (List.getElem_mem hj))
  obtain ⟨ms, rfl⟩ := hleaves
  rw [List.getElem?_append_left (by simpa using hj), List.getElem?_map, List.getElem?_eq_getElem hj] at hn
  cases hn
  have hzero : (presentSyms f)[j] = 0 := by
    have hsym : (BitVec.ofNat 8 (presentSyms f)[j]).toNat = 0 := congrArg BitVec.toNat hz
    rwa [BitVec.toNat_ofNat, Nat.mod_eq_of_lt (by omega)] at hsym
  by_contra hne
  exact (presentSyms_pos hj (Nat.pos_of_ne_zero hne)).ne' hzero

/-! ### TDES -/

/-- TDES of bytes that hold no tree the arena can hold: MalformedTree or NodeOverflow, whichever limit comes first
(46_tree_codec.md R106; 60_exceptions.md R133). -/
theorem tdesStep_of_noTree
    (h : ∀ (sh : Shape) (rest : List Byte), (0 : Byte) ∉ sh.leaves → sh.size ≤ s.params.nodeCap →
      s.mem.treeb ≠ sh.bytes ++ rest) :
    tdesStep s =
      .error (.raise (if s.mem.treeb.length ≤ s.params.nodeCap then .malformedTree s.mem.treeb.length
        else .nodeOverflow s.params.nodeCap)) := by
  have hfails := parse_fails (treeb := s.mem.treeb) (nodeCap := s.params.nodeCap) (f := s.mem.len .treeb + 1)
    (p := ⟨0, []⟩) rfl (Nat.zero_le _) (Nat.zero_le _) (by simp [Memory.len]) (by simpa using h)
  rw [tdesStep, hfails]

/-- A TDES that leaves no error has found a tree at the start of TREEB and committed its pre-order arena
(46_tree_codec.md R105). -/
theorem exec_tdes_cases {t : State} (h : exec .tdes s = .next t) (ht : t.err = 0) :
    ∃ (sh : Shape) (rest : List Byte), s.mem.treeb = sh.bytes ++ rest ∧ (0 : Byte) ∉ sh.leaves ∧
      sh.size ≤ s.params.nodeCap ∧ t = s.setTree (sh.arena 0) 0 .deser := by
  have hok : tdesStep s = .ok t := by
    rcases runSteps_one h with hok | ⟨e, -, rfl⟩
    · exact hok
    · exact absurd ht e.code_bounds.1
  by_cases htree : ∃ (sh : Shape) (rest : List Byte), (0 : Byte) ∉ sh.leaves ∧ sh.size ≤ s.params.nodeCap ∧
      s.mem.treeb = sh.bytes ++ rest
  · obtain ⟨sh, rest, h0, hsize, hb⟩ := htree
    rw [tdesStep_of_tree hb h0 hsize] at hok
    cases hok
    exact ⟨sh, rest, hb, h0, hsize, rfl⟩
  · rw [tdesStep_of_noTree fun sh rest h0 hsize hb => htree ⟨sh, rest, h0, hsize, hb⟩] at hok
    cases hok

/-- After TDES of a tree that fills TREEB, TSER changes nothing (46_tree_codec.md R109). -/
theorem exec_tser_setTree_arena {sh : Shape} (hb : s.mem.treeb = sh.bytes) (h0 : (0 : Byte) ∉ sh.leaves)
    (hsize : sh.size ≤ treebCap) :
    exec .tser (s.setTree (sh.arena 0) 0 .deser) = .next (s.setTree (sh.arena 0) 0 .deser) :=
  exec_tser_of_serialized (by simp) (State.shape_setTree_arena s (hsize.trans (by decide)) .deser) h0 hsize hb

end Sys2Proof.Machine

open Sys2Proof Sys2Proof.Machine

/-- Settles O37: under the invariant the arena holds a tree that fits TREEB, and TSER walks it. -/
theorem tserWritesThePreorderBytes : Obligations.TserWritesThePreorderBytes := by
  intro s h ht
  obtain ⟨sh, hs, hsize, hcap⟩ := h.shape_size ht
  refine ⟨sh, hs, sh.length_bytes.trans hsize, fun h0 => runSteps_cons_ok (tserStep_of_shape ht hs h0 hcap),
    fun h0 => ?_⟩
  obtain ⟨i, n, hn, hl, hz, hnul⟩ := tserStep_of_nul ht hs h0 hcap
  exact ⟨i, n, hn, hl, hz, runSteps_cons_raise hnul⟩

/-- Settles O38: TSER stops at a leaf of symbol 0, and BUILD puts such a leaf at entry 0 only. -/
theorem tserRejectsNulInABuiltTree : Obligations.TserRejectsNulInABuiltTree := by
  intro s hv h0
  have hpresent := zero_mem_presentSyms h0
  have hne := List.ne_nil_of_mem hpresent
  obtain ⟨ns, e, hexec, hlen, hleaves, hgreedy⟩ := exec_build_of_present hv hne
  obtain ⟨ns', sh, hexec', hs, hsize, hperm⟩ := exec_build_shape hv hne
  obtain rfl : ns = ns' := by
    injection hexec.symm.trans hexec' with hstate
    exact congrArg State.nodes hstate
  have hnul : (0 : Byte) ∈ sh.leaves := hperm.mem_iff.2 (List.mem_map_of_mem hpresent)
  have hcap : sh.size ≤ treebCap := by
    have := length_presentSyms_le s.freq
    rw [hsize, hlen, treebCap]
    omega
  obtain ⟨j, n, hn, hl, hz, htser⟩ := tserStep_of_nul (by simp) hs hnul hcap
  cases hgreedy.eq_zero_of_nul hleaves hn hl hz
  exact ⟨_, hexec, runSteps_cons_raise htser⟩

/-- Settles O39: the parser consumes the tree at the start of TREEB and stops. -/
theorem tdesBuildsThePreorderArena : Obligations.TdesBuildsThePreorderArena := fun _ _ _ hb h0 hsize =>
  runSteps_cons_ok (tdesStep_of_tree hb h0 hsize)

/-- Settles O40: where the arena can hold all the bytes, their end is the limit that the parser meets. -/
theorem tdesRejectsATruncatedTree : Obligations.TdesRejectsATruncatedTree := by
  intro s hnone hfits
  have herror := tdesStep_of_noTree fun sh rest h0 _ => hnone sh rest h0
  rw [if_pos hfits] at herror
  exact runSteps_cons_raise herror

/-- Settles O42: either way TREEB holds the bytes of the tree of the pre-order arena, which TSER writes again. -/
theorem treeRoundTrip : Obligations.TreeRoundTrip := by
  constructor
  · intro s sh h ht hs h0
    obtain ⟨sh', hs', hsize, hcap⟩ := h.shape_size ht
    cases hs.symm.trans hs'
    have hdes := tdesStep_of_tree (s := s.commit .treeb sh.bytes) (rest := []) (by simp) h0
      (hsize ▸ h.arena.fits)
    exact ⟨_, _, runSteps_cons_ok (tserStep_of_shape ht hs h0 hcap), runSteps_cons_ok hdes,
      State.shape_setTree_arena _ (hcap.trans (by decide)) .deser, rfl, by simpa using hsize, by simpa using hsize, rfl,
      exec_tser_setTree_arena rfl h0 hcap⟩
  · intro s t hlegal hexec herr hserr hlen
    obtain ⟨sh, rest, hb, h0, hsize, rfl⟩ := exec_tdes_cases hexec (herr.trans hserr)
    have hrest : rest = [] := by simpa [hb] using hlen
    have hcap : s.params.nodeCap ≤ treebCap := Params.nodeCap_le_of_legal hlegal
    exact ⟨rfl, exec_tser_setTree_arena (by simpa [hrest] using hb) h0 (hsize.trans hcap)⟩
end

section
/-! PROOFS. The Container Format: the result of CDEC for every container with a whole header, and the round trip of the
two sections through CONT (47_container.md). -/

namespace Sys2Proof.Machine

variable {s : State}

/-! ### CENC -/

/-- CENC of a container that CONT already holds changes nothing (47_container.md R115). -/
theorem exec_cenc_of_framed (ht : s.mem.treeb.length ≤ treebCap) (hp : s.mem.pay.length ≤ s.params.payCap)
    (hc : s.mem.cont = headerBytes s.mem.treeb.length s.mem.pay.length ++ s.mem.treeb ++ s.mem.pay) :
    exec .cenc s = .next s := by
  have hok := cencStep_of_fits ht hp
  rw [← hc, ← Memory.get_cont, State.commit_self] at hok
  exact runSteps_cons_ok hok

/-! ### CDEC -/

/-- CDEC of the container that CENC makes of TREEB and PAY changes nothing (47_container.md R115). -/
theorem exec_cdec_of_framed (ht : s.mem.treeb.length < 2 ^ 16) (hp : s.mem.pay.length < 2 ^ 32)
    (hcap : s.mem.pay.length ≤ s.params.payCap)
    (hc : s.mem.cont = headerBytes s.mem.treeb.length s.mem.pay.length ++ s.mem.treeb ++ s.mem.pay) :
    exec .cdec s = .next s := by
  have hok := cdecStep_of_container (extra := []) ht hp hcap (by rw [hc, List.append_nil])
  rw [← Memory.get_treeb, State.commit_self, ← Memory.get_pay, State.commit_self] at hok
  exact runSteps_cons_ok hok

/-- CDEC without a whole header (47_container.md R113, case 0). -/
theorem cdecStep_of_short (h : s.mem.cont.length < 6) : cdecStep s = .error (.raise (.truncatedInput 0)) :=
  if_pos h

/-- CDEC behind a whole header, told by the bytes that follow it: the three refusals in the order tested, and the two
sections where none applies (47_container.md R112, R113). -/
theorem cdecStep_of_header {tl pl : Nat} {rest : List Byte} (ht : tl < 2 ^ 16) (hp : pl < 2 ^ 32)
    (hc : s.mem.cont = headerBytes tl pl ++ rest) :
    cdecStep s =
      if rest.length < tl then .error (.raise (.truncatedInput 1))
      else if rest.length - tl < pl then .error (.raise (.truncatedInput 2))
      else if s.params.payCap < pl then .error (.raise (.bufferOverflow .pay))
      else .ok ((s.commit .treeb (rest.take tl)).commit .pay ((rest.drop tl).take pl)) := by
  have hlen : s.mem.cont.length = 6 + rest.length := by rw [hc, List.length_append]; rfl
  have htl : bigEndian ((s.mem.cont.drop 0).take 2) = tl := by rw [hc]; exact bigEndian_two ht
  have hpl : bigEndian ((s.mem.cont.drop 2).take 4) = pl := by rw [hc]; exact bigEndian_four hp
  have hdrop : s.mem.cont.drop 6 = rest := by rw [hc]; exact List.drop_left' rfl
  have hlong : ¬ s.mem.len .cont < 6 := by simp [Memory.len, hlen]
  rw [cdecStep, if_neg hlong, memRead_ok (by omega), memRead_ok (by omega), htl, hpl]
  simp only [splitContainer, raise, Memory.len, Memory.get_cont, hlen, Nat.add_sub_cancel_left, ← List.drop_drop,
    hdrop, gt_iff_lt]

end Sys2Proof.Machine

open Sys2Proof Sys2Proof.Machine

/-- Settles O43: the container is within CONT_CAP, so that no byte of it overflows CONT. -/
theorem cencFramesBothBuffers : Obligations.CencFramesBothBuffers := fun _ ht hp =>
  runSteps_cons_ok (cencStep_of_fits ht hp)

/-- Settles O44: the two length fields, read back, delimit the two sections. -/
theorem cdecSplitsTheContainer : Obligations.CdecSplitsTheContainer := fun _ _ _ _ ht hp hcap hc =>
  runSteps_cons_ok (cdecStep_of_container ht hp hcap hc)

/-- Settles O45: each clause is one refusal of CDEC, reached when the tests before it pass. -/
theorem cdecReportsTruncation : Obligations.CdecReportsTruncation := by
  intro s
  refine ⟨fun h => runSteps_cons_raise (cdecStep_of_short h), fun tl pl rest ht hp hc => ?_⟩
  have hstep := cdecStep_of_header ht hp hc
  refine ⟨fun htree => ?tree, fun htree hpay => ?payload, fun htree hpay hover => ?overflow⟩
  case tree =>
    rw [if_pos htree] at hstep
    exact runSteps_cons_raise hstep
  case payload =>
    rw [if_neg htree.not_gt, if_pos hpay] at hstep
    exact runSteps_cons_raise hstep
  case overflow =>
    rw [if_neg htree.not_gt, if_neg hpay.not_gt, if_pos hover] at hstep
    exact runSteps_cons_raise hstep

/-- Settles O46: after the first command CONT is the container of TREEB and PAY, which the second writes again. -/
theorem containerRoundTrip : Obligations.ContainerRoundTrip := by
  constructor
  · intro s hlegal hwf
    have htree : s.mem.treeb.length ≤ treebCap := (Memory.wf_iff _ _).1 hwf .treeb
    have hpay : s.mem.pay.length ≤ s.params.payCap := (Memory.wf_iff _ _).1 hwf .pay
    exact ⟨_, runSteps_cons_ok (cencStep_of_fits htree hpay), rfl, rfl,
      exec_cdec_of_framed (Nat.lt_succ_of_le htree) (hpay.trans_lt (Params.bounds_of_legal hlegal).1) hpay rfl⟩
  · intro s tree payload ht hp hcap hc
    have hdec := cdecStep_of_container (extra := []) ht hp hcap (by rw [hc, List.append_nil])
    exact ⟨_, runSteps_cons_ok hdec, rfl, exec_cenc_of_framed (Nat.le_of_lt_succ ht) hcap hc⟩
end

section
/-! PROOFS. COMPRESS and DECOMPRESS as the chain of the commands that their steps are (48_pipeline.md R116, R117,
R119). -/

namespace Sys2Proof.Machine

/-! ### No step reads ERR -/

/-- The step computes the same whatever ERR holds, and hands ERR on (48_pipeline.md R117; log 7). -/
def IgnoresErr (f : CmdStep) : Prop :=
  ∀ (s : State) (x : BitVec 8), f { s with err := x } = (f s).map fun t => { t with err := x }

theorem countStep_ignoresErr : IgnoresErr countStep := fun s _ => by
  unfold countStep
  cases countFrom s.mem.text 0 (Vector.replicate 128 0) <;> rfl

theorem buildStep_ignoresErr : IgnoresErr buildStep := fun s x => by
  have hreq : requireFreq { s with err := x } = requireFreq s := rfl
  unfold buildStep
  rw [hreq]
  cases requireFreq s with
  | error e => rfl
  | ok =>
    dsimp only
    cases seedFrom (leavesFrom s.freq.toList 0) 0 <;> rfl

theorem singleSymbolStep_ignoresErr : IgnoresErr singleSymbolStep := fun s _ => by
  unfold singleSymbolStep
  dsimp only
  split <;> rfl

theorem gencodeStep_ignoresErr : IgnoresErr gencodeStep := fun s x => by
  have hreq : requireBuilt { s with err := x } = requireBuilt s := rfl
  unfold gencodeStep
  rw [hreq]
  cases requireBuilt s with
  | error e => rfl
  | ok =>
    dsimp only
    cases visit s.nodes s.nodes.length s.root.toNat 0 0 (Vector.replicate 128 CodeEntry.invalid) <;> rfl

theorem packStep_ignoresErr : IgnoresErr packStep := fun s x => by
  have hreq : requireCode { s with err := x } = requireCode s := rfl
  unfold packStep
  rw [hreq]
  cases requireCode s with
  | error e => rfl
  | ok =>
    dsimp only
    cases packFrom s.code (cap s.params .pay) s.mem.text 0 ⟨0, 0, []⟩ with
    | error e => rfl
    | ok p =>
      dsimp only
      cases padLast (cap s.params .pay) p <;> rfl

theorem unpackStep_ignoresErr : IgnoresErr unpackStep := fun s x => by
  have hreq : requireTree { s with err := x } = requireTree s := rfl
  unfold unpackStep
  rw [hreq]
  cases requireTree s with
  | error e => rfl
  | ok =>
    dsimp only
    cases unpackFrom s.nodes s.root.toNat (cap s.params .text) s.mem.pay 0 ⟨s.root.toNat, []⟩ <;> rfl

theorem tserStep_ignoresErr : IgnoresErr tserStep := fun s x => by
  have hreq : requireTree { s with err := x } = requireTree s := rfl
  unfold tserStep
  rw [hreq]
  cases requireTree s with
  | error e => rfl
  | ok =>
    dsimp only
    cases serialize s.nodes s.nodes.length s.root.toNat [] <;> rfl

theorem tdesStep_ignoresErr : IgnoresErr tdesStep := fun s _ => by
  unfold tdesStep
  dsimp only
  cases parse s.mem.treeb s.params.nodeCap (s.mem.len .treeb + 1) ⟨0, []⟩ <;> rfl

theorem cencStep_ignoresErr : IgnoresErr cencStep := fun s _ => by
  unfold cencStep
  dsimp only
  cases emitAll .cont (cap s.params .cont) [] (containerHeader (BitVec.ofNat 32 (s.mem.len .treeb))
    (BitVec.ofNat 32 (s.mem.len .pay)) ++ s.mem.treeb ++ s.mem.pay) <;> rfl

theorem splitContainer_ignoresErr (tl pl : Nat) : IgnoresErr fun s => splitContainer s tl pl := fun s _ => by
  simp only [splitContainer]
  split_ifs <;> rfl

theorem cdecStep_ignoresErr : IgnoresErr cdecStep := fun s x => by
  unfold cdecStep
  split
  · rfl
  · cases memRead s.mem.cont 0 2 with
    | error e => rfl
    | ok tl =>
      dsimp only
      cases memRead s.mem.cont 2 4 with
      | error e => rfl
      | ok pl => exact splitContainer_ignoresErr tl pl s x

theorem compressSteps_ignoreErr : ∀ f ∈ compressSteps, IgnoresErr f := by
  simp only [compressSteps, List.forall_mem_cons]
  exact ⟨countStep_ignoresErr, buildStep_ignoresErr, singleSymbolStep_ignoresErr, gencodeStep_ignoresErr,
    packStep_ignoresErr, tserStep_ignoresErr, cencStep_ignoresErr, by simp⟩

/-- A step that commits keeps ERR. -/
theorem IgnoresErr.err_eq {f : CmdStep} (hf : IgnoresErr f) {s t : State} (h : f s = .ok t) : t.err = s.err := by
  have hself := hf s s.err
  rw [h] at hself
  injection hself with hst
  exact (congrArg State.err hst :)

/-- A raised error is not 0 (60_exceptions.md R122). -/
theorem State.raiseError_err_ne_zero (s : State) (e : CoreError) : (s.raiseError e).err ≠ 0 := e.code_bounds.1

/-- A command run under another ERR makes the same writes; ERR is handed on, unless the command raises an error of its
own (60_exceptions.md R123). -/
theorem runSteps_withErr {fs : List CmdStep} (hf : ∀ f ∈ fs, IgnoresErr f) {s t : State} (hs : s.err = 0)
    (h : runSteps fs s = .next t) (x : BitVec 8) :
    runSteps fs { s with err := x } = .next (if t.err = 0 then { t with err := x } else t) := by
  induction fs generalizing s with
  | nil =>
    cases h
    rw [if_pos hs]
    rfl
  | cons f fs ih =>
    rw [List.forall_mem_cons] at hf
    have hstep := hf.1 s x
    cases hfs : f s with
    | ok s' =>
      rw [hfs] at hstep
      rw [runSteps_cons_ok hfs] at h
      rw [runSteps_cons_ok hstep]
      exact ih hf.2 ((hf.1.err_eq hfs).trans hs) h
    | error e =>
      rw [hfs] at hstep
      cases e with
      | raise e =>
        rw [runSteps_cons_raise hfs] at h
        cases h
        rw [runSteps_cons_raise hstep, if_neg (s.raiseError_err_ne_zero e)]
        rfl
      | fault e =>
        rw [runSteps_cons_fault hfs] at h
        cases h

/-! ### The chain of commands -/

section
variable {f : State → Host.Outcome State Fault Refusal} {fs : List (State → Host.Outcome State Fault Refusal)}
  {s t : State}

/-- A first command that leaves no error is followed by the rest. -/
theorem chain_cons_of_next (h : f s = .next t) (ht : t.err = 0) : chain (f :: fs) s = chain fs t := by
  rw [chain, h]
  exact if_pos ht

/-- A first command that raises an error is the last (40_control_and_host.md R61). -/
theorem chain_cons_of_raise {e : CoreError} (h : f s = .next (t.raiseError e)) :
    chain (f :: fs) s = .next (t.raiseError e) := by
  rw [chain, h]
  exact if_neg (t.raiseError_err_ne_zero e)

end

/-- The steps `fs` are the commands `gs`: each step issued alone is the command, and keeps ERR where it commits. -/
abbrev StepsAre (fs : List CmdStep) (gs : List (State → Host.Outcome State Fault Refusal)) : Prop :=
  List.Forall₂ (fun f g => IgnoresErr f ∧ ∀ s, g s = runSteps [f] s) fs gs

/-- With no error pending a command is the chain of its steps, each issued alone (48_pipeline.md R117). -/
theorem StepsAre.runSteps_eq_chain {fs : List CmdStep} {gs : List (State → Host.Outcome State Fault Refusal)}
    (h : StepsAre fs gs) {s : State} (hs : s.err = 0) : runSteps fs s = chain gs s := by
  induction h generalizing s with
  | nil => rfl
  | @cons f g fs gs hfg _ ih =>
    obtain ⟨hf, hg⟩ := hfg
    cases hfs : f s with
    | ok t =>
      have ht : t.err = 0 := (hf.err_eq hfs).trans hs
      rw [runSteps_cons_ok hfs, ih ht, chain_cons_of_next ((hg s).trans (runSteps_cons_ok hfs)) ht]
    | error e =>
      cases e with
      | raise e =>
        rw [runSteps_cons_raise hfs, chain_cons_of_raise ((hg s).trans (runSteps_cons_raise hfs))]
      | fault e =>
        rw [runSteps_cons_fault hfs, chain, hg s, runSteps_cons_fault hfs]

/-! ### Step 3 of COMPRESS as a command (48_pipeline.md R118) -/

section
variable {s : State}

theorem refuseSingleSymbol_of_one {n : Node} (h : s.nodes = [n]) :
    refuseSingleSymbol s = .next (s.raiseError (.singleSymbolInput n.sym)) := by
  unfold refuseSingleSymbol
  split
  · next m hm =>
    cases h.symm.trans hm
    rfl
  · next hmany => exact absurd h (hmany n)

theorem refuseSingleSymbol_of_many (h : s.nodes.length ≠ 1) : refuseSingleSymbol s = .next s := by
  unfold refuseSingleSymbol
  split
  · next n hn => exact absurd (by rw [hn]; rfl) h
  · rfl

theorem singleSymbolStep_of_one {n : Node} (h : s.nodes = [n]) :
    singleSymbolStep s = .error (.raise (.singleSymbolInput n.sym)) := by
  rw [singleSymbolStep, h]
  rfl

end

theorem refuseSingleSymbol_eq_runSteps (s : State) : refuseSingleSymbol s = runSteps [singleSymbolStep] s := by
  by_cases h : s.nodes.length = 1
  · obtain ⟨n, hn⟩ := List.length_eq_one_iff.1 h
    rw [refuseSingleSymbol_of_one hn, runSteps_cons_raise (singleSymbolStep_of_one hn)]
  · rw [refuseSingleSymbol_of_many h, runSteps_cons_ok (singleSymbolStep_of_many h)]
    rfl

/-- The last steps of COMPRESS are the commands PACK, TSER and CENC. -/
theorem packTserCenc_stepsAre :
    StepsAre [packStep, tserStep, cencStep] [exec .pack, exec .tser, exec .cenc] :=
  .cons ⟨packStep_ignoresErr, fun _ => rfl⟩ <| .cons ⟨tserStep_ignoresErr, fun _ => rfl⟩ <|
    .cons ⟨cencStep_ignoresErr, fun _ => rfl⟩ .nil

theorem compressSteps_stepsAre :
    StepsAre compressSteps
      [exec .count, exec .build, refuseSingleSymbol, exec .gencode, exec .pack, exec .tser, exec .cenc] :=
  .cons ⟨countStep_ignoresErr, fun _ => rfl⟩ <| .cons ⟨buildStep_ignoresErr, fun _ => rfl⟩ <|
    .cons ⟨singleSymbolStep_ignoresErr, refuseSingleSymbol_eq_runSteps⟩ <|
    .cons ⟨gencodeStep_ignoresErr, fun _ => rfl⟩ packTserCenc_stepsAre

theorem decompressSteps_stepsAre : StepsAre decompressSteps [exec .cdec, exec .tdes, exec .unpack] :=
  .cons ⟨cdecStep_ignoresErr, fun _ => rfl⟩ <| .cons ⟨tdesStep_ignoresErr, fun _ => rfl⟩ <|
    .cons ⟨unpackStep_ignoresErr, fun _ => rfl⟩ .nil

end Sys2Proof.Machine

open Sys2Proof Sys2Proof.Machine

/-- Settles O47: with no error pending, the run of the steps is the chain of the commands that each step is alone. -/
theorem compressRunsItsSteps : Obligations.CompressRunsItsSteps := fun _ =>
  compressSteps_stepsAre.runSteps_eq_chain

/-- Settles O48: the same for the three steps of DECOMPRESS. -/
theorem decompressRunsItsSteps : Obligations.DecompressRunsItsSteps := fun _ =>
  decompressSteps_stepsAre.runSteps_eq_chain

/-- Settles O53: CDEC, TDES and UNPACK commit in turn, each on what the one before it left. -/
theorem decompressCommitsTheText : Obligations.DecompressCommitsTheText :=
  fun _ _ _ _ _ _ => exec_decompress_of_container
end

section
/-! PROOFS. What COMPRESS refuses, and what it commits, for every text (48_pipeline.md R120). -/

namespace Sys2Proof.Machine

variable {s t : State}

/-! ### COMPRESS under any ERR -/

/-- What COMPRESS does to a core with an error pending, by what it does without (48_pipeline.md R117; log 7). -/
theorem exec_compress_withErr (h : exec .compress { s with err := 0 } = .next t) :
    exec .compress s = .next (if t.err = 0 then { t with err := s.err } else t) :=
  runSteps_withErr compressSteps_ignoreErr rfl h s.err

theorem exec_compress_of_raised {e : CoreError} (h : exec .compress { s with err := 0 } = .next (t.raiseError e)) :
    exec .compress s = .next (t.raiseError e) := by
  rw [exec_compress_withErr h, if_neg (t.raiseError_err_ne_zero e)]

theorem exec_compress_of_completed (h : exec .compress { s with err := 0 } = .next t) (ht : t.err = 0) :
    exec .compress s = .next { t with err := s.err } := by
  rw [exec_compress_withErr h, if_pos ht]

/-! ### COUNT and BUILD of a text -/

/-- The state COUNT leaves on a 7-bit text; `exec_count_of_sevenBit` ties it to COUNT. -/
def State.counted (s : State) : State :=
  s.setFreq (tallyOf s.mem.text) (BitVec.ofNat 8 (presentCount (tallyOf s.mem.text)))

@[simp] theorem State.counted_params (s : State) : s.counted.params = s.params := by simp [counted]
@[simp] theorem State.counted_mem (s : State) : s.counted.mem = s.mem := by simp [counted]
@[simp] theorem State.counted_freq (s : State) : s.counted.freq = tallyOf s.mem.text := by simp [counted]
@[simp] theorem State.counted_vFreq (s : State) : s.counted.vFreq = true := by simp [counted]
@[simp] theorem State.counted_err (s : State) : s.counted.err = s.err := by simp [counted]
@[simp] theorem State.counted_errInfo (s : State) : s.counted.errInfo = s.errInfo := by simp [counted]

theorem exec_count_eq_counted (h7 : ∀ v ∈ s.mem.text, v.toNat < 128) : exec .count s = .next s.counted :=
  exec_count_of_sevenBit h7

/-- On a 7-bit text COMPRESS goes on from the counted table. -/
theorem exec_compress_of_sevenBit (h7 : ∀ v ∈ s.mem.text, v.toNat < 128) (herr : s.err = 0) :
    exec .compress s =
      chain [exec .build, refuseSingleSymbol, exec .gencode, exec .pack, exec .tser, exec .cenc] s.counted :=
  (compressRunsItsSteps s herr).trans
    (chain_cons_of_next (exec_count_eq_counted h7) (by rw [State.counted_err, herr]))

/-- On a text that is not empty BUILD commits one tree, its leaves the distinct symbols of the text (48_pipeline.md
R116). -/
theorem exec_build_counted (h7 : ∀ v ∈ s.mem.text, v.toNat < 128) (hne : s.mem.text ≠ []) :
    ∃ ns sh, exec .build s.counted = .next (s.counted.setTree ns (ns.length - 1) .built) ∧
      (s.counted.setTree ns (ns.length - 1) .built).shape = some sh ∧ sh.size = ns.length ∧
      sh.leaves.Perm s.mem.text.dedup := by
  have hpresent : ((presentSyms s.counted.freq).map (BitVec.ofNat 8)).Perm s.mem.text.dedup :=
    presentSyms_tallyOf_perm h7
  have hsyms : presentSyms s.counted.freq ≠ [] := fun hnil => by
    rw [hnil, List.map_nil, List.nil_perm, List.dedup_eq_nil] at hpresent
    exact hne hpresent
  obtain ⟨ns, sh, hbuild, hs, hsize, hleaves⟩ := exec_build_shape (s := s.counted) rfl hsyms
  exact ⟨ns, sh, hbuild, hs, hsize, hleaves.trans hpresent⟩

/-- A text of two or more 7-bit symbols reaches PACK in a state `u` with the tree of BUILD's state `d`; `u` is also what
COUNT, BUILD and GENCODE issued one after another leave (48_pipeline.md R116). -/
theorem exists_reachesPack_of_build (h7 : ∀ v ∈ s.mem.text, v.toNat < 128)
    (h2 : ∃ u ∈ s.mem.text, ∃ v ∈ s.mem.text, u ≠ v) (herr : s.err = 0) :
    ∃ d u l r, exec .build s.counted = .next d ∧ d.err = 0 ∧ ReachesPack s u (.node l r) ∧
      chain [exec .count, exec .build, exec .gencode] s = .next u ∧ Part.tree.same d u := by
  obtain ⟨a, ha, b, hb, hab⟩ := h2
  obtain ⟨ns, sh, hbuild, hs, hsize, hperm⟩ := exec_build_counted h7 (List.ne_nil_of_mem ha)
  have hmem : ∀ v, v ∈ sh.leaves ↔ v ∈ s.mem.text := fun v => by rw [hperm.mem_iff, List.mem_dedup]
  obtain ⟨l, r, rfl⟩ := sh.exists_node_of_ne ((hmem a).2 ha) ((hmem b).2 hb) hab
  set d := s.counted.setTree ns (ns.length - 1) .built with hd
  have hderr : d.err = 0 := by simpa [hd] using herr
  have huerr : (d.setCode (Shape.node l r).codeTable).err = 0 := by rw [State.setCode_err, hderr]
  have hmany : d.nodes.length ≠ 1 := by
    have := l.size_pos
    rw [hd, State.setTree_nodes, ← hsize, Shape.size]
    omega
  have hgencode := exec_gencode_of_shape (s := d) rfl hs fun v hv => h7 v ((hmem v).1 hv)
  refine ⟨d, d.setCode (Shape.node l r).codeTable, l, r, hbuild, hderr, ⟨?run, by simp [hd], by simp [hd],
    by simp [hd], by simp [hd], by simp [hd], by simp [hd], by simp, by rw [State.shape_setCode, hs], hperm, by simp⟩,
    ?chain, by simp [Part.same]⟩
  case run =>
    rw [exec_compress_of_sevenBit h7 herr, chain_cons_of_next hbuild hderr,
      chain_cons_of_next (refuseSingleSymbol_of_many hmany) hderr, chain_cons_of_next hgencode huerr]
    exact (packTserCenc_stepsAre.runSteps_eq_chain huerr).symm
  case chain =>
    rw [chain_cons_of_next (exec_count_eq_counted h7) (by rw [State.counted_err, herr])]
    exact (chain_cons_of_next hbuild hderr).trans (chain_cons_of_next hgencode huerr)

/-- The payload's bits are those of the text under the table of COUNT, BUILD and GENCODE (44_bit_packer.md R93). -/
theorem State.payloadBits_of_chain
    (h : chain [exec .count, exec .build, exec .gencode] { s with err := 0 } = .next t) :
    s.payloadBits = (textBits t.code s.mem.text).length := by
  rw [State.payloadBits, h]

/-! ### A text with the byte 0 -/

/-- What TSER raises depends on the tree alone (46_tree_codec.md R102). -/
theorem tserStep_raise_of_sameTree {e : CoreError} (hst : Part.tree.same s t) (h : tserStep s = .error (.raise e)) :
    tserStep t = .error (.raise e) := by
  obtain ⟨hn, hr, hv⟩ := hst
  have hreq : requireTree t = requireTree s := by rw [requireTree_eq, requireTree_eq, hv]
  unfold tserStep at h ⊢
  rw [hreq, hn, hr]
  split at h
  · exact h
  · split at h
    · exact h
    · cases h

/-- The tree of a text with the byte 0 has its leaf of symbol 0 at index 0 (46_tree_codec.md R103). -/
theorem tserStep_of_build_nul (h0 : (0 : Byte) ∈ s.mem.text) (hbuild : exec .build s.counted = .next t)
    (ht : t.err = 0) : ∃ e : CoreError, tserStep t = .error (.raise e) ∧ e.code = 3 ∧ e.info = 0 := by
  have hfreq : s.counted.freq[0] ≠ 0 := by
    simp only [State.counted_freq, getElem_tallyOf]
    exact (List.count_pos_iff.2 h0).ne'
  obtain ⟨t', hbuild', htser⟩ := tserRejectsNulInABuiltTree s.counted rfl hfreq
  cases hbuild.symm.trans hbuild'
  rcases runSteps_one htser with hok | ⟨e, hraise, heq⟩
  · have herr : (3 : BitVec 8) = t.err := tserStep_ignoresErr.err_eq hok
    rw [ht] at herr
    cases herr
  · exact ⟨e, hraise, (congrArg State.err heq).symm, (congrArg State.errInfo heq).symm⟩

/-- COMPRESS where the payload fits and TSER raises stops there, PAY written (48_pipeline.md R120 e). -/
theorem ReachesPack.exec_of_tser_raise {u : State} {sh : Shape} {e : CoreError} (h : ReachesPack s u sh)
    (h7 : ∀ v ∈ s.mem.text, v.toNat < 128)
    (hfit : ((textBits u.code u.mem.text).length + 7) / 8 ≤ u.params.payCap)
    (htser : tserStep u = .error (.raise e)) :
    ∃ out, exec .compress s = .next ((u.commit .pay out).raiseError e) ∧
      streamBits out =
        textBits u.code u.mem.text ++ List.replicate (padCount (textBits u.code u.mem.text).length) false := by
  obtain ⟨out, hpack, hout⟩ := packStep_of_fits h.vCode (h.code_ok h7) (h.packable h7) hfit
  have htser' : tserStep (u.commit .pay out) = .error (.raise e) :=
    tserStep_raise_of_sameTree (s := u) ⟨rfl, rfl, rfl⟩ htser
  exact ⟨out, h.run.trans ((runSteps_cons_ok hpack).trans (runSteps_cons_raise htser')), hout⟩

/-! ### A text without two symbols -/

theorem tallyOf_replicate {y : Byte} {n : Nat} (hy : y.toNat < 128) :
    tallyOf (List.replicate n y) = (Vector.replicate 128 0).set y.toNat n := by
  refine Vector.ext fun k hk => ?_
  rw [getElem_tallyOf, List.count_replicate, Vector.getElem_set, Vector.getElem_replicate]
  have hiff : (y == BitVec.ofNat 8 k) = true ↔ y.toNat = k := by
    rw [beq_iff_eq]
    bv_omega
  simp only [hiff]

theorem presentSyms_tallyOf_replicate {y : Byte} {n : Nat} (hy : y.toNat < 128) :
    presentSyms (tallyOf (List.replicate (n + 1) y)) = [y.toNat] := by
  have hperm := presentSyms_tallyOf_perm (text := List.replicate (n + 1) y)
    fun v hv => (List.eq_of_mem_replicate hv).symm ▸ hy
  rw [List.replicate_dedup n.succ_ne_zero, List.perm_singleton] at hperm
  obtain ⟨k, hk, hky⟩ := List.map_eq_singleton_iff.1 hperm
  have hlt : k < 128 := by
    have hmem : k ∈ presentSyms (tallyOf (List.replicate (n + 1) y)) := hk ▸ List.mem_singleton_self k
    exact List.mem_range.1 (List.mem_of_mem_filter hmem)
  rw [hk, ← hky, BitVec.toNat_ofNat, Nat.mod_eq_of_lt (by omega)]

/-- COMPRESS of an empty text stops at BUILD (48_pipeline.md R120 b). -/
theorem exec_compress_of_empty (htext : s.mem.text = []) (herr : s.err = 0) :
    exec .compress s = .next ((s.setFreq (Vector.replicate 128 0) 0).raiseError .emptyInput) := by
  have h7 : ∀ v ∈ s.mem.text, v.toNat < 128 := by simp [htext]
  have htally : tallyOf s.mem.text = Vector.replicate 128 0 := Vector.ext fun k hk => by
    simp [getElem_tallyOf _ hk, htext]
  have hcounted : s.counted = s.setFreq (Vector.replicate 128 0) 0 := by
    rw [State.counted, presentCount_tallyOf_eq_length_dedup h7, htally, htext]
    rfl
  have hsyms : presentSyms s.counted.freq = [] := by
    have hperm := presentSyms_tallyOf_perm h7
    rw [htext, List.dedup_nil, List.perm_nil, List.map_eq_nil_iff] at hperm
    rw [State.counted_freq, htext, hperm]
  rw [exec_compress_of_sevenBit h7 herr, chain_cons_of_raise (exec_build_of_empty s.counted_vFreq hsyms), hcounted]

/-- COMPRESS of one repeated symbol stops at step 3 with the tree of one leaf (48_pipeline.md R118, R120 c). -/
theorem exec_compress_of_replicate {y : Byte} {n : Nat} (hy : y.toNat < 128)
    (htext : s.mem.text = List.replicate (n + 1) y) (herr : s.err = 0) :
    exec .compress s =
      .next (((s.setFreq ((Vector.replicate 128 0).set y.toNat (n + 1)) 1).setTree [⟨n + 1, true, y, 0, 0⟩] 0
        .built).raiseError (.singleSymbolInput y)) := by
  have h7 : ∀ v ∈ s.mem.text, v.toNat < 128 := fun v hv => (List.eq_of_mem_replicate (htext ▸ hv)).symm ▸ hy
  have hcounted : s.counted = s.setFreq ((Vector.replicate 128 0).set y.toNat (n + 1)) 1 := by
    rw [State.counted, presentCount_tallyOf_eq_length_dedup h7, htext, tallyOf_replicate hy,
      List.replicate_dedup n.succ_ne_zero]
    rfl
  have hsyms : presentSyms s.counted.freq = [y.toNat] := by
    rw [State.counted_freq, htext, presentSyms_tallyOf_replicate hy]
  have hfreq : s.counted.freq[y.toNat]? = some (n + 1) := by
    rw [hcounted, State.setFreq_freq]
    simp [hy]
  have hbuild : exec .build s.counted = .next (s.counted.setTree [⟨n + 1, true, y, 0, 0⟩] 0 .built) := by
    have hleaf := buildOfOneSymbolIsOneLeaf s.counted y.toNat (n + 1) s.counted_vFreq hsyms hfreq
    rwa [BitVec.ofNat_toNat, BitVec.setWidth_eq] at hleaf
  rw [exec_compress_of_sevenBit h7 herr, chain_cons_of_next hbuild (by simpa using herr),
    chain_cons_of_raise (refuseSingleSymbol_of_one rfl), hcounted]

end Sys2Proof.Machine

open Sys2Proof Sys2Proof.Machine

/-- Settles O49: the three texts stop COMPRESS at COUNT, at BUILD and at step 3. -/
theorem compressRefusesInStepOrder : Obligations.CompressRefusesInStepOrder := by
  intro s
  refine ⟨fun pre post v htext hpre hv => ?high, fun htext => ?empty, fun y n hy htext => ?single⟩
  case high =>
    have hcount := exec_count_of_highByte (s := { s with err := 0 }) htext hpre hv
    exact exec_compress_of_raised ((compressRunsItsSteps { s with err := 0 } rfl).trans (chain_cons_of_raise hcount))
  case empty => exact exec_compress_of_raised (exec_compress_of_empty (s := { s with err := 0 }) htext rfl)
  case single => exact exec_compress_of_raised (exec_compress_of_replicate (s := { s with err := 0 }) hy htext rfl)

/-- Settles O50: the payload's length is known before PACK, which raises. -/
theorem compressReportsAPayloadOverflow : Obligations.CompressReportsAPayloadOverflow := by
  intro s h7 h2 hover
  obtain ⟨d, u, l, r, -, -, hu, hchain, -⟩ := exists_reachesPack_of_build (s := { s with err := 0 }) h7 h2 rfl
  rw [State.payloadBits_of_chain hchain] at hover
  have hrun := hu.exec_of_overflow h7 (by rw [hu.mem, hu.params]; dsimp only; omega)
  exact ⟨_, exec_compress_of_raised hrun, rfl, rfl, hu.mem, hu.vFreq, hu.vTree, hu.vCode⟩

/-- Settles O51: PACK commits, and TSER meets the leaf of symbol 0 at index 0. -/
theorem compressRefusesNul : Obligations.CompressRefusesNul := by
  intro s h7 h0 hother hfit
  obtain ⟨v, hv, hv0⟩ := hother
  obtain ⟨d, u, l, r, hbuild, hd, hu, hchain, htree⟩ :=
    exists_reachesPack_of_build (s := { s with err := 0 }) h7 ⟨v, hv, 0, h0, hv0⟩ rfl
  obtain ⟨e, htser, hcode, hinfo⟩ := tserStep_of_build_nul (s := { s with err := 0 }) h0 hbuild hd
  rw [State.payloadBits_of_chain hchain] at hfit
  obtain ⟨out, hrun, hout⟩ := hu.exec_of_tser_raise h7 (by rw [hu.mem, hu.params]; dsimp only; omega)
    (tserStep_raise_of_sameTree htree htser)
  have hmem : u.mem = s.mem := hu.mem
  exact ⟨_, exec_compress_of_raised hrun, hcode, hinfo, by simp [hmem], by simp [hmem], by simp [hmem], hout,
    hu.vFreq, hu.vTree, hu.vCode⟩

/-- Settles O52: PACK, TSER and CENC commit in turn. -/
theorem compressCommitsTheContainer : Obligations.CompressCommitsTheContainer := by
  intro s htext h2 hfit
  have h7 : ∀ v ∈ s.mem.text, v.toNat < 128 := fun v hv => (htext v hv).2
  have h0 : (0 : Byte) ∉ s.mem.text := fun hz => absurd (htext 0 hz).1 (by decide)
  obtain ⟨d, u, l, r, -, -, hu, hchain, -⟩ := exists_reachesPack_of_build (s := { s with err := 0 }) h7 h2 rfl
  rw [State.payloadBits_of_chain hchain] at hfit
  obtain ⟨out, hrun, hout⟩ := hu.exec_of_fits h7 h0 (by rw [hu.mem, hu.params]; dsimp only; omega)
  have hmem : u.mem = s.mem := hu.mem
  exact ⟨_, _, exec_compress_of_completed hrun hu.err, rfl, hu.errInfo, by simp [hmem], hu.shape, rfl, hout, rfl,
    hu.vFreq, hu.vTree, hu.vCode⟩
end

section
/-! PROOFS. The ways into and out of the error state that are the issue's own, and reset (60_exceptions.md R135, R138;
70_reset_and_hazards.md). -/

namespace Sys2Proof.Machine

variable {s : State}

/-! ### The words that are no command, and the ways out of the error state -/

/-- The issue of a word that is no command, with no error pending (60_exceptions.md R135). -/
theorem issue_of_illegal {w : CmdWord} (herr : s.err = 0) (hw : ∀ i : Instr, encode i ≠ w) :
    issue w s = .next (s.raiseError (.illegalCommand w)) := by
  have hrun : ¬ (s.err ≠ 0 ∧ w ≠ clrWord) := fun ⟨hne, _⟩ => hne herr
  rw [issue, if_neg hrun]
  cases hd : decode w with
  | error e => rfl
  | ok i => exact absurd (decode_eq_ok_iff.1 hd) (hw i)

/-- The issue of CLR is executed whatever ERR holds (40_control_and_host.md R61, R63). -/
theorem issue_clrWord (s : State) : issue clrWord s = .next s.clear :=
  issue_of_decode (decode_encode .clr) (.inr rfl)

/-- With an error pending, a host operation keeps ERR and ERRINFO, or is CLR or reset (60_exceptions.md R138). -/
theorem hostStep_of_pending {op : HostOp} {t : State} (herr : s.err ≠ 0) (h : hostStep op s = .next t) :
    (t.err = s.err ∧ t.errInfo = s.errInfo) ∨ (t = s.clear ∧ (op = .issue clrWord ∨ op = .reset)) := by
  cases op with
  | issue w =>
    by_cases hw : w = clrWord
    · subst hw
      cases (issue_clrWord s).symm.trans h
      exact .inr ⟨rfl, .inl rfl⟩
    · cases (issue_of_pending herr hw).symm.trans h
      exact .inl ⟨rfl, rfl⟩
  | reset => cases h; exact .inr ⟨rfl, .inr rfl⟩
  | rdcsr | rdbuf | rdfreq | rdnode | rdcode => cases h; exact .inl ⟨rfl, rfl⟩

end Sys2Proof.Machine

open Sys2Proof Sys2Proof.Machine

/-- Settles O3: reset and CLR are the same update. -/
theorem resetHasTheEffectOfClr : Obligations.ResetHasTheEffectOfClr := by
  intro s ops
  rw [step_host_cons]
  exact ⟨rfl, _, rfl, State.cleared_clear _, rfl⟩

/-- Settles O4: the registers are 0, the buffers empty and the valid flags down. -/
theorem portsAnswerFromReset : Obligations.PortsAnswerFromReset := by
  intro p
  refine ⟨fun k hk => ?_, fun b i => ?_, fun k => rfl, fun i => rfl, fun k => rfl⟩
  · interval_cases k
    · exact congrArg some (State.cleared_resetWith p).status
    all_goals rfl
  · rw [rdBuf]
    split
    · next buf _ => cases buf <;> rfl
    · rfl

/-- Settles O5: no operation is taken. -/
theorem coreWaitsForTheHost : Obligations.CoreWaitsForTheHost := by
  intro s h
  rw [step, nextOp, h]

/-- Settles O7: only the encoding of a command decodes. -/
theorem illegalWordRaisesIllegalCommand : Obligations.IllegalWordRaisesIllegalCommand := by
  intro s w ops herr hw
  rw [step_host_cons]
  exact issue_of_illegal herr hw

/-- Settles O10: CLR and reset clear the state, and every other operation keeps the error registers. -/
theorem errorEndsOnlyByClrOrReset : Obligations.ErrorEndsOnlyByClrOrReset := by
  intro s t herr h
  cases hhost : s.host with
  | nil =>
    rw [coreWaitsForTheHost s hhost] at h
    cases h
    exact .inl ⟨rfl, rfl⟩
  | cons op ops =>
    have hop : hostStep op (s.setHost ops) = .next t := by rwa [step, nextOp, hhost] at h
    rcases hostStep_of_pending (s := s.setHost ops) herr hop with hkeep | ⟨rfl, hclear⟩
    · exact .inl hkeep
    · exact .inr ⟨State.cleared_clear _, ops, hclear.imp (congrArg (· :: ops)) (congrArg (· :: ops))⟩
end

section
/-! PROOFS. How every step of every command ends: it hands on ERR and ERRINFO, or raises an error, and Sequence only
where a prerequisite is missing (60_exceptions.md R123, R134). -/

namespace Sys2Proof.Machine

variable {s : State}

/-! ### How a computation ends -/

/-- The computation answers within `P`, and a Sequence it raises (code 11) shows that `missing` holds. -/
def Ends {α : Type} (P : α → Prop) (missing : Prop) : Except Stop α → Prop
  | .ok a => P a
  | .error (.raise e) => e.code = 11 → missing
  | .error (.fault _) => True

/-- The computation raises no Sequence. -/
abbrev NoSequence {α : Type} (x : Except Stop α) : Prop := Ends (fun _ => True) False x

/-- An error handed on keeps what is known of it. -/
theorem Ends.of_error {α β : Type} {P : α → Prop} {P' : β → Prop} {m m' : Prop} {x : Except Stop α} {e : Stop}
    (h : Ends P m x) (hx : x = .error e) (hm : m → m' := by exact id) : Ends P' m' (.error e) := by
  subst hx
  match e, h with
  | .raise _, h => exact hm ∘ h
  | .fault _, _ => trivial

/-- An error other than Sequence may be raised anywhere. -/
theorem ends_raise {α : Type} {P : α → Prop} {m : Prop} {e : CoreError} (he : e.code ≠ 11 := by simp [CoreError.code]) :
    Ends P m (raise e) := fun h => absurd h he

theorem emit_noSequence (b : BufId) (capacity : Nat) (out : List Byte) (v : Byte) :
    NoSequence (emit b capacity out v) := by
  rw [emit]
  split
  · exact ends_raise
  · trivial

theorem emitAll_noSequence (b : BufId) (capacity : Nat) (out vs : List Byte) :
    NoSequence (emitAll b capacity out vs) := by
  induction vs generalizing out with
  | nil => trivial
  | cons v vs ih =>
    rw [emitAll]
    split
    · exact ih _
    · next h => exact (emit_noSequence ..).of_error h

theorem memRead_noSequence (bs : List Byte) (addr n : Nat) : NoSequence (memRead bs addr n) := by
  rw [memRead]
  split <;> trivial

theorem readNode_noSequence (ns : List Node) (i : Nat) : NoSequence (readNode ns i) := by
  rw [readNode]
  split <;> trivial

theorem countFrom_noSequence (bs : List Byte) (i : Nat) (f : FreqTable) : NoSequence (countFrom bs i f) := by
  induction bs generalizing i f with
  | nil => trivial
  | cons v vs ih =>
    rw [countFrom]
    split
    · exact ih _ _
    · exact ends_raise

theorem visit_noSequence (ns : List Node) (fuel i pat len : Nat) (c : CodeTable) :
    NoSequence (visit ns fuel i pat len c) := by
  induction fuel generalizing i pat len c with
  | zero => trivial
  | succ fuel ih =>
    rw [visit]
    split
    · next h => exact (readNode_noSequence ..).of_error h
    · split
      · split <;> trivial
      · split
        · next h => exact (ih ..).of_error h
        · exact ih ..

theorem drain_noSequence (capacity fuel : Nat) (p : PackState) : NoSequence (drain capacity fuel p) := by
  induction fuel generalizing p with
  | zero => trivial
  | succ fuel ih =>
    rw [drain]
    split
    · split
      · next h => exact (emit_noSequence ..).of_error h
      · exact ih _
    · trivial

theorem packFrom_noSequence (code : CodeTable) (capacity : Nat) (bs : List Byte) (i : Nat) (p : PackState) :
    NoSequence (packFrom code capacity bs i p) := by
  induction bs generalizing i p with
  | nil => trivial
  | cons v vs ih =>
    rw [packFrom]
    split
    · split
      · exact ends_raise
      · split
        · next h => exact (drain_noSequence ..).of_error h
        · exact ih _ _
    · exact ends_raise

theorem padLast_noSequence (capacity : Nat) (p : PackState) : NoSequence (padLast capacity p) := by
  rw [padLast]
  split
  · exact emit_noSequence ..
  · trivial

theorem unpackBit_noSequence (ns : List Node) (root capacity i : Nat) (u : UnpackState) (bit : Bool) :
    NoSequence (unpackBit ns root capacity i u bit) := by
  rw [unpackBit]
  split
  · next h => exact (readNode_noSequence ..).of_error h
  · split
    · exact ends_raise
    · dsimp only
      split
      · next h => exact (readNode_noSequence ..).of_error h
      · split
        · split
          · next h => exact (emit_noSequence ..).of_error h
          · trivial
        · trivial

theorem unpackBits_noSequence (ns : List Node) (root capacity i : Nat) (bits : List Bool) (u : UnpackState) :
    NoSequence (unpackBits ns root capacity i bits u) := by
  induction bits generalizing u with
  | nil => trivial
  | cons b bs ih =>
    rw [unpackBits]
    split
    · next h => exact (unpackBit_noSequence ..).of_error h
    · exact ih _

theorem unpackFrom_noSequence (ns : List Node) (root capacity : Nat) (bs : List Byte) (i : Nat) (u : UnpackState) :
    NoSequence (unpackFrom ns root capacity bs i u) := by
  induction bs generalizing i u with
  | nil => trivial
  | cons v vs ih =>
    rw [unpackFrom]
    split
    · next h => exact (unpackBits_noSequence ..).of_error h
    · exact ih _ _

theorem serialize_noSequence (ns : List Node) (fuel i : Nat) (out : List Byte) :
    NoSequence (serialize ns fuel i out) := by
  induction fuel generalizing i out with
  | zero => trivial
  | succ fuel ih =>
    rw [serialize]
    split
    · next h => exact (readNode_noSequence ..).of_error h
    · split
      · split
        · exact ends_raise
        · exact emit_noSequence ..
      · split
        · next h => exact (emit_noSequence ..).of_error h
        · split
          · next h => exact (ih ..).of_error h
          · exact ih ..

theorem parse_noSequence (treeb : List Byte) (nodeCap fuel : Nat) (p : ParseState) :
    NoSequence (parse treeb nodeCap fuel p) := by
  induction fuel generalizing p with
  | zero => trivial
  | succ fuel ih =>
    rw [parse]
    split
    · exact ends_raise
    · split
      · exact ends_raise
      · split
        · trivial
        · split
          · next h => exact (ih _).of_error h
          · split
            · next h => exact (ih _).of_error h
            · trivial

/-! ### The four prerequisites -/

theorem requireFreq_ends (s : State) : Ends (fun _ => True) (s.vFreq = false) (requireFreq s) := by
  rw [requireFreq]
  split
  · next h => exact fun _ => h
  · trivial

theorem requireTree_ends (s : State) : Ends (fun _ => True) (s.vTree = .none) (requireTree s) := by
  rw [requireTree]
  split
  · next h => exact fun _ => h
  · trivial

theorem requireBuilt_ends (s : State) : Ends (fun _ => True) (s.vTree ≠ .built) (requireBuilt s) := by
  rw [requireBuilt_eq]
  split
  · trivial
  · next h => exact fun _ => h

theorem requireCode_ends (s : State) : Ends (fun _ => True) (s.vCode = false) (requireCode s) := by
  rw [requireCode]
  split
  · next h => exact fun _ => h
  · trivial

/-! ### How a step ends -/

/-- The error registers are the same in `s` and `t`. -/
def State.SameErr (s t : State) : Prop := t.err = s.err ∧ t.errInfo = s.errInfo

theorem State.SameErr.refl (s : State) : s.SameErr s := ⟨rfl, rfl⟩

theorem pushStep_ends (b : BufId) (v : Byte) (s : State) : Ends s.SameErr False (pushStep b v s) := by
  rcases pushStep_cases b v s with ⟨-, h⟩ | ⟨-, h⟩ <;> rw [h]
  · exact ends_raise
  · exact .refl _

theorem countStep_ends (s : State) : Ends s.SameErr False (countStep s) := by
  rw [countStep]
  split
  · exact .refl _
  · next h => exact (countFrom_noSequence ..).of_error h

theorem buildStep_ends (s : State) : Ends s.SameErr (s.vFreq = false) (buildStep s) := by
  rw [buildStep]
  split
  · next h => exact (requireFreq_ends s).of_error h
  · dsimp only
    split
    · exact ends_raise
    · exact .refl _

theorem singleSymbolStep_ends (s : State) : Ends s.SameErr False (singleSymbolStep s) := by
  rw [singleSymbolStep]
  split
  · exact ends_raise
  · exact .refl _

theorem gencodeStep_ends (s : State) : Ends s.SameErr (s.vTree ≠ .built) (gencodeStep s) := by
  rw [gencodeStep]
  split
  · next h => exact (requireBuilt_ends s).of_error h
  · split
    · exact .refl _
    · next h => exact (visit_noSequence ..).of_error h False.elim

theorem packStep_ends (s : State) : Ends s.SameErr (s.vCode = false) (packStep s) := by
  rw [packStep]
  split
  · next h => exact (requireCode_ends s).of_error h
  · split
    · next h => exact (packFrom_noSequence ..).of_error h False.elim
    · split
      · next h => exact (padLast_noSequence ..).of_error h False.elim
      · exact .refl _

theorem unpackStep_ends (s : State) : Ends s.SameErr (s.vTree = .none) (unpackStep s) := by
  rw [unpackStep]
  split
  · next h => exact (requireTree_ends s).of_error h
  · split
    · next h => exact (unpackFrom_noSequence ..).of_error h False.elim
    · exact .refl _

theorem tserStep_ends (s : State) : Ends s.SameErr (s.vTree = .none) (tserStep s) := by
  rw [tserStep]
  split
  · next h => exact (requireTree_ends s).of_error h
  · split
    · next h => exact (serialize_noSequence ..).of_error h False.elim
    · exact .refl _

theorem tdesStep_ends (s : State) : Ends s.SameErr False (tdesStep s) := by
  rw [tdesStep]
  split
  · next h => exact (parse_noSequence ..).of_error h
  · exact .refl _

theorem cencStep_ends (s : State) : Ends s.SameErr False (cencStep s) := by
  rw [cencStep]
  split
  · next h => exact (emitAll_noSequence ..).of_error h
  · exact .refl _

theorem splitContainer_ends (s : State) (tl pl : Nat) : Ends s.SameErr False (splitContainer s tl pl) := by
  rw [splitContainer]
  split_ifs
  · exact ends_raise
  · exact ends_raise
  · exact ends_raise
  · exact .refl _

theorem cdecStep_ends (s : State) : Ends s.SameErr False (cdecStep s) := by
  rw [cdecStep]
  split
  · exact ends_raise
  · split
    · next h => exact (memRead_noSequence ..).of_error h
    · split
      · next h => exact (memRead_noSequence ..).of_error h
      · exact splitContainer_ends ..

/-! ### Component and data-entry commands -/

/-- What a component command lacks when it raises Sequence (60_exceptions.md R134). -/
def lacksPrerequisite (s : State) : Instr → Prop
  | .build => s.vFreq = false
  | .gencode => s.vTree ≠ .built
  | .pack => s.vCode = false
  | .unpack | .tser => s.vTree = .none
  | _ => False

/-- A component or data-entry command is one step at most: it hands on ERR and ERRINFO, or raises an error. -/
theorem exec_ends {i : Instr} {t : State} (hm : isMacro i = false) (hi : i ≠ .clr) (h : exec i s = .next t) :
    s.SameErr t ∨ ∃ e, (e.code = 11 → lacksPrerequisite s i) ∧ t = s.raiseError e := by
  have one {f : CmdStep} (hf : Ends s.SameErr (lacksPrerequisite s i) (f s)) (h : runSteps [f] s = .next t) :
      s.SameErr t ∨ ∃ e, (e.code = 11 → lacksPrerequisite s i) ∧ t = s.raiseError e := by
    rcases runSteps_one h with hok | ⟨e, he, rfl⟩
    · rw [hok] at hf; exact .inl hf
    · rw [he] at hf; exact .inr ⟨e, hf, rfl⟩
  cases i with
  | clr => exact absurd rfl hi
  | compress | decompress => cases hm
  | nop => cases h; exact .inl (.refl s)
  | pushT v => exact one (pushStep_ends ..) h
  | pushS v => exact one (pushStep_ends ..) h
  | pushP v => exact one (pushStep_ends ..) h
  | pushC v => exact one (pushStep_ends ..) h
  | count => exact one (countStep_ends s) h
  | build => exact one (buildStep_ends s) h
  | gencode => exact one (gencodeStep_ends s) h
  | pack => exact one (packStep_ends s) h
  | unpack => exact one (unpackStep_ends s) h
  | tser => exact one (tserStep_ends s) h
  | tdes => exact one (tdesStep_ends s) h
  | cenc => exact one (cencStep_ends s) h
  | cdec => exact one (cdecStep_ends s) h

/-! ### The pipeline commands -/

/-- The steps, run from `s`, end with a Sequence in ERR only if it was there before. -/
def AddsNoSequence (fs : List CmdStep) (s : State) : Prop := ∀ t, runSteps fs s = .next t → t.err = 11 → s.err = 11

theorem addsNoSequence_nil (s : State) : AddsNoSequence [] s := by
  intro t h ht
  cases h
  exact ht

/-- A first step whose prerequisite is there. -/
theorem AddsNoSequence.cons {f : CmdStep} {fs : List CmdStep} {m : Prop} (hf : Ends s.SameErr m (f s)) (hm : ¬ m)
    (hfs : ∀ u, f s = .ok u → AddsNoSequence fs u) : AddsNoSequence (f :: fs) s := by
  intro t h ht
  match hr : f s with
  | .ok u =>
    rw [hr] at hf
    rw [runSteps_cons_ok hr] at h
    exact hf.1 ▸ hfs u hr t h ht
  | .error (.raise e) =>
    rw [hr] at hf
    cases (runSteps_cons_raise hr).symm.trans h
    exact absurd (hf ht) hm
  | .error (.fault e) => cases (runSteps_cons_fault hr).symm.trans h

theorem vFreq_of_countStep {t : State} (h : countStep s = .ok t) : t.vFreq = true := by
  unfold countStep at h
  split at h <;> cases h
  rfl

theorem vTree_of_buildStep {t : State} (h : buildStep s = .ok t) : t.vTree = .built := by
  unfold buildStep at h
  split at h
  · cases h
  · dsimp only at h
    split at h <;> cases h
    rfl

theorem eq_of_singleSymbolStep {t : State} (h : singleSymbolStep s = .ok t) : t = s := by
  unfold singleSymbolStep at h
  split at h <;> cases h
  rfl

theorem vCode_of_gencodeStep {t : State} (h : gencodeStep s = .ok t) : t.vCode = true := by
  unfold gencodeStep at h
  split at h
  · cases h
  · split at h <;> cases h
    rfl

theorem vTree_of_tdesStep {t : State} (h : tdesStep s = .ok t) : t.vTree = .deser := by
  unfold tdesStep at h
  split at h <;> cases h
  rfl

/-- COUNT, BUILD and GENCODE set the flags that the steps after them need (48_pipeline.md R116). -/
theorem compressSteps_addsNoSequence (s : State) : AddsNoSequence compressSteps s := by
  refine .cons (countStep_ends s) id fun a ha => ?_
  refine .cons (buildStep_ends a) (by simp [vFreq_of_countStep ha]) fun b hb => ?_
  have hbt : b.vTree = .built := vTree_of_buildStep hb
  refine .cons (singleSymbolStep_ends b) id fun c hc => ?_
  cases eq_of_singleSymbolStep hc
  refine .cons (gencodeStep_ends b) (by simp [hbt]) fun d hd => ?_
  refine .cons (packStep_ends d) (by simp [vCode_of_gencodeStep hd]) fun e he => ?_
  obtain ⟨-, -, hkeep⟩ : Part.tree.same b e := Part.same_trans
    ((gencodeStep_updates (w := mayWrite .gencode) rfl hd).same rfl)
    ((packStep_updates (w := mayWrite .pack) rfl he).same rfl)
  refine .cons (tserStep_ends e) (by simp [hkeep, hbt]) fun f _ => ?_
  exact .cons (cencStep_ends f) id fun u _ => addsNoSequence_nil u

/-- TDES leaves the tree that UNPACK needs (48_pipeline.md R119). -/
theorem decompressSteps_addsNoSequence (s : State) : AddsNoSequence decompressSteps s :=
  .cons (cdecStep_ends s) id fun a _ => .cons (tdesStep_ends a) id fun b hb =>
    .cons (unpackStep_ends b) (by simp [vTree_of_tdesStep hb]) fun u _ => addsNoSequence_nil u

/-- A command without a prerequisite raises no Sequence (60_exceptions.md R134). -/
theorem err_of_exec_of_sequence {i : Instr} {t : State} (hi : ¬ lacksPrerequisite s i) (h : exec i s = .next t)
    (ht : t.err = 11) : s.err = 11 := by
  by_cases hclr : i = .clr
  · subst hclr
    cases (exec_clr s).symm.trans h
    cases ht
  cases hm : isMacro i with
  | false =>
    rcases exec_ends hm hclr h with hsame | ⟨e, he, rfl⟩
    · exact hsame.1 ▸ ht
    · exact absurd (he ht) hi
  | true =>
    cases i with
    | compress => exact compressSteps_addsNoSequence s t h ht
    | decompress => exact decompressSteps_addsNoSequence s t h ht
    | _ => cases hm

/-! ### Missing prerequisites -/

theorem gencodeStep_of_noTree (h : s.vTree = .none) : gencodeStep s = .error (.raise (.sequence 2)) := by
  simp [gencodeStep, requireBuilt_eq, h]

theorem gencodeStep_of_deser (h : s.vTree = .deser) : gencodeStep s = .error (.raise (.sequence 4)) := by
  simp [gencodeStep, requireBuilt_eq, h]

theorem unpackStep_of_noTree (h : s.vTree = .none) : unpackStep s = .error (.raise (.sequence 2)) := by
  rw [unpackStep, requireTree_eq, if_pos h]

theorem tserStep_of_noTree (h : s.vTree = .none) : tserStep s = .error (.raise (.sequence 2)) := by
  rw [tserStep, requireTree_eq, if_pos h]

theorem packStep_of_noCode (h : s.vCode = false) : packStep s = .error (.raise (.sequence 3)) := by
  rw [packStep, requireCode_eq, if_neg (by simp [h])]

end Sys2Proof.Machine

open Sys2Proof Sys2Proof.Machine

/-- Settles O28: each command tests its prerequisite first, and COMPRESS and DECOMPRESS supply what their steps need. -/
theorem missingPrerequisitesRaiseSequence : Obligations.MissingPrerequisitesRaiseSequence := by
  intro s
  refine ⟨exec_build_of_noTable, fun h => ⟨?_, ?_, ?_⟩, fun h => ?_, fun h => ?_, ?_⟩
  · exact runSteps_cons_raise (gencodeStep_of_noTree h)
  · exact runSteps_cons_raise (unpackStep_of_noTree h)
  · exact runSteps_cons_raise (tserStep_of_noTree h)
  · exact runSteps_cons_raise (packStep_of_noCode h)
  · exact runSteps_cons_raise (gencodeStep_of_deser h)
  · intro i t hbuild hgencode hpack hunpack htser
    have hnone : ¬ lacksPrerequisite s i := by
      cases i with
      | build => exact absurd rfl hbuild
      | gencode => exact absurd rfl hgencode
      | pack => exact absurd rfl hpack
      | unpack => exact absurd rfl hunpack
      | tser => exact absurd rfl htser
      | _ => exact id
    exact err_of_exec_of_sequence hnone

/-- Settles O56: a one-step command commits, or raises and writes ERR and ERRINFO alone. -/
theorem errorsCommitNothing : Obligations.ErrorsCommitNothing := by
  intro i s t hm hi h
  rcases exec_ends hm hi h with hsame | ⟨e, -, rfl⟩
  · exact .inl hsame
  · obtain ⟨hne, hle⟩ := e.code_bounds
    exact .inr ⟨rfl, Nat.pos_of_ne_zero fun h0 => hne (BitVec.eq_of_toNat_eq h0), hle⟩
end

section
/-! PROOFS. The errors of PACK that depend on how far its bits have come, and TDES beyond the arena (60_exceptions.md
R130 to R133, R137). -/

namespace Sys2Proof.Machine

variable {s : State}

/-! ### PACK past a run of symbols it accepts -/

/-- `packFrom` past symbols that have codes, counted in bits alone: it comes to the rest of the text with all their bits
held, or their whole bytes exceed the capacity (44_bit_packer.md R90; 60_exceptions.md R137 d). -/
theorem packFrom_append {code : CodeTable} {capacity : Nat} {pre : List Byte} (rest : List Byte) {i : Nat}
    {p : PackState} (ht : packable code pre) (hp : p.nbits < 8) (hc : p.out.length ≤ capacity) :
    ((p.bits.length + (textBits code pre).length) / 8 ≤ capacity ∧
        ∃ p', packFrom code capacity (pre ++ rest) i p = packFrom code capacity rest (i + pre.length) p' ∧
          p'.bits.length = p.bits.length + (textBits code pre).length ∧ p'.nbits < 8 ∧ p'.out.length ≤ capacity) ∨
      (capacity < (p.bits.length + (textBits code pre).length) / 8 ∧
        packFrom code capacity (pre ++ rest) i p = .error (.raise (.bufferOverflow .pay))) := by
  induction pre generalizing i p with
  | nil =>
    have hlen := p.length_bits
    have hnil : (textBits code []).length = 0 := rfl
    exact .inl ⟨by omega, p, rfl, rfl, hp, hc⟩
  | cons v vs ih =>
    obtain ⟨hv, hvalid⟩ := ht v (by simp)
    have he : entryOf code v = code[v.toNat] := by simp [entryOf, hv]
    rw [he] at hvalid
    have hbits : p.bits.length + (textBits code (v :: vs)).length =
        (shiftIn p code[v.toNat]).bits.length + (textBits code vs).length := by
      simp only [PackState.length_bits, shiftIn, length_textBits, List.map_cons, List.sum_cons, he]
      omega
    rw [hbits]
    have hlen := (shiftIn p code[v.toNat]).length_bits
    rcases drain_spec (capacity := capacity) (p := shiftIn p code[v.toNat]) le_rfl hc with
      ⟨hroom, p', hdrain, hkeep, hrem, hout⟩ | ⟨hover, hdrain⟩
    · have hstep : packFrom code capacity (v :: vs ++ rest) i p = packFrom code capacity (vs ++ rest) (i + 1) p' := by
        simp only [List.cons_append, packFrom, dif_pos hv, hvalid, Bool.true_eq_false, if_false, hdrain]
      rw [hstep, ← hkeep, List.length_cons, Nat.add_comm vs.length, ← Nat.add_assoc]
      exact ih (fun u hu => ht u (by simp [hu])) (by omega) (by omega)
    · refine .inr ⟨by omega, ?_⟩
      simp only [List.cons_append, packFrom, dif_pos hv, hvalid, Bool.true_eq_false, if_false, hdrain]

/-- Where whole bytes fill the capacity, the last partial byte overflows it (44_bit_packer.md R92). -/
theorem padLast_of_overflow {capacity : Nat} {p : PackState} (hp : p.nbits < 8) (hc : p.out.length ≤ capacity)
    (hover : 8 * capacity < p.bits.length) : padLast capacity p = .error (.raise (.bufferOverflow .pay)) := by
  have hlen := p.length_bits
  rw [padLast, if_pos (by omega), emit, if_pos (by omega)]
  rfl

/-- PACK whose bits exceed the capacity, whatever the patterns of the code words (60_exceptions.md R132). -/
theorem packStep_of_bits_overflow (hv : s.vCode = true) (ht : packable s.code s.mem.text)
    (hover : 8 * s.params.payCap < (textBits s.code s.mem.text).length) :
    packStep s = .error (.raise (.bufferOverflow .pay)) := by
  have hrun := packFrom_append (capacity := cap s.params .pay) [] (i := 0) (p := ⟨0, 0, []⟩) ht (by decide)
    (Nat.zero_le _)
  rw [List.append_nil] at hrun
  rw [packStep, requireCode_eq, if_pos hv]
  rcases hrun with ⟨-, p, hpack, hlen, hp, hc⟩ | ⟨-, hraise⟩
  · have hend : packFrom s.code (cap s.params .pay) s.mem.text 0 ⟨0, 0, []⟩ = .ok p := hpack
    have hlast := padLast_of_overflow hp hc (hover.trans_le (by rw [hlen]; exact Nat.le_add_left ..))
    simp only [hend, hlast]
  · simp only [hraise]

/-- PACK at the first symbol it does not accept, where the bytes before it fit (60_exceptions.md R130, R131, R137 d). -/
theorem packStep_of_offending {pre post : List Byte} {v : Byte} {e : CoreError} (hv : s.vCode = true)
    (htext : s.mem.text = pre ++ v :: post) (hpre : packable s.code pre)
    (hfit : (textBits s.code pre).length < 8 * (s.params.payCap + 1))
    (hstop : ∀ p, packFrom s.code s.params.payCap (v :: post) pre.length p = .error (.raise e)) :
    packStep s = .error (.raise e) := by
  have hcap : cap s.params .pay = s.params.payCap := rfl
  have hstart : PackState.bits ⟨0, 0, []⟩ = [] := rfl
  have hrun := packFrom_append (capacity := s.params.payCap) (v :: post) (i := 0) (p := ⟨0, 0, []⟩) hpre (by decide)
    (Nat.zero_le _)
  rw [hstart, List.length_nil, Nat.zero_add, Nat.zero_add] at hrun
  rw [packStep, requireCode_eq, if_pos hv, hcap, htext]
  rcases hrun with ⟨-, p, hreach, -⟩ | ⟨hover, -⟩
  · simp only [hreach, hstop p]
  · omega

end Sys2Proof.Machine

open Sys2Proof Sys2Proof.Machine

/-- Settles O32: the bits of the text exceed those of the buffer, at a whole byte or at the last one. -/
theorem packOverflowsBeyondTheCapacity : Obligations.PackOverflowsBeyondTheCapacity := by
  intro s hv ht hover
  rw [← length_textBits] at hover
  exact runSteps_cons_raise (packStep_of_bits_overflow hv ht hover)

/-- Settles O33: the symbols before the offending one are packed, and it is tested for 7 bits first. -/
theorem packReportsTheFirstOffendingSymbol : Obligations.PackReportsTheFirstOffendingSymbol := by
  intro s pre post v hv htext hpre hfit
  rw [← length_textBits] at hfit
  refine ⟨fun hhigh => ?_, fun hlow hinvalid => ?_⟩
  · refine runSteps_cons_raise (e := .invalidSymbol pre.length) (packStep_of_offending hv htext hpre hfit fun p => ?_)
    rw [packFrom, dif_neg (Nat.not_lt.2 hhigh)]
    rfl
  · refine runSteps_cons_raise (e := .missingCode pre.length) (packStep_of_offending hv htext hpre hfit fun p => ?_)
    have he : entryOf s.code v = s.code[v.toNat] := by simp [entryOf, hlow]
    rw [packFrom, dif_pos hlow, if_pos (he ▸ hinvalid)]
    rfl

/-- Settles O41: of the two limits the parser can meet, the arena's comes first. -/
theorem tdesOverflowsTheArena : Obligations.TdesOverflowsTheArena := by
  intro s hlong hnone
  have herror := tdesStep_of_noTree hnone
  rw [if_neg (Nat.not_le.2 hlong)] at herror
  exact runSteps_cons_raise herror
end
